-- ==== Sys2Proof/Word.lean ====
section
/-! DEFINITION. The machine's words: `u8`, `u16` and `u32` of 00_scope.md R9. -/

namespace Sys2Proof

/-- One byte, `u8` (R9). -/
abbrev Byte := BitVec 8

/-- A 16-bit unsigned value, `u16` (R9). -/
abbrev Half := BitVec 16

/-- A 32-bit unsigned value, `u32` (R9). -/
abbrev Word := BitVec 32

end Sys2Proof
end

