-- ==== Sys2Proof/Machine/Bytes.lean ====
section
/-! DEFINITION. Byte order (20_memory.md R40 to R42): how wider values and byte sequences meet. -/

namespace Sys2Proof.Machine

/-- `v[8*i + 7 : 8*i]` of a 16-bit value (00_scope.md R9). -/
def byteOfHalf (v : Half) (i : Nat) : Byte := (v >>> (8 * i)).setWidth 8

/-- `v[8*i + 7 : 8*i]` of a 32-bit value (R9). -/
def byteOfWord (v : Word) (i : Nat) : Byte := (v >>> (8 * i)).setWidth 8

/-- `le16(v)` (R9). -/
def le16 (v : Half) : List Byte := [byteOfHalf v 0, byteOfHalf v 1]

/-- `le32(v)` (R9). -/
def le32 (v : Word) : List Byte :=
  [byteOfWord v 0, byteOfWord v 1, byteOfWord v 2, byteOfWord v 3]

/-- The 16-bit value of two bytes, low byte first: `byte0 | (byte1 << 8)` (R42, 30_encoding.md R74). -/
def half16 (lo hi : Byte) : Half := lo.setWidth 16 ||| (hi.setWidth 16 <<< 8)

/-- The 32-bit value of four bytes, low byte first. -/
def word32 (b0 b1 b2 b3 : Byte) : Word :=
  b0.setWidth 32 ||| (b1.setWidth 32 <<< 8) ||| (b2.setWidth 32 <<< 16) ||| (b3.setWidth 32 <<< 24)

/-- The number a byte sequence is when its FIRST byte is the least significant (R42). -/
def natOfLe : List Byte → Nat
  | [] => 0
  | b :: bs => b.toNat + 256 * natOfLe bs

/-- The number a byte sequence is when its FIRST byte is the most significant: how the host reads
`RDV` (R42, 42_command_protocol.md R150). -/
def natOfBe (bs : List Byte) : Nat := bs.foldl (fun n b => 256 * n + b.toNat) 0

end Sys2Proof.Machine
end

