-- ==== Sys2Proof/Config.lean ====
section
/-! DEFINITION. The constants of 00_scope.md R6 to R8. The CRC unit's constants are fields of the
record type `CrcParams`, as R6 asks; their values stand in Machine/Crc.lean (`crcParams`). -/

namespace Sys2Proof

/-- The CRC unit's constants (R6): "a model should keep all four CRC values as fields of its
configuration record". -/
structure CrcParams where
  /-- `CRC_POLY`. -/
  poly : Word
  /-- `CRC_SEED`. -/
  seed : Word
  /-- `CRC_STEPS_PER_BYTE`. -/
  stepsPerByte : Nat
  /-- `CRC_INJECT_SHIFT`: a byte meets the accumulator with its bit 0 at this bit. -/
  injectShift : Nat
  deriving DecidableEq, Repr

namespace Config

/-- `ADDR_IN_MAX` (R8, D5): the most address bytes the port carries. -/
def addrInMax : Nat := 8

/-- `NCMD` (R6). -/
def commandCount : Nat := 10

/-- `CHUNK_MAX` (R6): most bytes in one MemWrite chunk. -/
def chunkMax : Nat := 1024

/-- `PAYLOAD_MAX` (R7): the size of `PB`. -/
def payloadMax : Nat := 1028

/-- `RESP_DATA_MAX` (R7): the size of `RXB`. -/
def respDataMax : Nat := 255

/-- `IMAGE_MAX` (R8, D16): the size of `IMG`. -/
def imageMax : Nat := 131072

/-- The number of pages a transfer may name under R209: 0 to `PAGE_LAST` (R6). -/
def pageCount : Nat := 128

end Config

/-- The parameters of a run that the spec leaves open (R8, 10_state.md R11). The model holds them in
State, where no step changes them, so a claim is made for every value (log 6). -/
structure Params where
  /-- `RX_TIMEOUT`: `none`, or a positive number of the link adapter's time units. -/
  rxTimeout : Option Nat
  /-- `XFER_FAIL_STOP`. -/
  xferFailStop : Bool
  deriving DecidableEq, Repr

/-- The defaults of R8: `RX_TIMEOUT = none`, `XFER_FAIL_STOP = 0`. -/
def Params.default : Params := { rxTimeout := none, xferFailStop := false }

end Sys2Proof
end

