-- ==== Sys2Proof/Machine/Crc.lean ====
section
/-! DEFINITION. The CRC32Engine as functions (40_crc32_engine.md R100 to R112). -/

namespace Sys2Proof.Machine

/-- The values of 00_scope.md R6 (90_conflicts.md C1: 32 steps, byte injected at bits 31:24; log 11).
`CRC_FINAL_XOR` is 0 (R107) and no operation applies one. -/
def crcParams : CrcParams :=
  { poly := 0x04C11DB7, seed := 0xFFFFFFFF, stepsPerByte := 32, injectShift := 24 }

/-- Inject byte `b` (R102). -/
def crcInject (p : CrcParams) (acc : Word) (b : Byte) : Word :=
  acc ^^^ (b.setWidth 32 <<< p.injectShift)

/-- One bit step (R103): the test is made on bit 31 before the shift. -/
def crcShift (p : CrcParams) (acc : Word) : Word :=
  if acc.getLsbD 31 then (acc <<< 1) ^^^ p.poly else acc <<< 1

/-- `n` bit steps. -/
def crcShifts (p : CrcParams) : Nat → Word → Word
  | 0, acc => acc
  | n + 1, acc => crcShifts p n (crcShift p acc)

/-- Absorb byte `b` (R104): inject it, then `CRC_STEPS_PER_BYTE` bit steps. -/
def crcAbsorb (p : CrcParams) (acc : Word) (b : Byte) : Word :=
  crcShifts p p.stepsPerByte (crcInject p acc b)

/-- Absorb the bytes of `bs`, index 0 first. -/
def crcAbsorbAll (p : CrcParams) (acc : Word) (bs : List Byte) : Word :=
  bs.foldl (crcAbsorb p) acc

/-- The whole function for any parameters (R105). -/
def crcOf (p : CrcParams) (bs : List Byte) : Word := crcAbsorbAll p p.seed bs

/-- `crc32(S)` (R105). -/
def crc32 (bs : List Byte) : Word := crcOf crcParams bs

/-- `expand(S)` of R111: three zero bytes after every byte. -/
def crcExpand : List Byte → List Byte
  | [] => []
  | b :: bs => b :: 0 :: 0 :: 0 :: crcExpand bs

/-- A bit step on an accumulator that is an unbounded natural number, as the source's is (R106): the
test reads bit 31, nothing is cut off. -/
def crcShiftNat (p : CrcParams) (acc : Nat) : Nat :=
  if acc.testBit 31 then (acc <<< 1) ^^^ p.poly.toNat else acc <<< 1

/-- `n` bit steps on an unbounded accumulator. -/
def crcShiftsNat (p : CrcParams) : Nat → Nat → Nat
  | 0, acc => acc
  | n + 1, acc => crcShiftsNat p n (crcShiftNat p acc)

/-- Absorb on an unbounded accumulator. -/
def crcAbsorbNat (p : CrcParams) (acc : Nat) (b : Byte) : Nat :=
  crcShiftsNat p p.stepsPerByte (acc ^^^ (b.toNat <<< p.injectShift))

/-- The source's form of the whole function (R106): the mask to 32 bits comes after all bytes. -/
def crc32Masked (bs : List Byte) : Nat :=
  bs.foldl (crcAbsorbNat crcParams) crcParams.seed.toNat % 2 ^ 32

end Sys2Proof.Machine
end

