-- ==== Sys2Proof/Machine/Frame.lean ====
section
/-! DEFINITION. The FrameCodec as functions (41_frame_codec.md): request frames, and responses. -/

namespace Sys2Proof.Machine

/-- The value of the length prefix, `(len(P) + 4) mod 2^16` (R120, 30_encoding.md R71, R75). -/
def frameLength (payload : List Byte) : Half := BitVec.ofNat 16 (payload.length + 4)

/-- The bytes the CRC covers: the length prefix, then the payload (R122). -/
def coveredBytes (payload : List Byte) : List Byte := le16 (frameLength payload) ++ payload

/-- `encode(P)` (R120): the covered bytes, then their CRC, low byte first. -/
def encodeFrame (payload : List Byte) : List Byte :=
  coveredBytes payload ++ le32 (crc32 (coveredBytes payload))

/-- What a receiver of a request frame does (30_encoding.md R74, 41_frame_codec.md R125): read two
bytes as `L`, then `L` more, the last four of them the trailer; the payload is accepted when the
trailer is the CRC of what it covers. The answer is the payload and the bytes after the frame. The
ENGINE never does this (R74): it is the target's side of the format. -/
def parseFrame : List Byte → Option (List Byte × List Byte)
  | lo :: hi :: body =>
    let n := (half16 lo hi).toNat
    if 4 ≤ n ∧ n ≤ body.length then
      let payload := body.take (n - 4)
      if (body.take n).drop (n - 4) = le32 (crc32 (lo :: hi :: payload)) then
        some (payload, body.drop n)
      else none
    else none
  | _ => none

/-- A response, as `decode_response()` leaves it (R126): `ack`, `st_byte` and the data bytes. -/
structure Response where
  ack : Bool
  stByte : Byte
  data : List Byte
  deriving DecidableEq, Repr

/-- `ACK` (00_scope.md R6). -/
def ackByte : Byte := 0x01

/-- `decode_response()` on the bytes the link will deliver (R126, R127): the response and the bytes
left, or `none` when the bytes run out and the engine waits (60_exceptions.md R235). -/
def decodeResponse : List Byte → Option (Response × List Byte)
  | [] => none
  | s :: rest =>
    if s = ackByte then
      match rest with
      | [] => none
      | n :: more =>
        if n.toNat ≤ more.length then
          some ({ ack := true, stByte := s, data := more.take n.toNat }, more.drop n.toNat)
        else none
    else some ({ ack := false, stByte := s, data := [] }, rest)

end Sys2Proof.Machine
end

