-- ==== Sys2Proof/Syntax.lean ====
section
/-! DEFINITION. The instructions: the ten host commands of 00_scope.md R3, one constructor for each
row of spec/opcode_table.json, with the operands 42_command_protocol.md R143 to R152 give them. -/

namespace Sys2Proof

/-- Four address bytes in entered order: `b0` the first entered, most significant (10_state.md R15). -/
structure AddrBytes where
  b0 : Byte
  b1 : Byte
  b2 : Byte
  b3 : Byte
  deriving DecidableEq, Repr

/-- A host command (R3). An operand is a field of the descriptor that the command's rule names; the
fields it does not name are ignored (R158) and stand in the descriptor only. -/
inductive Instr where
  /-- R143. -/
  | getVersion
  /-- R144. -/
  | getHelp
  /-- R145. -/
  | getChipId
  /-- R146. -/
  | getRdpStatus
  /-- R147: operands `c_addr_len` and `c_addr[0..3]`. -/
  | goToAddress (addrLen : BitVec 4) (addr : AddrBytes)
  /-- R148: start page and page count. -/
  | eraseFlash (page count : Byte)
  /-- R149, R200: start page and image length; the image itself is `IMG`. -/
  | memWrite (page : Byte) (imgLen : BitVec 18)
  /-- R150: operands `c_addr_len`, `c_addr[0..3]` and `c_rd_len`. -/
  | memRead (addrLen : BitVec 4) (addr : AddrBytes) (rdLen : Word)
  /-- R151. -/
  | jumpToApp (page : Byte)
  /-- R152: level 0 or 1. -/
  | changeRdpLevel (level : BitVec 1)
  deriving DecidableEq, Repr

/-- The command's selector: its ordinal in 30_encoding.md R85. -/
def Instr.selector : Instr → BitVec 4
  | .getVersion => 1
  | .getHelp => 2
  | .getChipId => 3
  | .getRdpStatus => 4
  | .goToAddress _ _ => 5
  | .eraseFlash _ _ => 6
  | .memWrite _ _ => 7
  | .memRead _ _ _ => 8
  | .jumpToApp _ => 9
  | .changeRdpLevel _ => 10

/-- MemWrite is the one command that is a transfer and not one exchange (R140, 30_encoding.md R94). -/
def Instr.isTransfer : Instr → Bool
  | .memWrite _ _ => true
  | _ => false

end Sys2Proof
end

