-- ==== Sys2Proof/WellFormed.lean ====
section
/-! DEFINITION. Well-formed host commands: the operands for which the spec gives an encoding. -/

namespace Sys2Proof

/-- An address argument has exactly four bytes (42_command_protocol.md R142); an image has at most
`IMAGE_MAX` bytes (10_state.md R23). Every other operand value is sent as given (30_encoding.md R91). -/
def Instr.wf : Instr → Bool
  | .goToAddress addrLen _ => addrLen == 4
  | .memRead addrLen _ _ => addrLen == 4
  | .memWrite _ imgLen => imgLen.toNat ≤ Config.imageMax
  | _ => true

/-- `i.carries chunk`: the bytes `chunk` are the raw data of ONE payload of `i`. Only format `W`
carries raw data (30_encoding.md R78): one chunk of `imgLen` bytes, at most 1024, which is the whole
image of a one-chunk transfer (D14). -/
def Instr.carries (i : Instr) (chunk : List Byte) : Bool :=
  match i with
  | .memWrite _ imgLen => chunk.length == imgLen.toNat && imgLen.toNat ≤ Config.chunkMax
  | _ => chunk.isEmpty

end Sys2Proof
end

