-- ==== Sys2Proof/Decode.lean ====
section
/-! DEFINITION. Decoding and encoding of payloads (30_encoding.md R76 to R85). The encoding of a host
command is what the engine puts on the link (00_scope.md R3); the engine itself has no decoder (R74),
so `decode` is how the model, and a target, reads a payload back (log 18). -/

namespace Sys2Proof

/-- Why a byte sequence is no payload of the ten commands. -/
inductive DecodeError where
  /-- There is no opcode byte. -/
  | empty
  /-- The first byte is outside 0x10 to 0x19 (30_encoding.md R88). -/
  | badOpcode (b : Byte)
  /-- The fields of the command's format do not all stand there. -/
  | truncated (opcode : Byte)
  /-- ChangeRdpLevel's byte is neither 0xA5 nor 0x00 (R80, R152). -/
  | badLevelByte (b : Byte)
  /-- MemWrite's chunk length is above 1024 (R78). -/
  | chunkTooLong (n : Nat)
  /-- Bytes follow the payload. -/
  | trailingBytes (n : Nat)
  /-- The frame around the payload is not one: its length or its CRC is wrong. -/
  | badFrame
  deriving DecidableEq, Repr

/-- What a payload holds: the command, the raw bytes it carries (format `W` only), and what follows. -/
structure Decoded where
  instr : Instr
  chunk : List Byte
  rest : List Byte
  deriving DecidableEq, Repr

/-- The address field: payload offsets 1 to 4 hold the entered bytes in reverse (R83). -/
def addrOfField (f0 f1 f2 f3 : Byte) : AddrBytes := { b0 := f3, b1 := f2, b2 := f1, b3 := f0 }

/-- The first `n` bytes and the rest, if there are so many. -/
def splitRaw : Nat → List Byte → Option (List Byte × List Byte)
  | 0, bs => some ([], bs)
  | _ + 1, [] => none
  | n + 1, b :: bs =>
    match splitRaw n bs with
    | some (front, rest) => some (b :: front, rest)
    | none => none

/-- Decode the fields that follow the opcode byte `op` (R85). -/
def decodeFields (op : Byte) (fields : List Byte) : Except DecodeError Decoded :=
  match op.toNat with
  | 0x10 => .ok { instr := .getVersion, chunk := [], rest := fields }
  | 0x11 => .ok { instr := .getHelp, chunk := [], rest := fields }
  | 0x12 => .ok { instr := .getChipId, chunk := [], rest := fields }
  | 0x13 => .ok { instr := .getRdpStatus, chunk := [], rest := fields }
  | 0x14 =>
    match fields with
    | f0 :: f1 :: f2 :: f3 :: rest =>
      .ok { instr := .goToAddress 4 (addrOfField f0 f1 f2 f3), chunk := [], rest := rest }
    | _ => .error (.truncated op)
  | 0x15 =>
    match fields with
    | page :: count :: rest => .ok { instr := .eraseFlash page count, chunk := [], rest := rest }
    | _ => .error (.truncated op)
  | 0x16 =>
    match fields with
    | page :: lo :: hi :: data =>
      let n := (Machine.half16 lo hi).toNat
      if n ≤ Config.chunkMax then
        match splitRaw n data with
        | some (chunk, rest) =>
          .ok { instr := .memWrite page (BitVec.ofNat 18 n), chunk := chunk, rest := rest }
        | none => .error (.truncated op)
      else .error (.chunkTooLong n)
    | _ => .error (.truncated op)
  | 0x17 =>
    match fields with
    | f0 :: f1 :: f2 :: f3 :: l0 :: l1 :: l2 :: l3 :: rest =>
      .ok { instr := .memRead 4 (addrOfField f0 f1 f2 f3) (Machine.word32 l0 l1 l2 l3), chunk := [], rest := rest }
    | _ => .error (.truncated op)
  | 0x18 =>
    match fields with
    | page :: rest => .ok { instr := .jumpToApp page, chunk := [], rest := rest }
    | _ => .error (.truncated op)
  | 0x19 =>
    match fields with
    | b :: rest =>
      if b = 0xA5 then .ok { instr := .changeRdpLevel 0, chunk := [], rest := rest }
      else if b = 0x00 then .ok { instr := .changeRdpLevel 1, chunk := [], rest := rest }
      else .error (.badLevelByte b)
    | _ => .error (.truncated op)
  | _ => .error (.badOpcode op)

/-- Decode the payload at the front of a byte sequence. -/
def decodeFront : List Byte → Except DecodeError Decoded
  | [] => .error .empty
  | op :: fields => decodeFields op fields

/-- Decode a byte sequence that is one payload and nothing more (R72): the command and its raw bytes. -/
def decode (bs : List Byte) : Except DecodeError (Instr × List Byte) :=
  match decodeFront bs with
  | .error e => .error e
  | .ok d => if d.rest.isEmpty then .ok (d.instr, d.chunk) else .error (.trailingBytes d.rest.length)

/-- Decode a byte sequence that is one request frame and nothing more (R70, R74). -/
def decodeFrame (bs : List Byte) : Except DecodeError (Instr × List Byte) :=
  match Machine.parseFrame bs with
  | some (payload, []) => decode payload
  | some (_, rest) => .error (.trailingBytes rest.length)
  | none => .error .badFrame

/-- The address field of formats `A` and `AL`: the entered bytes in reverse (R77, R79, R83). -/
def addrField (a : AddrBytes) : List Byte := [a.b3, a.b2, a.b1, a.b0]

/-- ChangeRdpLevel's byte: `RDP_DISABLE_BYTE` for level 0, `RDP_ENABLE_BYTE` for level 1 (R80, R152). -/
def levelByte (level : BitVec 1) : Byte := if level = 0 then 0xA5 else 0x00

/-- The payload of a command (R76 to R81), with the raw bytes a format `W` payload carries. The
opcodes are written out from the table of R85. -/
def encode (i : Instr) (chunk : List Byte) : List Byte :=
  match i with
  | .getVersion => [0x10]
  | .getHelp => [0x11]
  | .getChipId => [0x12]
  | .getRdpStatus => [0x13]
  | .goToAddress _ a => 0x14 :: addrField a
  | .eraseFlash page count => [0x15, page, count]
  | .memWrite page imgLen => 0x16 :: page :: (Machine.le16 (imgLen.setWidth 16) ++ chunk)
  | .memRead _ a rdLen => 0x17 :: (addrField a ++ Machine.le32 rdLen)
  | .jumpToApp page => [0x18, page]
  | .changeRdpLevel level => [0x19, levelByte level]

/-- The bytes of an instruction given as a number of `nbits` bits, bit 0 the least significant bit of
the first byte, and zero bytes after them up to the longest payload. -/
def tableWordBytes (nbits w : Nat) : List Byte :=
  (List.range (nbits / 8)).map (fun j => BitVec.ofNat 8 (w >>> (8 * j)))
    ++ List.replicate Config.payloadMax 0

/-- The payload that a row's word, with zeros after it, begins with. -/
def decodeTableFront (nbits w : Nat) : Option Decoded :=
  match decodeFront (tableWordBytes nbits w) with
  | .ok d => some d
  | .error _ => none

/-- The instruction the decoder reads from a row's word (the host's fixed name). -/
def decodeTableWord (nbits w : Nat) : Option Instr :=
  match decodeTableFront nbits w with
  | some d => some d.instr
  | none => none

end Sys2Proof
end

