-- ==== Sys2Proof/Machine/State.lean ====
section
/-! DEFINITION. The machine's state (10_state.md), all of it plain data. -/

namespace Sys2Proof.Machine

/-- The sequencer's eleven states (43_protocol_sequencer.md R180). -/
inductive Fsm where
  | idle
  | marshal
  | txLen
  | txPayload
  | txCrc
  | rxStatus
  | rxLen
  | rxData
  | decode
  | nextChunk
  | done
  deriving DecidableEq, Repr

/-- The outcome of a host command (60_exceptions.md R221). -/
inductive Status where
  | ok
  | nack
  | localValidation
  | transport
  | noResponse
  | shortResponse
  | helpOverflow
  deriving DecidableEq, Repr

/-- The sub-cause of `LOCAL_VALIDATION` (60_exceptions.md R222); `none` when the status is another. -/
inductive Subcause where
  | none
  | badSelector
  | badParam
  | badAddrLen
  deriving DecidableEq, Repr

/-- A descriptor (10_state.md R23), as the host presents it (`d_*`) and as the engine latches it
(`c_*`, R15). -/
structure Descriptor where
  /-- `c_sel`. -/
  sel : BitVec 4
  /-- `c_param_bad`. -/
  paramBad : Bool
  /-- `c_addr_len`. -/
  addrLen : BitVec 4
  /-- `c_addr[0..3]`. -/
  addr : AddrBytes
  /-- `c_addr[4..7]`. -/
  addrRest : AddrBytes
  /-- `c_page`. -/
  page : Byte
  /-- `c_count`. -/
  count : Byte
  /-- `c_rd_len`. -/
  rdLen : Word
  /-- `c_level`. -/
  level : BitVec 1
  /-- `c_img_len`. -/
  imgLen : BitVec 18
  deriving DecidableEq, Repr

/-- The descriptor with every field 0: no command selected. -/
def Descriptor.zero : Descriptor :=
  { sel := 0, paramBad := false, addrLen := 0, addr := ⟨0, 0, 0, 0⟩, addrRest := ⟨0, 0, 0, 0⟩,
    page := 0, count := 0, rdLen := 0, level := 0, imgLen := 0 }

/-- A byte-indexed buffer (10_state.md section 7): the listed bytes, indexes strictly rising, none
equal to what an unlisted index reads as (`Memory.fill`, Machine/Ops.lean). -/
abbrev Memory := List Host.Cell

/-- The values of the chunk event port while its pulse is up (10_state.md R25). -/
structure ChunkEvent where
  /-- `chunk_idx`. -/
  index : Byte
  /-- `chunk_page`. -/
  page : Byte
  /-- `chunk_ok`. -/
  ok : Bool
  deriving DecidableEq, Repr

/-- A host command as the host issues it (10_state.md R10, R23; 30_encoding.md R93): a descriptor,
and for MemWrite the image the host has written to `IMG` before (log 15). -/
structure HostCommand where
  desc : Descriptor
  image : Option (List Byte)
  deriving DecidableEq, Repr

/-- The input pins during one step (10_state.md R22, R23, R30), with the bytes that reach the link's
receive side by its end (log 2, log 14). -/
structure Stim where
  /-- `rst`. -/
  rst : Bool
  /-- `link_err`. The model has no other failure of the link: the pin IS the failure, so it is raised on
  a real one only (70_reset_and_hazards.md R265; log 23). -/
  linkErr : Bool
  /-- `tx_ready`. -/
  txReady : Bool
  /-- The link offers a waiting byte: `rx_valid = 1` when it does and a byte waits. -/
  rxOffer : Bool
  /-- The host presents its next command: `cmd_valid = 1` when it does and one is left. -/
  cmdOffer : Bool
  /-- One of the link adapter's time units passes (R32). -/
  timeUnit : Bool
  /-- Bytes that arrive at the link's receive side (20_memory.md R57). -/
  arrive : List Byte
  /-- What the link adapter makes of the receive side when the step ends in `IDLE`: `none` keeps what
  waits there, `some bs` leaves `bs` (70_reset_and_hazards.md R251, R256; log 22). -/
  rxHolds : Option (List Byte)
  /-- When the step ends in `IDLE`, the target is brought to a frame boundary by means outside the engine
  (70_reset_and_hazards.md R251, R265; log 22). -/
  restored : Bool
  deriving DecidableEq, Repr

/-- Quiet pins: a link that takes and offers bytes at once and does not fail (20_memory.md R55's trace
form; log 2). -/
def Stim.quiet : Stim :=
  { rst := false, linkErr := false, txReady := true, rxOffer := true, cmdOffer := true,
    timeUnit := true, arrive := [], rxHolds := none, restored := false }

/-- The machine: the engine's registers, buffers and outputs, and the neighbours it meets. -/
structure State where
  /-- The sequencer state (R16, R180). -/
  fsm : Fsm
  /-- The byte index of the current phase (R14). -/
  idx : BitVec 11
  /-- R18. -/
  busy : Bool
  /-- The receive timer (R32); of no meaning when `RX_TIMEOUT = none`. -/
  tmo : Nat
  /-- The CRC accumulator (R12). -/
  acc : Word
  /-- Bit steps still to do (R13). -/
  bitcnt : BitVec 6
  /-- Payload bytes of the frame being sent (R14). -/
  plen : BitVec 11
  /-- The frame's length field (R14). -/
  flen : Half
  /-- The latched descriptor (R15). -/
  desc : Descriptor
  /-- R17. -/
  ack : Bool
  /-- `st_byte` (R17). -/
  stByte : Byte
  /-- `data_len` (R17). -/
  dataLen : Byte
  /-- `res_valid` (R18). -/
  resValid : Bool
  /-- R18. -/
  status : Status
  /-- R18. -/
  subcause : Subcause
  /-- `ver_vendor` (R24). -/
  verVendor : Byte
  /-- `ver_major` (R24). -/
  verMajor : Byte
  /-- `ver_minor` (R24). -/
  verMinor : Byte
  /-- `ver_patch` (R24). -/
  verPatch : Byte
  /-- `help_count` (R24). -/
  helpCount : BitVec 4
  /-- `chip_id` (R24). -/
  chipId : Half
  /-- `rdp_rep` (R24). -/
  rdpRep : BitVec 1
  /-- `cur_page` (R19). -/
  curPage : Byte
  /-- The chunk index (R20). -/
  k : Byte
  /-- R20. -/
  nchunks : Byte
  /-- R20. -/
  clen : BitVec 11
  /-- `xfer_attempts` (R21). -/
  xferAttempts : Byte
  /-- `xfer_failures` (R21). -/
  xferFailures : Byte
  /-- `xfer_fail_map` (R21). -/
  xferFailMap : BitVec 128
  /-- `PB` (R26). -/
  pb : Memory
  /-- `RXB` (R27). -/
  rxb : Memory
  /-- `tx_valid` and `tx_data` (R30): the byte on offer, if any (log 12). -/
  txOffer : Option Byte
  /-- The chunk event port (R25): the pulse and its values, if it is up (log 12). -/
  chunkEvt : Option ChunkEvent
  /-- `IMG`, the host's (R28). -/
  img : Memory
  /-- Bytes waiting in the link's receive side (R31). -/
  rx : List Byte
  /-- All bytes the link has taken, in order (20_memory.md R55). -/
  tx : List Byte
  /-- How many bytes the link had taken when the target was last brought to a frame boundary by means
  outside the engine; `none` when an exchange has been broken off since, so that a part of a frame or a
  response may be owed (70_reset_and_hazards.md R251, R256; the model's own, log 22). -/
  boundary : Option Nat
  /-- The host's coming commands (R10; the model's own, log 2). -/
  host : List HostCommand
  /-- The pins of the coming steps (the model's own, log 2). -/
  script : List Stim
  /-- The pins of every step past the script's end, without end (the model's own, log 2). -/
  restPins : Stim
  /-- The parameters of the run (R11, log 6). -/
  params : Params
  deriving DecidableEq, Repr

/-- Why the machine stops. Every one is safe, and none is met by a run of the machine: the states in
which they are raised are ruled out by the invariant of Safety.lean. -/
inductive Fault where
  /-- Raised by `cycle` (Machine/Fetch.lean) in a state other than `IDLE` and `DONE` whose latched
  selector names no command: 43_protocol_sequencer.md R194 lists no transition for it. Safe. -/
  | unlistedState
  /-- Raised by the steps that read `PB` and `IMG` and write `RXB` when the index is past the buffer's
  end (20_memory.md R48): there is no such byte. Safe. -/
  | noSuchByte
  deriving DecidableEq, Repr

/-- Why a step has no meaning. -/
inductive Refusal where
  /-- Raised by an arm of `exec` whose instruction has no meaning yet. Safe. -/
  | notModelled (mnemonic : String)
  /-- Raised by MemWrite's accept when `d_img_len` is above `IMAGE_MAX`, a value the port does not
  carry (10_state.md R23; log 9). Safe. -/
  | imageBeyondMax
  /-- Raised by MemWrite's accept when `c_page + nchunks` is above 128: "A model should refuse a MemWrite
  host command with `c_page + nchunks > 128`" (44_transfer_session.md R209; log 8). Safe. -/
  | pagesBeyondLast
  deriving DecidableEq, Repr

/-- The machine right after reset (10_state.md R33). What R33 leaves unspecified is 0 or empty (logs
3 and 4); nothing waits on the link, and the host and the script are empty (log 5). -/
def State.reset : State :=
  { fsm := .idle, idx := 0, busy := false, tmo := 0,
    acc := 0xFFFFFFFF, bitcnt := 0, plen := 0, flen := 0,
    desc := Descriptor.zero,
    ack := false, stByte := 0x00, dataLen := 0,
    resValid := false, status := .ok, subcause := .none,
    verVendor := 0, verMajor := 0, verMinor := 0, verPatch := 0,
    helpCount := 0, chipId := 0, rdpRep := 0,
    curPage := 0, k := 0, nchunks := 0, clen := 0,
    xferAttempts := 0, xferFailures := 0, xferFailMap := 0,
    pb := [], rxb := [], txOffer := none, chunkEvt := none,
    img := [], rx := [], tx := [], boundary := some 0, host := [], script := [],
    restPins := Stim.quiet, params := Params.default }

end Sys2Proof.Machine
end

