-- ==== Sys2Proof/Machine/Ops.lean ====
section
/-! DEFINITION. The named operations over buffers, the CRC registers, the link and the sequencer's
result, shared by every instruction; taking a failure (`raise`) and returning from one (`presentResult`). -/

namespace Sys2Proof.Machine

/-! ### Buffers (00_scope.md R9, 20_memory.md R46, R48) -/

/-- What an index that nothing has written reads as (log 3). -/
def Memory.fill : Byte := 0x00

/-- `MemRead(space, a, 1)`. -/
def Memory.read : Memory → Nat → Byte
  | [], _ => Memory.fill
  | c :: m, a => if c.1 = a then c.2 else Memory.read m a

/-- `MemWrite(space, a, 1, [b])`: the form stays canonical, so writing `fill` removes the entry. -/
def Memory.write : Memory → Nat → Byte → Memory
  | [], a, b => if b = Memory.fill then [] else [(a, b)]
  | c :: m, a, b =>
    if a < c.1 then (if b = Memory.fill then c :: m else (a, b) :: c :: m)
    else if a = c.1 then (if b = Memory.fill then m else (a, b) :: m)
    else c :: Memory.write m a b

/-- `MemRead(space, a, n)`. -/
def Memory.readList (m : Memory) (a : Nat) : Nat → List Byte
  | 0 => []
  | n + 1 => m.read a :: Memory.readList m (a + 1) n

/-- `MemWrite(space, a, len(bs), bs)`. -/
def Memory.writeList (m : Memory) (a : Nat) : List Byte → Memory
  | [] => m
  | b :: bs => Memory.writeList (m.write a b) (a + 1) bs

/-- The canonical form: indexes strictly rising, no entry equal to what an unlisted index reads as. -/
abbrev Memory.wf (m : Memory) : Prop :=
  m.Pairwise (fun c d => c.1 < d.1) ∧ ∀ c ∈ m, c.2 ≠ Memory.fill

/-- `OPROM[i] = 0x10 + i`, i from 0 to 9, read-only (10_state.md R29; log 17). -/
def oprom : Memory :=
  [(0, 0x10), (1, 0x11), (2, 0x12), (3, 0x13), (4, 0x14), (5, 0x15), (6, 0x16), (7, 0x17),
   (8, 0x18), (9, 0x19)]

/-- The opcode of selector `s`: `MemRead(OPROM, s - 1, 1)` (42_command_protocol.md R141). -/
def opcodeOf (sel : BitVec 4) : Byte := oprom.read (sel.toNat - 1)

/-! ### The CRC unit's registers (40_crc32_engine.md R101 to R103, R113) -/

/-- Seed (R101). -/
def State.crcSeed (s : State) : State := { s with acc := crcParams.seed, bitcnt := 0 }

/-- Inject (R102). -/
def State.crcInject (b : Byte) (s : State) : State :=
  { s with acc := Machine.crcInject crcParams s.acc b, bitcnt := BitVec.ofNat 6 crcParams.stepsPerByte }

/-- Bit step (R103). -/
def State.crcBitStep (s : State) : State :=
  { s with acc := crcShift crcParams s.acc, bitcnt := s.bitcnt - 1 }

/-! ### Kinds of states and of endings -/

/-- The three states in which a byte is awaited (43_protocol_sequencer.md R180). -/
def Fsm.receiving : Fsm → Bool
  | .rxStatus => true
  | .rxLen => true
  | .rxData => true
  | _ => false

/-- The three states in which bytes are sent (R180). -/
def Fsm.sending : Fsm → Bool
  | .txLen => true
  | .txPayload => true
  | .txCrc => true
  | _ => false

/-- The two endings that break an exchange off (60_exceptions.md R224, R225). -/
def Status.breaksOff : Status → Bool
  | .transport => true
  | .noResponse => true
  | _ => false

/-! ### The pins of the current step -/

/-- The pins of the step now being made. -/
def State.now (s : State) : Stim := s.script.headD s.restPins

/-- The pins are quiet from here on, without end. -/
abbrev Quiet (s : State) : Prop := s.script = [] ∧ s.restPins = Stim.quiet

/-- What the receive side holds at the end of a step, before what arrives in it: what it held, but that
in `IDLE` the link adapter may have made it anything (70_reset_and_hazards.md R251, R256; log 22). -/
def State.rxKept (s : State) : List Byte :=
  if s.fsm = .idle then s.now.rxHolds.getD s.rx else s.rx

/-- Where the target was last brought to a frame boundary, at the end of a step (log 22). -/
def State.boundaryKept (s : State) : Option Nat :=
  if s.fsm = .idle ∧ s.now.restored = true then some s.tx.length else s.boundary

/-- The pins move on to the next step; what arrived in this one waits on the receive side (log 14). -/
def State.advance (s : State) : State :=
  { s with script := s.script.tail, rx := s.rxKept ++ s.now.arrive, boundary := s.boundaryKept }

/-- `rx_valid` with `rx_data` (10_state.md R30). -/
def State.rxOffered (s : State) : Option Byte := if s.now.rxOffer then s.rx.head? else none

/-- `cmd_valid` (10_state.md R23). -/
def State.cmdValid (s : State) : Bool := s.now.cmdOffer && !s.host.isEmpty

/-- The descriptor inputs `d_*` (10_state.md R23). With no command left the inputs are 0. -/
def State.portDescriptor (s : State) : Descriptor :=
  match s.host with
  | c :: _ => c.desc
  | [] => Descriptor.zero

/-! ### Taking a failure, and returning (60_exceptions.md R226, R231) -/

/-- `raise <Status>(info)` (R226): the status and, for `LOCAL_VALIDATION`, the sub-cause; no typed
result is written; `tx_valid <- 0`; the sequencer goes to `DONE`, in which `rx_ready = 0`. Nothing is
saved, because nothing will be resumed. An ending that breaks an exchange off leaves the target's place
unknown (log 22). -/
def State.raise (st : Status) (info : Subcause) (s : State) : State :=
  { s with status := st, subcause := (if st = .localValidation then info else .none),
           txOffer := none, fsm := .done,
           boundary := if st.breaksOff then none else s.boundary }

/-- A command that ran to its end: `status <- OK`, `fsm <- DONE` (43_protocol_sequencer.md R189). -/
def State.finish (s : State) : State := { s with status := .ok, fsm := .done }

/-- `DONE` (43_protocol_sequencer.md R191), the return: the result is presented and the engine is in
`IDLE`, ready for the next command with no clearing step (60_exceptions.md R231). -/
def State.presentResult (s : State) : State :=
  { s with resValid := true, busy := false, fsm := .idle }

/-- The chunk event is a one-step pulse (10_state.md R25): the next step lowers it (log 12). -/
def State.lowerPulse (s : State) : State := { s with chunkEvt := none }

/-! ### The link (20_memory.md R44, R45) -/

/-- The end of `TxByte(b)`: the byte passes to the link (R44). -/
def State.linkTakes (b : Byte) (s : State) : State := { s with tx := s.tx ++ [b], txOffer := none }

/-- The end of `RxByte()`: the byte leaves the receive side (R45); the next wait starts with the timer
at 0 (60_exceptions.md R225). -/
def State.takeByte (s : State) : State := { s with rx := s.rx.tail, tmo := 0 }

/-- A step of `RxByte()` in which no byte comes: without `RX_TIMEOUT` nothing changes
(43_protocol_sequencer.md R193); with it the timer counts the time units that pass, and reaching the
parameter ends the command with `NO_RESPONSE` (60_exceptions.md R225; log 7). -/
def State.waitForByte (s : State) : State :=
  match s.params.rxTimeout with
  | none => s
  | some t =>
    if s.now.timeUnit then
      if t ≤ s.tmo + 1 then State.raise .noResponse .none { s with tmo := s.tmo + 1 }
      else { s with tmo := s.tmo + 1 }
    else s

/-- `link_err = 1` wins over whatever else the step would have done (43_protocol_sequencer.md R192,
60_exceptions.md R229). -/
def linkGuard (k : State → Host.Outcome State Fault Refusal) (s : State) :
    Host.Outcome State Fault Refusal :=
  if s.now.linkErr then .next (State.raise .transport .none s) else k s

/-- One step of `RxByte()` in an `RX_*` state: `got` says what is done with the byte, on the state in
which it has left the receive side. -/
def receive (got : Byte → State → Host.Outcome State Fault Refusal) (s : State) :
    Host.Outcome State Fault Refusal :=
  match s.rxOffered with
  | some b => got b s.takeByte
  | none => .next s.waitForByte

/-- One step of "absorb `b` and send it" (41_frame_codec.md R124), in that order: inject; 32 bit steps,
the last of which puts `b` on offer; then wait until the link takes it. `taken` is what follows the
taking (log 1). -/
def absorbAndSend (b : Byte) (taken : State → State) (s : State) : State :=
  if s.bitcnt ≠ 0 then
    if s.bitcnt = 1 then { s.crcBitStep with txOffer := some b } else s.crcBitStep
  else
    match s.txOffer with
    | none => s.crcInject b
    | some o => if s.now.txReady then taken (s.linkTakes o) else s

/-- One step of `TxByte(b)` with no CRC, for the trailer (41_frame_codec.md R123). -/
def sendOnly (b : Byte) (taken : State → State) (s : State) : State :=
  match s.txOffer with
  | none => { s with txOffer := some b }
  | some o => if s.now.txReady then taken (s.linkTakes o) else s

/-! ### Reset in mid-run (70_reset_and_hazards.md R250, R251) -/

/-- `rst = 1` at a clock edge: every register of the engine takes its reset value (10_state.md R33);
`IMG`, the link's two streams, the host, the pins and the parameters are not the engine's. What the
receive side holds afterwards is the link adapter's (`State.rxKept`), and a reset that breaks an exchange
off leaves the target's place unknown (log 22). -/
def State.resetEngine (s : State) : State :=
  { State.reset with img := s.img, rx := s.rx, tx := s.tx, host := s.host, script := s.script,
                     restPins := s.restPins, params := s.params,
                     boundary := if s.fsm.sending || s.fsm.receiving then none else s.boundary }

end Sys2Proof.Machine
end

