-- ==== Sys2Proof/Machine/Operands.lean ====
section
/-! DEFINITION. Operands: which descriptor fields a command reads (42_command_protocol.md R143 to R152,
R158), the payload fields it builds from them (30_encoding.md R76 to R84), and the chunk arithmetic of
a transfer (44_transfer_session.md R201, R202). -/

namespace Sys2Proof

/-- The command a descriptor selects, with the operands its rule names; none for the selectors 0 and
11 to 15 (30_encoding.md R87). -/
def Machine.Descriptor.instr? (d : Machine.Descriptor) : Option Instr :=
  match d.sel.toNat with
  | 1 => some .getVersion
  | 2 => some .getHelp
  | 3 => some .getChipId
  | 4 => some .getRdpStatus
  | 5 => some (.goToAddress d.addrLen d.addr)
  | 6 => some (.eraseFlash d.page d.count)
  | 7 => some (.memWrite d.page d.imgLen)
  | 8 => some (.memRead d.addrLen d.addr d.rdLen)
  | 9 => some (.jumpToApp d.page)
  | 10 => some (.changeRdpLevel d.level)
  | _ => none

/-- A descriptor that selects `i` with its operands; the fields the command does not name stay as
they are on the port (R158). -/
def Instr.latch (i : Instr) (d : Machine.Descriptor) : Machine.Descriptor :=
  match i with
  | .getVersion => { d with sel := 1 }
  | .getHelp => { d with sel := 2 }
  | .getChipId => { d with sel := 3 }
  | .getRdpStatus => { d with sel := 4 }
  | .goToAddress addrLen addr => { d with sel := 5, addrLen := addrLen, addr := addr }
  | .eraseFlash page count => { d with sel := 6, page := page, count := count }
  | .memWrite page imgLen => { d with sel := 7, page := page, imgLen := imgLen }
  | .memRead addrLen addr rdLen => { d with sel := 8, addrLen := addrLen, addr := addr, rdLen := rdLen }
  | .jumpToApp page => { d with sel := 9, page := page }
  | .changeRdpLevel level => { d with sel := 10, level := level }

namespace Machine

/-- `nchunks = ceil(c_img_len / 1024)` (44_transfer_session.md R201). -/
def chunkCount (imgLen : Nat) : Nat := (imgLen + 1023) / 1024

/-- No page of the transfer passes 127: "A model should refuse a MemWrite host command with
`c_page + nchunks > 128`" (44_transfer_session.md R209, 93_implementation_defined.md U2; log 8). -/
abbrev MemWriteAdmitted (page : Byte) (imgLen : Nat) : Prop :=
  page.toNat + chunkCount imgLen ≤ Config.pageCount

/-- `clen` of chunk `j`: `min(1024, c_img_len - 1024*j)` (R200, R202). -/
def chunkLength (imgLen j : Nat) : Nat := min Config.chunkMax (imgLen - Config.chunkMax * j)

/-- Chunk `j` of the image (R201). -/
def chunkBytes (img : Memory) (imgLen j : Nat) : List Byte :=
  img.readList (Config.chunkMax * j) (chunkLength imgLen j)

/-- The payload of `MemWrite.chunk(page, C)` (R149): opcode, page, `le16(clen)`, the chunk. -/
def chunkPayload (page : Byte) (chunk : List Byte) : List Byte :=
  opcodeOf 7 :: page :: (le16 (BitVec.ofNat 16 chunk.length) ++ chunk)

/-- `RDV` (R150): the received bytes `RXB[0..data_len-1]` in reverse. -/
def readDataView (s : State) : List Byte := (s.rxb.readList 0 s.dataLen.toNat).reverse

end Machine

end Sys2Proof
end

