-- ==== Sys2Proof/Machine/Flags.lean ====
section
/-! DEFINITION. Status and flag computations: the codes of 60_exceptions.md R221 and R222, local
validation (42_command_protocol.md R142), and the final report of a transfer (44_transfer_session.md
R208). There are no arithmetic condition codes (10_state.md section 4). -/

namespace Sys2Proof.Machine

/-- The 3-bit code of a status (R221); 7 is never produced. -/
def Status.code : Status → BitVec 3
  | .ok => 0
  | .nack => 1
  | .localValidation => 2
  | .transport => 3
  | .noResponse => 4
  | .shortResponse => 5
  | .helpOverflow => 6

/-- The 2-bit code of a sub-cause (R222). -/
def Subcause.code : Subcause → BitVec 2
  | .none => 0
  | .badSelector => 1
  | .badParam => 2
  | .badAddrLen => 3

/-- Local validation on the latched descriptor (R142): the sub-cause of the first test that fails. -/
def validate (d : Descriptor) : Option Subcause :=
  if d.sel = 0 ∨ 10 < d.sel.toNat then some .badSelector
  else if d.paramBad then some .badParam
  else if (d.sel = 5 ∨ d.sel = 8) ∧ d.addrLen ≠ 4 then some .badAddrLen
  else none

/-- `status` at the end of a transfer (R208): `OK` when no chunk was refused, else `NACK`. -/
def transferStatus (failures : Byte) : Status := if failures = 0 then .ok else .nack

/-- Bit `j` of a fail map, set (44_transfer_session.md R203). -/
def setFailBit (m : BitVec 128) (j : Nat) : BitVec 128 := m ||| (1#128 <<< j)

/-- The fail map as a number of refused chunks: how many of its 128 bits are set (R212). -/
def failBits (m : BitVec 128) : Nat := ((List.range 128).filter (fun j => m.getLsbD j)).length

/-- The level GetRdpStatus reports (R146): 1 for the byte 0x00, 0 for every other. -/
def reportedLevel (b : Byte) : BitVec 1 := if b = 0x00 then 1 else 0

end Sys2Proof.Machine
end

