-- ==== Sys2Proof/Machine/Sequencer.lean ====
section
/-! DEFINITION. The sequencer's steps, one definition for each state of 43_protocol_sequencer.md R180,
and `runCommand`, which puts together the ones of a host command. -/

namespace Sys2Proof.Machine

/-- The result of one step of an instruction. -/
abbrev Result := Host.Outcome State Fault Refusal

/-- What is a command's own in the sequencer's work: how its descriptor is latched, what is set up once
validation has passed, how its payload is built, and what is done with its response. -/
structure Command where
  /-- The latched descriptor, from the one on the port (R181). -/
  latch : Descriptor → Descriptor
  /-- After validation has passed (R181). -/
  setUp : State → Result
  /-- The step `MARSHAL` (R182). -/
  marshal : State → Result
  /-- The step `DECODE` (R189). -/
  decode : State → State

/-! ### IDLE: accept (R181) -/

/-- The registers an accept writes before validation (R181): the whole descriptor is copied; the
result of the command before is cleared, and for MemWrite the report (10_state.md R21; log 21). The
command leaves the host's hands. -/
def acceptDescriptor (d : Descriptor) (s : State) : State :=
  { s with desc := d, busy := true, resValid := false, status := .ok, subcause := .none,
           ack := false, stByte := 0x00, dataLen := 0, host := s.host.tail,
           xferAttempts := if d.sel = 7 then 0 else s.xferAttempts,
           xferFailures := if d.sel = 7 then 0 else s.xferFailures,
           xferFailMap := if d.sel = 7 then 0 else s.xferFailMap }

/-- Accept a descriptor and validate it (R181, 42_command_protocol.md R142). -/
def accept (latch : Descriptor → Descriptor) (setUp : State → Result) (s : State) : Result :=
  let s1 := acceptDescriptor (latch s.portDescriptor) s
  match validate s1.desc with
  | some cause => .next (State.raise .localValidation cause s1)
  | none => setUp s1

/-- What a command other than MemWrite does once validated: `fsm <- MARSHAL` (R181). -/
def toMarshal (s : State) : Result := .next { s with fsm := .marshal }

/-- MemWrite's set-up (R181; the first three lines of 44_transfer_session.md R200). An image longer
than `IMAGE_MAX` is none the port carries (log 9); a transfer past page 127 is refused (R209; log 8). -/
def transferSetUp (page : Byte) (imgLen : BitVec 18) (s : State) : Result :=
  if Config.imageMax < imgLen.toNat then .refused .imageBeyondMax
  else if ¬ MemWriteAdmitted page imgLen.toNat then .refused .pagesBeyondLast
  else
    let n := chunkCount imgLen.toNat
    .next { s with nchunks := BitVec.ofNat 8 n, curPage := page, k := 0,
                   xferAttempts := 0, xferFailures := 0, xferFailMap := 0,
                   fsm := if n = 0 then .done else .marshal }

/-! ### MARSHAL (R182) -/

/-- Put a payload into `PB` and start its frame: `plen`, `flen`, the CRC seed, `idx` (R182). -/
def loadPayload (payload : List Byte) (s : State) : State :=
  { s.crcSeed with pb := s.pb.writeList 0 payload,
                   plen := BitVec.ofNat 11 payload.length,
                   flen := frameLength payload,
                   idx := 0, fsm := .txLen }

/-- `MARSHAL` of a command whose payload is known from its operands. -/
def marshalPayload (payload : List Byte) (s : State) : Result := .next (loadPayload payload s)

/-- `MARSHAL` of MemWrite: chunk `k` read from `IMG`, page `cur_page` (R182, 44_transfer_session.md
R202). -/
def marshalChunk (imgLen : BitVec 18) (s : State) : Result :=
  let n := chunkLength imgLen.toNat s.k.toNat
  if Config.chunkMax * s.k.toNat + n ≤ Config.imageMax then
    .next (loadPayload (chunkPayload s.curPage (chunkBytes s.img imgLen.toNat s.k.toNat))
      { s with clen := BitVec.ofNat 11 n })
  else .fault .noSuchByte

/-! ### TX_LEN, TX_PAYLOAD, TX_CRC (R183 to R185) -/

/-- A prefix byte has been taken (R183): after the second, the payload is next. -/
def prefixTaken (s : State) : State :=
  if s.idx.toNat + 1 < 2 then { s with idx := s.idx + 1 } else { s with idx := 0, fsm := .txPayload }

/-- `TX_LEN` (R183): the two prefix bytes, absorbed and sent. -/
def txLenStep (s : State) : Result :=
  .next (absorbAndSend (byteOfHalf s.flen s.idx.toNat) prefixTaken s)

/-- A payload byte has been taken (R184). -/
def payloadTaken (s : State) : State := { s with idx := s.idx + 1 }

/-- `TX_PAYLOAD` (R184): while `idx < plen` the byte `PB[idx]` is absorbed and sent; when `idx = plen`
and `bitcnt = 0` the trailer is next. -/
def txPayloadStep (s : State) : Result :=
  if s.idx < s.plen then
    if s.idx.toNat < Config.payloadMax then
      .next (absorbAndSend (s.pb.read s.idx.toNat) payloadTaken s)
    else .fault .noSuchByte
  else if s.bitcnt = 0 then .next { s with idx := 0, fsm := .txCrc }
  else .next s.crcBitStep

/-- A trailer byte has been taken (R185): after the fourth the response is awaited, with the timer at 0
(60_exceptions.md R225). -/
def trailerTaken (s : State) : State :=
  if s.idx.toNat + 1 < 4 then { s with idx := s.idx + 1 }
  else { s with idx := 0, tmo := 0, fsm := .rxStatus }

/-- `TX_CRC` (R185): the four bytes of `acc`, low byte first. -/
def txCrcStep (s : State) : Result :=
  .next (sendOnly (byteOfWord s.acc s.idx.toNat) trailerTaken s)

/-! ### RX_STATUS, RX_LEN, RX_DATA (R186 to R188) -/

/-- `RX_STATUS` once its byte has come (R186). -/
def gotStatus (b : Byte) (s : State) : Result :=
  if b = ackByte then .next { s with stByte := b, fsm := .rxLen }
  else .next { s with stByte := b, ack := false, dataLen := 0, fsm := .decode }

/-- `RX_LEN` once its byte has come (R187). -/
def gotLength (b : Byte) (s : State) : Result :=
  .next { s with dataLen := b, ack := true, idx := 0, fsm := if b = 0 then .decode else .rxData }

/-- `RX_DATA` once its byte has come (R188). `RXB` has 255 bytes. -/
def gotData (b : Byte) (s : State) : Result :=
  if s.idx.toNat < Config.respDataMax then
    .next { s with rxb := s.rxb.write s.idx.toNat b, idx := s.idx + 1,
                   fsm := if s.idx.toNat + 1 < s.dataLen.toNat then .rxData else .decode }
  else .fault .noSuchByte

/-! ### DECODE (R189) -/

/-- `DECODE` of a command other than MemWrite (R189): a refused response is `NACK` and nothing is
decoded (42_command_protocol.md R153); an acknowledged one is decoded. -/
def decodeWith (onAck : State → State) (s : State) : State :=
  if s.ack then onAck s else State.raise .nack .none s

/-- A decode that uses `n` data bytes: fewer is `SHORT_RESPONSE` (R154); more are ignored (R155). -/
def needsData (n : Nat) (use : State → State) (s : State) : State :=
  if s.dataLen.toNat < n then State.raise .shortResponse .none s else (use s).finish

/-- The decode of a command with "none beyond ack" (R156): the data bytes are not used. -/
def noDecode (s : State) : State := s.finish

/-! ### NEXT_CHUNK (R190, 44_transfer_session.md R203) -/

/-- The outcome of chunk `k` recorded, the event pulsed, page and index advanced, in R203's order. -/
def recordChunk (s : State) : State :=
  { s with xferAttempts := s.xferAttempts + 1,
           xferFailures := if s.ack then s.xferFailures else s.xferFailures + 1,
           xferFailMap := if s.ack then s.xferFailMap else setFailBit s.xferFailMap s.k.toNat,
           chunkEvt := some { index := s.k, page := s.curPage, ok := s.ack },
           curPage := s.curPage + 1,
           k := s.k + 1 }

/-- The transfer goes on to another chunk (R190): one is left, and the fail-stop policy does not end it
(44_transfer_session.md R207). `s` is the state before the chunk is recorded. -/
def moreChunks (s : State) : Bool :=
  (recordChunk s).k < s.nchunks && !(s.params.xferFailStop && !s.ack)

/-- `NEXT_CHUNK` (R190). -/
def nextChunkStep (s : State) : State :=
  if moreChunks s then { recordChunk s with fsm := .marshal }
  else { recordChunk s with status := transferStatus (recordChunk s).xferFailures, fsm := .done }

/-! ### A host command's step -/

/-- One step of a host command: accept it in `IDLE`, then what the sequencer's state says (R194). -/
def runCommand (c : Command) (s : State) : Result :=
  match s.fsm with
  | .idle => accept c.latch c.setUp s.lowerPulse
  | .marshal => c.marshal s.lowerPulse
  | .txLen => linkGuard txLenStep s.lowerPulse
  | .txPayload => linkGuard txPayloadStep s.lowerPulse
  | .txCrc => linkGuard txCrcStep s.lowerPulse
  | .rxStatus => linkGuard (receive gotStatus) s.lowerPulse
  | .rxLen => linkGuard (receive gotLength) s.lowerPulse
  | .rxData => linkGuard (receive gotData) s.lowerPulse
  | .decode => .next (c.decode s.lowerPulse)
  | .nextChunk => .next (nextChunkStep s.lowerPulse)
  | .done => .next s.lowerPulse.presentResult

/-- A command that is one exchange (42_command_protocol.md R140): latched as `i`, with this payload and
this decode. -/
def oneExchange (i : Instr) (payload : List Byte) (onAck : State → State) : Command :=
  { latch := i.latch, setUp := toMarshal, marshal := marshalPayload payload, decode := decodeWith onAck }

end Sys2Proof.Machine
end

