-- ==== Sys2Proof/Machine/Addressed.lean ====
section
/-! DEFINITION. The two commands with an address, formats `A` and `AL` (42_command_protocol.md R147,
R150). A descriptor whose `c_addr_len` is not 4 is rejected at accept (R142). -/

namespace Sys2Proof.Machine

/-- GoToAddress (R147). The engine drains no text after the response. -/
def execGoToAddress (addrLen : BitVec 4) (addr : AddrBytes) (s : State) : Result :=
  runCommand (oneExchange (.goToAddress addrLen addr) (opcodeOf 5 :: addrField addr) noDecode) s

/-- MemRead (R150). Its result `RDV` is a view of `RXB` (`readDataView`), so nothing is written. -/
def execMemRead (addrLen : BitVec 4) (addr : AddrBytes) (rdLen : Word) (s : State) : Result :=
  runCommand
    (oneExchange (.memRead addrLen addr rdLen) (opcodeOf 8 :: (addrField addr ++ le32 rdLen)) noDecode) s

end Sys2Proof.Machine
end

