-- ==== Sys2Proof/Machine/Control.lean ====
section
/-! DEFINITION. The one-byte commands, format `B` (42_command_protocol.md R151, R152, R159). -/

namespace Sys2Proof.Machine

/-- JumpToApp (R151). -/
def execJumpToApp (page : Byte) (s : State) : Result :=
  runCommand (oneExchange (.jumpToApp page) [opcodeOf 9, page] noDecode) s

/-- ChangeRdpLevel (R152): the byte 0xA5 for level 0, 0x00 for level 1. -/
def execChangeRdpLevel (level : BitVec 1) (s : State) : Result :=
  runCommand (oneExchange (.changeRdpLevel level) [opcodeOf 10, levelByte level] noDecode) s

end Sys2Proof.Machine
end

