-- ==== Sys2Proof/Machine/Flash.lean ====
section
/-! DEFINITION. The flash commands: EraseFlash, format `BB`, and MemWrite, the chunked transfer, format
`W` (42_command_protocol.md R148, R149; 44_transfer_session.md R200). -/

namespace Sys2Proof.Machine

/-- EraseFlash (R148). -/
def execEraseFlash (page count : Byte) (s : State) : Result :=
  runCommand (oneExchange (.eraseFlash page count) [opcodeOf 6, page, count] noDecode) s

/-- After a chunk's exchange, whatever its outcome: `fsm <- NEXT_CHUNK` (43_protocol_sequencer.md R189). -/
def toNextChunk (s : State) : State := { s with fsm := .nextChunk }

/-- MemWrite (R149, R200): one exchange per chunk. -/
def execMemWrite (page : Byte) (imgLen : BitVec 18) (s : State) : Result :=
  runCommand { latch := (Instr.memWrite page imgLen).latch, setUp := transferSetUp page imgLen,
               marshal := marshalChunk imgLen, decode := toNextChunk } s

end Sys2Proof.Machine
end

