-- ==== Sys2Proof/Machine/Queries.lean ====
section
/-! DEFINITION. The four query commands, format `N` (42_command_protocol.md R143 to R146). -/

namespace Sys2Proof.Machine

/-- GetVersion's result registers (R143). -/
def takeVersion (s : State) : State :=
  { s with verVendor := s.rxb.read 0, verMajor := s.rxb.read 1, verMinor := s.rxb.read 2,
           verPatch := s.rxb.read 3 }

/-- GetVersion (R143). -/
def execGetVersion (s : State) : Result :=
  runCommand (oneExchange .getVersion [opcodeOf 1] (needsData 4 takeVersion)) s

/-- GetHelp's decode (R144): more than 10 entries are refused as a whole; the entries stay in `RXB`. -/
def decodeHelp (s : State) : State :=
  if 10 < s.dataLen.toNat then State.raise .helpOverflow .none s
  else State.finish { s with helpCount := s.dataLen.setWidth 4 }

/-- GetHelp (R144). -/
def execGetHelp (s : State) : Result :=
  runCommand (oneExchange .getHelp [opcodeOf 2] decodeHelp) s

/-- GetChipId's result register (R145): first byte low. -/
def takeChipId (s : State) : State := { s with chipId := half16 (s.rxb.read 0) (s.rxb.read 1) }

/-- GetChipId (R145). -/
def execGetChipId (s : State) : Result :=
  runCommand (oneExchange .getChipId [opcodeOf 3] (needsData 2 takeChipId)) s

/-- GetRdpStatus's result register (R146): the inverted convention of R157. -/
def takeRdpStatus (s : State) : State := { s with rdpRep := reportedLevel (s.rxb.read 0) }

/-- GetRdpStatus (R146). -/
def execGetRdpStatus (s : State) : Result :=
  runCommand (oneExchange .getRdpStatus [opcodeOf 4] (needsData 1 takeRdpStatus)) s

end Sys2Proof.Machine
end

