-- ==== Sys2Proof/Machine/Dispatch.lean ====
section
/-! DEFINITION. One arm for each instruction. `exec i s` is the step the engine makes in state `s` when
`i` is the command on its port (in `IDLE`) or the command it is running (in any other state). -/

namespace Sys2Proof.Machine

def exec (i : Instr) (s : State) : Host.Outcome State Fault Refusal :=
  match i with
  | .getVersion => Sys2Proof.Machine.execGetVersion s
  | .getHelp => Sys2Proof.Machine.execGetHelp s
  | .getChipId => Sys2Proof.Machine.execGetChipId s
  | .getRdpStatus => Sys2Proof.Machine.execGetRdpStatus s
  | .goToAddress addrLen addr => Sys2Proof.Machine.execGoToAddress addrLen addr s
  | .eraseFlash page count => Sys2Proof.Machine.execEraseFlash page count s
  | .memWrite page imgLen => Sys2Proof.Machine.execMemWrite page imgLen s
  | .memRead addrLen addr rdLen => Sys2Proof.Machine.execMemRead addrLen addr rdLen s
  | .jumpToApp page => Sys2Proof.Machine.execJumpToApp page s
  | .changeRdpLevel level => Sys2Proof.Machine.execChangeRdpLevel level s

end Sys2Proof.Machine
end

