-- ==== Sys2Proof/Machine/Fetch.lean ====
section
/-! DEFINITION. Where the next instruction comes from: the command port in `IDLE`, the latched
descriptor in every other state (10_state.md R16: the block has no program counter). -/

namespace Sys2Proof.Machine

/-- The image the host has written before it presents the command (70_reset_and_hazards.md R252; log
15): `IMG[i]` is byte `i` of it. `IMG` has `IMAGE_MAX` bytes. -/
def State.hostWritesImage (s : State) : State :=
  match s.host with
  | { desc := _, image := some bytes } :: _ =>
    { s with img := s.img.writeList 0 (bytes.take Config.imageMax) }
  | _ => s

/-- Accept a descriptor whose selector names no command: latched, validated, rejected with
`BadSelector` (30_encoding.md R87; 43_protocol_sequencer.md R181). -/
def acceptNoCommand (s : State) : Result := accept id toMarshal s.lowerPulse

/-- The step in `IDLE` with `cmd_valid = 1`. -/
def runPort (s : State) : Result :=
  match s.portDescriptor.instr? with
  | some i => exec i s
  | none => acceptNoCommand s

/-- The step in a state other than `IDLE`: the latched command goes on. A descriptor whose selector
names no command is only ever in `DONE` (43_protocol_sequencer.md R181, R194). -/
def runLatched (s : State) : Result :=
  match s.desc.instr? with
  | some i => exec i s
  | none => if s.fsm = .done then .next s.lowerPulse.presentResult else .fault .unlistedState

/-- The engine's step, without reset: `IDLE` with `cmd_valid = 0` changes nothing (R181, R197). -/
def cycle (s : State) : Result :=
  if s.fsm = .idle then
    if s.cmdValid then runPort s.hostWritesImage else .next s
  else runLatched s

/-- What the step makes of the engine's result: the pins move on. -/
def thenAdvance : Result → Result
  | .next s => .next s.advance
  | .fault r => .fault r
  | .refused r => .refused r

/-- The command a row's word stands for, as the host presents it: the descriptor of the decoded
payload, with the payload's raw bytes as the image. A word that decodes to nothing is presented as
selector 0, which selects no command (log 18). -/
def commandOfTableWord (nbits w : Nat) : HostCommand :=
  match decodeTableFront nbits w with
  | some d => { desc := d.instr.latch Descriptor.zero, image := some d.chunk }
  | none => { desc := Descriptor.zero, image := none }

/-- The engine at rest with a command on its port and quiet pins, so that the next step accepts it. -/
def State.presenting (c : HostCommand) (s : State) : State :=
  { s with fsm := .idle, busy := false, host := c :: s.host, script := Stim.quiet :: s.script }

end Sys2Proof.Machine
end

