-- ==== Sys2Proof/Machine/Step.lean ====
section
/-! DEFINITION. One step of the machine: reset, or the engine's cycle; then the pins move on. -/

namespace Sys2Proof.Machine

/-- One step (10_state.md R10, R22): with `rst = 1` every register of the engine is reset
(70_reset_and_hazards.md R250), else the sequencer makes one step (43_protocol_sequencer.md R194). -/
def step (s : State) : Host.Outcome State Fault Refusal :=
  if s.now.rst then .next s.resetEngine.advance else thenAdvance (cycle s)

/-- `s` with a row's word where the machine takes its next instruction: on the command port (log 5). -/
def State.withFetchWord (s : State) (nbits w : Nat) : State :=
  s.presenting (commandOfTableWord nbits w)

end Sys2Proof.Machine
end

