-- ==== Sys2Proof/Machine/CommandLine.lean ====
section
/-! DEFINITION. The textual syntax of host commands (30_encoding.md R93), as a tree and not as text:
what each form sets in the descriptor, and the image it writes to `IMG`. -/

namespace Sys2Proof.Machine

/-- The forms of R93. `bad` is the form `<mnemonic> !bad ...`. -/
inductive CommandLine where
  | getVersion
  | getHelp
  | getChipId
  | getRdpStatus
  | goToAddress (entered : List Byte)
  | eraseFlash (page count : Byte)
  | memWrite (page : Byte) (image : List Byte)
  | memRead (entered : List Byte) (length : Word)
  | jumpToApp (page : Byte)
  | changeRdpLevel (level : BitVec 1)
  | select (sel : BitVec 4)
  | bad (line : CommandLine)
  deriving DecidableEq, Repr

/-- The address fields for `m` entered bytes, `d_addr[i] = bi`; the bytes that were not entered are 0
and ignored (10_state.md R23). DESIGN CHOICE (log 20): of more than `ADDR_IN_MAX` entered bytes the port
carries the first 8 and the count 8, so the command is rejected like every other count that is not 4. -/
def withEntered (d : Descriptor) (bs : List Byte) : Descriptor :=
  { d with addrLen := BitVec.ofNat 4 (min Config.addrInMax bs.length),
           addr := ⟨bs.getD 0 0, bs.getD 1 0, bs.getD 2 0, bs.getD 3 0⟩,
           addrRest := ⟨bs.getD 4 0, bs.getD 5 0, bs.getD 6 0, bs.getD 7 0⟩ }

/-- `d_img_len` for an image of `n` bytes. DESIGN CHOICE (log 20): for a length that 18 bits do not hold
the port carries the largest that they do, which is past `IMAGE_MAX`, so MemWrite is refused (log 9). -/
def imageLength (n : Nat) : BitVec 18 := BitVec.ofNat 18 (min (2 ^ 18 - 1) n)

/-- What the host puts on its port for a form of the syntax (R93). -/
def CommandLine.command : CommandLine → HostCommand
  | .getVersion => { desc := { Descriptor.zero with sel := 1 }, image := none }
  | .getHelp => { desc := { Descriptor.zero with sel := 2 }, image := none }
  | .getChipId => { desc := { Descriptor.zero with sel := 3 }, image := none }
  | .getRdpStatus => { desc := { Descriptor.zero with sel := 4 }, image := none }
  | .goToAddress bs => { desc := withEntered { Descriptor.zero with sel := 5 } bs, image := none }
  | .eraseFlash page count =>
    { desc := { Descriptor.zero with sel := 6, page := page, count := count }, image := none }
  | .memWrite page image =>
    { desc := { Descriptor.zero with sel := 7, page := page, imgLen := imageLength image.length },
      image := some image }
  | .memRead bs length =>
    { desc := withEntered { Descriptor.zero with sel := 8, rdLen := length } bs, image := none }
  | .jumpToApp page => { desc := { Descriptor.zero with sel := 9, page := page }, image := none }
  | .changeRdpLevel level =>
    { desc := { Descriptor.zero with sel := 10, level := level }, image := none }
  | .select sel => { desc := { Descriptor.zero with sel := sel }, image := none }
  | .bad line =>
    let c := line.command
    { c with desc := { c.desc with paramBad := true } }

end Sys2Proof.Machine
end

