-- ==== Sys2Proof/Machine/Ports.lean ====
section
/-! DEFINITION. The output ports (10_state.md R23 to R25, R30): what the host and the link see of a
state. A result field outside its "meaningful when" condition holds no value (R24,
93_implementation_defined.md U3), so reading it here answers `none`, never a number. -/

namespace Sys2Proof.Machine

/-- `cmd_ready` (R23): equals `fsm = IDLE`. -/
def State.cmdReady (s : State) : Bool := s.fsm == .idle

/-- `tx_valid` (R30). -/
def State.txValid (s : State) : Bool := s.txOffer.isSome

/-- `rx_ready` (R30; 20_memory.md R45): 1 in the `RX_*` states and 0 in every other. -/
def State.rxReady (s : State) : Bool := s.fsm.receiving

/-- `status` (R24). -/
def State.statusOut (s : State) : Option Status := if s.resValid then some s.status else none

/-- `subcause` (R24). -/
def State.subcauseOut (s : State) : Option Subcause :=
  if s.resValid && s.status == .localValidation then some s.subcause else none

/-- `ack`, `st_byte`, `data_len` and `RXB` hold a response: at least one exchange was made (R24), and
none has started since the last response was read (R34), so not after a command that ended inside an
exchange (log 19). -/
def State.responseHeld (s : State) : Bool :=
  match s.status with
  | .localValidation => false
  | .transport => false
  | .noResponse => false
  | .ok => s.desc.sel != 7 || s.xferAttempts != 0
  | .nack => s.desc.sel != 7 || s.xferAttempts != 0
  | .shortResponse => s.desc.sel != 7 || s.xferAttempts != 0
  | .helpOverflow => s.desc.sel != 7 || s.xferAttempts != 0

/-- `ack` (R24). -/
def State.ackOut (s : State) : Option Bool :=
  if s.resValid && s.responseHeld then some s.ack else none

/-- `st_byte` (R24). -/
def State.stByteOut (s : State) : Option Byte :=
  if s.resValid && s.responseHeld then some s.stByte else none

/-- `data_len` (R24). -/
def State.dataLenOut (s : State) : Option Byte :=
  if s.resValid && s.responseHeld then some s.dataLen else none

/-- `RXB[i]` (R24, R27): meaningful for `i < data_len` of an acknowledged response. -/
def State.rxbOut (s : State) (i : Nat) : Option Byte :=
  if s.resValid && s.responseHeld && s.ack && i < s.dataLen.toNat then some (s.rxb.read i) else none

/-- `RXB[0 .. data_len - 1]` (R24). -/
def State.dataOut (s : State) : Option (List Byte) :=
  if s.resValid && s.responseHeld && s.ack then some (s.rxb.readList 0 s.dataLen.toNat) else none

/-- A typed result of selector `sel` is meaningful (R24): `status = OK` and `c_sel = sel`. -/
def State.typedReady (s : State) (sel : BitVec 4) : Bool :=
  s.resValid && s.status == .ok && s.desc.sel == sel

/-- GetVersion's result: vendor, major, minor, patch (R24). -/
def State.versionOut (s : State) : Option (Byte × Byte × Byte × Byte) :=
  if s.typedReady 1 then some (s.verVendor, s.verMajor, s.verMinor, s.verPatch) else none

/-- `help_count` (R24). -/
def State.helpCountOut (s : State) : Option (BitVec 4) :=
  if s.typedReady 2 then some s.helpCount else none

/-- GetHelp's entry `i` (R24; 42_command_protocol.md R144): the command ordinal `i + 1` with `RXB[i]`. -/
def State.helpEntry (s : State) (i : Nat) : Option (Nat × Byte) :=
  if s.typedReady 2 && i < s.helpCount.toNat then some (i + 1, s.rxb.read i) else none

/-- `chip_id` (R24). -/
def State.chipIdOut (s : State) : Option Half := if s.typedReady 3 then some s.chipId else none

/-- `rdp_rep` (R24). -/
def State.rdpRepOut (s : State) : Option (BitVec 1) := if s.typedReady 4 then some s.rdpRep else none

/-- `RDV` (R24; 42_command_protocol.md R150). -/
def State.readDataOut (s : State) : Option (List Byte) :=
  if s.typedReady 8 then some (readDataView s) else none

/-- The report of a transfer (R24; 44_transfer_session.md R208). -/
structure TransferReport where
  attempts : Byte
  failures : Byte
  failMap : BitVec 128
  curPage : Byte
  deriving DecidableEq, Repr

/-- `xfer_attempts`, `xfer_failures`, `xfer_fail_map`, `cur_page` (R24). -/
def State.reportOut (s : State) : Option TransferReport :=
  if s.resValid && s.desc.sel == 7 && s.status != .localValidation then
    some { attempts := s.xferAttempts, failures := s.xferFailures, failMap := s.xferFailMap,
           curPage := s.curPage }
  else none

/-- The result fields of R24 that have a "meaningful when" condition, as the host sees them. -/
structure ResultPort where
  status : Option Status
  subcause : Option Subcause
  ack : Option Bool
  stByte : Option Byte
  dataLen : Option Byte
  data : Option (List Byte)
  version : Option (Byte × Byte × Byte × Byte)
  helpCount : Option (BitVec 4)
  chipId : Option Half
  rdpRep : Option (BitVec 1)
  readData : Option (List Byte)
  report : Option TransferReport
  deriving DecidableEq, Repr

/-- No field has a value. -/
def ResultPort.nothing : ResultPort :=
  { status := none, subcause := none, ack := none, stByte := none, dataLen := none, data := none,
    version := none, helpCount := none, chipId := none, rdpRep := none, readData := none, report := none }

/-- The result port of a state (R24). -/
def State.resultPort (s : State) : ResultPort :=
  { status := s.statusOut, subcause := s.subcauseOut, ack := s.ackOut, stByte := s.stByteOut,
    dataLen := s.dataLenOut, data := s.dataOut, version := s.versionOut, helpCount := s.helpCountOut,
    chipId := s.chipIdOut, rdpRep := s.rdpRepOut, readData := s.readDataOut, report := s.reportOut }

end Sys2Proof.Machine
end

