-- ==== Sys2Proof/Machine/Trace.lean ====
section
/-! DEFINITION. The same machine as functions of a trace (20_memory.md R55): an exchange and a host
command as functions from what the link will deliver to what the engine sends, its result, and what
is left on the link (43_protocol_sequencer.md R195, R196; 44_transfer_session.md R200). `none` is a
command that does not end because the link delivers too few bytes. Machine/Sequencer.lean does not use
these; that its states compute them is a claim. -/

namespace Sys2Proof.Machine

/-- What an exchange sends, its response, and what is left on the receive side. -/
structure ExchangeResult where
  sent : List Byte
  response : Response
  rest : List Byte
  deriving DecidableEq, Repr

/-- `Exchange(P)` (R195). -/
def exchange (payload rx : List Byte) : Option ExchangeResult :=
  match decodeResponse rx with
  | some (r, rest) => some { sent := encodeFrame payload, response := r, rest := rest }
  | none => none

/-- The status of an acknowledged response, per command (42_command_protocol.md R143 to R152, R154 to
R156). MemWrite's is not decided by one response. -/
def ackStatus (i : Instr) (data : List Byte) : Status :=
  match i with
  | .getVersion => if data.length < 4 then .shortResponse else .ok
  | .getHelp => if 10 < data.length then .helpOverflow else .ok
  | .getChipId => if data.length < 2 then .shortResponse else .ok
  | .getRdpStatus => if data.length < 1 then .shortResponse else .ok
  | .goToAddress _ _ => .ok
  | .eraseFlash _ _ => .ok
  | .memWrite _ _ => .ok
  | .memRead _ _ _ => .ok
  | .jumpToApp _ => .ok
  | .changeRdpLevel _ => .ok

/-- The status of a command that is one exchange (R196): a refused response is `NACK`. -/
def exchangeStatus (i : Instr) (r : Response) : Status :=
  if r.ack then ackStatus i r.data else .nack

/-- What a transfer has done: the bytes sent, the report, the events in order, and what is left. -/
structure TransferResult where
  sent : List Byte
  attempts : Nat
  failures : Nat
  failMap : BitVec 128
  curPage : Byte
  events : List ChunkEvent
  /-- The response of the last exchange, if one was made. -/
  last : Option Response
  rest : List Byte
  deriving DecidableEq, Repr

/-- The loop of `Transfer()` (R200): `left` chunks from chunk `k` on, added to what is done. -/
def transferLoop (img : Memory) (imgLen : Nat) (failStop : Bool) :
    (left k : Nat) → TransferResult → Option TransferResult
  | 0, _, r => some r
  | left + 1, k, r =>
    match exchange (chunkPayload r.curPage (chunkBytes img imgLen k)) r.rest with
    | none => none
    | some x =>
      let r1 : TransferResult :=
        { sent := r.sent ++ x.sent,
          attempts := r.attempts + 1,
          failures := if x.response.ack then r.failures else r.failures + 1,
          failMap := if x.response.ack then r.failMap else setFailBit r.failMap k,
          curPage := r.curPage + 1,
          events := r.events ++ [{ index := BitVec.ofNat 8 k, page := r.curPage, ok := x.response.ack }],
          last := some x.response,
          rest := x.rest }
      if failStop && !x.response.ack then some r1
      else transferLoop img imgLen failStop left (k + 1) r1

/-- `Transfer()` (R200). -/
def transfer (img : Memory) (page : Byte) (imgLen : Nat) (failStop : Bool) (rx : List Byte) :
    Option TransferResult :=
  transferLoop img imgLen failStop (chunkCount imgLen) 0
    { sent := [], attempts := 0, failures := 0, failMap := 0, curPage := page, events := [], last := none,
      rest := rx }

end Sys2Proof.Machine
end

