-- ==== Sys2Proof/Safety.lean ====
section
/-! DEFINITION. Runs, and what holds along them: the invariants of the machine, the host's duties
(70_reset_and_hazards.md R265), and the terms in which claims are made. -/

namespace Sys2Proof.Machine

/-- The chunk events pulsed in the next `n` steps, in order (10_state.md R25): each pulse is up in the
state after the step that raises it, and down in the one after. -/
def eventsAlong : Nat → State → List ChunkEvent
  | 0, _ => []
  | n + 1, s =>
    match step s with
    | .next u => u.chunkEvt.toList ++ eventsAlong n u
    | .fault _ => []
    | .refused _ => []

/-- `n` steps lead from `s` to `t`, none of them a stop. -/
def Run : Nat → State → State → Prop
  | 0, s, t => s = t
  | n + 1, s, t => ∃ u, step s = .next u ∧ Run n u t

/-- Some number of steps leads from `s` to `t`. -/
def Reaches (s t : State) : Prop := ∃ n, Run n s t

/-- The states from `MARSHAL` to `NEXT_CHUNK`, in which a validated command is being run. -/
def Fsm.running : Fsm → Bool
  | .idle => false
  | .done => false
  | _ => true

/-- Every buffer is in its canonical form, and no entry is past the buffer's end (20_memory.md R48). -/
structure BuffersOk (s : State) : Prop where
  pbForm : Memory.wf s.pb
  rxbForm : Memory.wf s.rxb
  imgForm : Memory.wf s.img
  pbSize : ∀ c ∈ s.pb, c.1 < Config.payloadMax
  rxbSize : ∀ c ∈ s.rxb, c.1 < Config.respDataMax
  imgSize : ∀ c ∈ s.img, c.1 < Config.imageMax

/-- What holds of the sequencer's registers (10_state.md R13, R14, R16 to R18; 43_protocol_sequencer.md
R180; 60_exceptions.md R222). -/
structure SequencerOk (s : State) : Prop where
  busyIff : s.busy = true ↔ s.fsm ≠ .idle
  resultThenIdle : s.resValid = true → s.fsm = .idle
  bitcntBound : s.bitcnt.toNat ≤ crcParams.stepsPerByte
  plenBound : s.plen.toNat ≤ Config.payloadMax
  payloadThere : s.fsm.sending = true → 1 ≤ s.plen.toNat ∧ s.flen.toNat = s.plen.toNat + 4
  lenIdx : s.fsm = .txLen → s.idx.toNat < 2
  payloadIdx : s.fsm = .txPayload → s.idx.toNat ≤ s.plen.toNat
  absorbedFirst : s.fsm = .txPayload → s.idx.toNat = s.plen.toNat → s.bitcnt = 0
  crcIdx : s.fsm = .txCrc → s.idx.toNat < 4 ∧ s.bitcnt = 0
  dataIdx : s.fsm = .rxData → s.idx.toNat < s.dataLen.toNat
  offerWhileSending : s.txOffer.isSome = true → s.fsm.sending = true
  offerAfterAbsorb : s.txOffer.isSome = true → s.bitcnt = 0
  offerInPayload : s.fsm = .txPayload → s.txOffer.isSome = true → s.idx.toNat < s.plen.toNat
  validated : s.fsm.running = true → validate s.desc = none
  imageFits : s.fsm.running = true → s.desc.sel = 7 → s.desc.imgLen.toNat ≤ Config.imageMax
  pagesFit : s.fsm.running = true → s.desc.sel = 7 → MemWriteAdmitted s.desc.page s.desc.imgLen.toNat
  chunkOfTransfer : s.fsm = .nextChunk → s.desc.sel = 7
  pulseWhen : s.chunkEvt.isSome = true → s.fsm = .marshal ∨ s.fsm = .done
  cleanWhileRunning : s.fsm.running = true → s.status = .ok ∧ s.subcause = .none
  causeOnlyLocal : s.subcause ≠ .none → s.status = .localValidation

/-- What R212 of 44_transfer_session.md says of a transfer while it runs, at every state and not only
at `MARSHAL`. -/
structure TransferOk (s : State) : Prop where
  chunks : s.fsm.running = true → s.desc.sel = 7 →
    s.nchunks.toNat = chunkCount s.desc.imgLen.toNat ∧ s.k.toNat < s.nchunks.toNat
  page : s.fsm.running = true → s.desc.sel = 7 → s.curPage = s.desc.page + s.k
  attempts : s.fsm.running = true → s.desc.sel = 7 → s.xferAttempts = s.k
  failures : s.fsm.running = true → s.desc.sel = 7 → s.xferFailures.toNat = failBits s.xferFailMap
  failBelow : s.fsm.running = true → s.desc.sel = 7 →
    ∀ j, s.xferFailMap.getLsbD j = true → j < s.k.toNat

/-- The invariant of the machine. -/
structure Inv (s : State) : Prop where
  buffers : BuffersOk s
  sequencer : SequencerOk s
  transfer : TransferOk s

/-- The commands the host still presents are ones a model admits: the image length is one the port
carries, 0 to `IMAGE_MAX` (10_state.md R23), and no page of a transfer passes 127 (44_transfer_session.md
R209). The others are refused by name. -/
def CommandsAdmitted (s : State) : Prop :=
  ∀ c ∈ s.host, c.desc.imgLen.toNat ≤ Config.imageMax ∧
    (c.desc.sel = 7 → MemWriteAdmitted c.desc.page c.desc.imgLen.toNat)

/-- The host has written `IMG[0 .. d_img_len - 1]` before a MemWrite (70_reset_and_hazards.md R252 (4)):
the command carries an image of that many bytes (log 15). -/
def HostCommand.imageWritten (c : HostCommand) : Prop :=
  ∃ bytes, c.image = some bytes ∧ c.desc.imgLen.toNat ≤ bytes.length

/-- The target is at a frame boundary, waiting for a length prefix (70_reset_and_hazards.md R252 (3)):
since it was last brought to one no exchange has been broken off, by a reset, a link failure or a
timeout, and what the link has taken since is whole request frames (log 22). That the target is still
running the bootloader is taken to hold, also after an acknowledged GoToAddress or JumpToApp, where the
spec leaves it open (R255, 93_implementation_defined.md U17): DESIGN CHOICE, unsafe, log 24. -/
def TargetAtBoundary (s : State) : Prop :=
  ∃ b, s.boundary = some b ∧ b ≤ s.tx.length ∧
    ∃ ps : List (List Byte), (∀ p ∈ ps, p.length ≤ Config.payloadMax) ∧
      s.tx.drop b = (ps.map encodeFrame).flatten

/-- The pins of the step after this one. -/
def State.nextPins (s : State) : Stim := s.script.tail.headD s.restPins

/-- The duties of 70_reset_and_hazards.md R265 (R252, R253, R258), at a state: the launch premises. A
descriptor on the port that this step does not accept stays valid in the next one. When a command is
presented in `IDLE`, also after a reset or a failed exchange, the receive side is empty and the target is
at a boundary. The other duties of R265 are no premise, because the model has no move that breaks them: a
descriptor on the port stays the same until it is accepted, `IMG` is not written while the engine is busy
(log 15), the receive side delivers in order and once, and `link_err` is the failure (log 23). -/
structure HostDuties (s : State) : Prop where
  commands : CommandsAdmitted s
  images : ∀ c ∈ s.host, c.desc.sel = 7 → c.imageWritten
  descriptorKept : s.cmdValid = true → s.fsm ≠ .idle ∨ s.now.rst = true → s.nextPins.cmdOffer = true
  rxEmpty : s.fsm = .idle → s.cmdValid = true → s.rx = []
  targetReady : s.fsm = .idle → s.cmdValid = true → TargetAtBoundary s

/-- The launch premises of a run: the invariant, and the host's duties at every state it comes to. -/
structure Launch (s : State) : Prop where
  inv : Inv s
  duties : ∀ t, Reaches s t → HostDuties t

/-! ### Runs in which only bytes arrive -/

/-- The pins of the coming steps are quiet but for bytes that arrive and time units that pass, and units
pass only where there is no `RX_TIMEOUT`: the target's answer comes in while the engine sends or waits. -/
structure Calm (s : State) : Prop where
  atRest : s.restPins = Stim.quiet
  scripted : ∀ p ∈ s.script, p = { Stim.quiet with arrive := p.arrive, timeUnit := p.timeUnit } ∧
    (p.timeUnit = true → s.params.rxTimeout = none)

/-- All bytes the link will deliver: those that wait, then those that are still to arrive by the script. -/
def State.incoming (s : State) : List Byte := s.rx ++ (s.script.map Stim.arrive).flatten

/-! ### The terms of the claims about commands -/

/-- A state with the payload `P` marshalled (43_protocol_sequencer.md R182): `PB`, `plen`, `flen`, the
CRC seed, `bitcnt`, `idx`, and `TX_LEN` next. Nothing else differs but the chunk event, which is down. -/
def marshalled (payload : List Byte) (s : State) : State :=
  { s with pb := s.pb.writeList 0 payload, plen := BitVec.ofNat 11 payload.length,
           flen := BitVec.ofNat 16 (payload.length + 4), acc := 0xFFFFFFFF, bitcnt := 0, idx := 0,
           fsm := .txLen, chunkEvt := none }

/-- The payload `P` stands in `PB` and its frame is about to be sent: `PB[0..plen-1] = P`, no other byte of
`PB` differs from `s`, and the registers are as `MARSHAL` leaves them (43_protocol_sequencer.md R182). -/
structure PayloadLoaded (payload : List Byte) (s t : State) : Prop where
  plen : t.plen.toNat = payload.length
  flen : t.flen.toNat = payload.length + 4
  bytes : t.pb.readList 0 payload.length = payload
  others : ∀ j, payload.length ≤ j → t.pb.read j = s.pb.read j
  crc : t.acc = 0xFFFFFFFF ∧ t.bitcnt = 0
  next : t.fsm = .txLen ∧ t.idx = 0

/-- A state in which a command has failed after its accept (60_exceptions.md R226). -/
def failed (st : Status) (s : State) : State :=
  { s with status := st, subcause := .none, txOffer := none, fsm := .done, chunkEvt := none,
           boundary := if st = .transport ∨ st = .noResponse then none else s.boundary }

/-- A state in which a command's decode has succeeded (43_protocol_sequencer.md R189). -/
def succeeded (s : State) : State := { s with status := .ok, fsm := .done, chunkEvt := none }

/-- In `MARSHAL`, command `i` builds this payload and does nothing else. -/
def SendsPayload (i : Instr) (payload : List Byte) : Prop :=
  ∀ s : State, s.fsm = .marshal → exec i s = .next (marshalled payload s)

/-- In `DECODE`, a refused response ends command `i` with `NACK`, and nothing is decoded
(42_command_protocol.md R153). -/
def NackOnRefusal (i : Instr) : Prop :=
  ∀ s : State, s.fsm = .decode → s.ack = false → exec i s = .next (failed .nack s)

/-- In `DECODE`, an acknowledged response with fewer than `n` data bytes ends command `i` with
`SHORT_RESPONSE`; the typed result is not written (R154). -/
def ShortBelow (n : Nat) (i : Instr) : Prop :=
  ∀ s : State, s.fsm = .decode → s.ack = true → s.dataLen.toNat < n →
    exec i s = .next (failed .shortResponse s)

/-- In `DECODE`, every acknowledged response ends command `i` with `OK`, and its data bytes are not
used (R156). -/
def OkOnAck (i : Instr) : Prop :=
  ∀ s : State, s.fsm = .decode → s.ack = true → exec i s = .next (succeeded s)

/-- In `IDLE`, a descriptor of command `i` whose `c_addr_len` is not 4 is rejected at accept, whatever
else it holds, unless `c_param_bad` rejects it first (R142). -/
def RejectsAddrLen (i : Instr) : Prop :=
  ∀ s : State, s.fsm = .idle → s.portDescriptor.paramBad = false →
    exec i s = .next (State.raise .localValidation .badAddrLen
      (acceptDescriptor (i.latch s.portDescriptor) s.lowerPulse))

/-- The typed result of command `i` for the data of an acknowledged response that its decode accepts
(R143 to R152): what the result registers then hold. -/
def TypedResult (i : Instr) (data : List Byte) (s : State) : Prop :=
  match i with
  | .getVersion =>
    [s.verVendor, s.verMajor, s.verMinor, s.verPatch] = data.take 4
  | .getHelp => s.helpCount.toNat = data.length
  | .getChipId => s.chipId.toNat = (data.getD 0 0).toNat + 256 * (data.getD 1 0).toNat
  | .getRdpStatus => s.rdpRep = if data.getD 0 0 = 0x00 then 1 else 0
  | .memRead _ _ _ => readDataView s = data.reverse
  | _ => True

/-! ### The transition table (43_protocol_sequencer.md R194) -/

/-- The byte on offer is taken by the link in this step (10_state.md R30). -/
def State.offerTaken (s : State) : Bool := s.txOffer.isSome && s.now.txReady

/-- A wait for a byte reaches `RX_TIMEOUT` in this step (60_exceptions.md R225). -/
def State.timeoutReached (s : State) : Bool :=
  match s.params.rxTimeout with
  | none => false
  | some t => s.now.timeUnit && t ≤ s.tmo + 1

/-- Where the table leads from `s`, with no reset: the row whose condition holds. A state a row does
not leave is kept. -/
def nextFsm (s : State) : Fsm :=
  match s.fsm with
  | .idle =>
    if s.cmdValid then
      if validate s.portDescriptor ≠ none then .done
      else if s.portDescriptor.sel = 7 ∧ s.portDescriptor.imgLen = 0 then .done
      else .marshal
    else .idle
  | .marshal => .txLen
  | .txLen =>
    if s.now.linkErr then .done
    else if s.offerTaken ∧ s.idx = 1 then .txPayload else .txLen
  | .txPayload =>
    if s.now.linkErr then .done
    else if s.idx = s.plen ∧ s.bitcnt = 0 then .txCrc else .txPayload
  | .txCrc =>
    if s.now.linkErr then .done
    else if s.offerTaken ∧ s.idx = 3 then .rxStatus else .txCrc
  | .rxStatus =>
    if s.now.linkErr then .done
    else match s.rxOffered with
      | some b => if b = 0x01 then .rxLen else .decode
      | none => if s.timeoutReached then .done else .rxStatus
  | .rxLen =>
    if s.now.linkErr then .done
    else match s.rxOffered with
      | some b => if b = 0 then .decode else .rxData
      | none => if s.timeoutReached then .done else .rxLen
  | .rxData =>
    if s.now.linkErr then .done
    else match s.rxOffered with
      | some _ => if s.idx.toNat + 1 = s.dataLen.toNat then .decode else .rxData
      | none => if s.timeoutReached then .done else .rxData
  | .decode => if s.desc.sel = 7 then .nextChunk else .done
  | .nextChunk =>
    if s.k.toNat + 1 < s.nchunks.toNat ∧ (s.params.xferFailStop = true → s.ack = true) then .marshal
    else .done
  | .done => .idle

/-! ### Which inputs a state looks at (60_exceptions.md R230) -/

/-- `s` with the pins of the step now being made replaced. -/
def State.withPins (p : Stim) (s : State) : State := { s with script := p :: s.script.tail }

/-- Two pin settings agree on the inputs that a state of the sequencer looks at, of those `exec` reads:
`tx_ready` and `link_err` in `TX_*`; `rx_valid`, `link_err` and the time unit in `RX_*`. -/
def samePins (f : Fsm) (p q : Stim) : Prop :=
  (f.sending = true → p.txReady = q.txReady ∧ p.linkErr = q.linkErr) ∧
  (f.receiving = true → p.rxOffer = q.rxOffer ∧ p.linkErr = q.linkErr ∧ p.timeUnit = q.timeUnit)

/-! ### Two engines that differ only in what earlier commands left -/

/-- `s` and `s'` are given the same from now on: the same link, host, pins, image and parameters. -/
structure SameSurroundings (s s' : State) : Prop where
  rx : s.rx = s'.rx
  tx : s.tx = s'.tx
  host : s.host = s'.host
  boundary : s.boundary = s'.boundary
  script : s.script = s'.script
  restPins : s.restPins = s'.restPins
  img : s.img = s'.img
  params : s.params = s'.params

end Sys2Proof.Machine
end

