-- ==== Sys2Proof/Certificates/Slice0/Obligations.lean ====
section
/-! DEFINITION. The statements for the provers. A statement about a state `s` with no further premise
holds in every state, reachable or not. -/

open Sys2Proof Sys2Proof.Machine

/-! ### The CRC32Engine -/

/-- 40_crc32_engine.md R101 to R103: the three operations of the CRC unit, on its registers, and that
nothing else of the state changes. R102: only bits 31:24 can change, and bit 7 of the byte meets bit 31. -/
def Obligations.CrcUnitOperations : Prop :=
  (∀ s : State, s.crcSeed = { s with acc := 0xFFFFFFFF, bitcnt := 0 }) ∧
  (∀ (b : Byte) (s : State), s.crcInject b =
    { s with acc := s.acc ^^^ (b.setWidth 32 <<< 24), bitcnt := 32 }) ∧
  (∀ (b : Byte) (s : State) (j : Nat), (s.crcInject b).acc.getLsbD j =
    if 24 ≤ j ∧ j < 32 then s.acc.getLsbD j ^^ b.getLsbD (j - 24) else s.acc.getLsbD j) ∧
  (∀ s : State, s.crcBitStep =
    { s with acc := if s.acc.getLsbD 31 then (s.acc <<< 1) ^^^ 0x04C11DB7 else s.acc <<< 1,
             bitcnt := s.bitcnt - 1 })

/-- R104: after the inject of `b`, `n` bit steps leave `bitcnt = 32 - n` and touch only `acc` and
`bitcnt`; the 32nd leaves the absorbed accumulator and `bitcnt = 0`. -/
def Obligations.CrcAbsorbIsInjectAnd32Steps : Prop :=
  ∀ (s : State) (b : Byte),
    (∀ n, n ≤ 32 → State.crcBitStep^[n] (s.crcInject b) =
      { s with acc := crcShifts crcParams n (crcInject crcParams s.acc b),
               bitcnt := BitVec.ofNat 6 (32 - n) }) ∧
    State.crcBitStep^[32] (s.crcInject b) =
      { s with acc := crcAbsorb crcParams s.acc b, bitcnt := 0 }

/-- R106: the source's form, with an accumulator of any size and the mask after all bytes, is the same
function as the 32-bit register's. -/
def Obligations.CrcMaskAtTheEnd : Prop := ∀ bs : List Byte, crc32Masked bs = (crc32 bs).toNat

/-- R111: 32 steps per byte is 8 steps per byte over the expanded sequence. -/
def Obligations.CrcIsEightStepsOverExpanded : Prop :=
  ∀ bs : List Byte, crc32 bs = crcOf { crcParams with stepsPerByte := 8 } (crcExpand bs)

/-- 40_crc32_engine.md section 4: for inputs of equal length, `crc32(S) XOR crc32(T) = crc32(S XOR T)
XOR crc32(Z)`, `Z` all zero of that length. -/
def Obligations.CrcDifferenceIsLinear : Prop :=
  ∀ xs ys : List Byte, xs.length = ys.length →
    crc32 xs ^^^ crc32 ys =
      crc32 (List.zipWith (· ^^^ ·) xs ys) ^^^ crc32 (List.replicate xs.length 0)

/-- R108, R109: the empty input and the two regression vectors. -/
def Obligations.CrcRegressionVectors : Prop :=
  crc32 [] = 0xFFFFFFFF ∧ crc32 [0x00] = 0xC704DD7B ∧ crc32 [0x01] = 0x1B6947CC

/-- 10_state.md R12: `acc` is written only by seed (at `MARSHAL`), inject and bit step (while the
covered bytes are sent), whatever the command. -/
def Obligations.AccWrittenOnlyByCrcOperations : Prop :=
  ∀ (i : Instr) (s t : State), exec i s = .next t →
    t.acc = s.acc ∨
    (s.fsm = .marshal ∧ t.acc = 0xFFFFFFFF) ∨
    ((s.fsm = .txLen ∨ s.fsm = .txPayload) ∧
      ((∃ b, t.acc = crcInject crcParams s.acc b) ∨ t.acc = crcShift crcParams s.acc))

/-! ### Frames, payloads and responses -/

/-- 30_encoding.md R70, R73; 41_frame_codec.md R120: the three fields of a request frame, byte by byte,
and its size. -/
def Obligations.FrameLayout : Prop :=
  ∀ p : List Byte, p.length ≤ Config.payloadMax →
    let lenBytes : List Byte := [BitVec.ofNat 8 (p.length + 4), BitVec.ofNat 8 ((p.length + 4) / 256)]
    let c := crc32 (lenBytes ++ p)
    encodeFrame p = lenBytes ++ p ++
      [c.extractLsb' 0 8, c.extractLsb' 8 8, c.extractLsb' 16 8, c.extractLsb' 24 8] ∧
    (encodeFrame p).length = p.length + 6

/-- 30_encoding.md R74: a receiver that reads two bytes as the length, and then that many more, finds
the payload and stops at the frame's end, whatever follows. -/
def Obligations.FrameTellsItsLength : Prop :=
  ∀ p rest : List Byte, p.length ≤ Config.payloadMax →
    parseFrame (encodeFrame p ++ rest) = some (p, rest)

/-- 30_encoding.md R86: the first three bytes and the size of every command's frame. -/
def Obligations.FrameFirstBytes : Prop :=
  (∀ i : Instr, i.isTransfer = false →
    let f := encodeFrame (encode i [])
    match i with
    | .getVersion => f.take 3 = [0x05, 0x00, 0x10] ∧ f.length = 7
    | .getHelp => f.take 3 = [0x05, 0x00, 0x11] ∧ f.length = 7
    | .getChipId => f.take 3 = [0x05, 0x00, 0x12] ∧ f.length = 7
    | .getRdpStatus => f.take 3 = [0x05, 0x00, 0x13] ∧ f.length = 7
    | .goToAddress _ _ => f.take 3 = [0x09, 0x00, 0x14] ∧ f.length = 11
    | .eraseFlash _ _ => f.take 3 = [0x07, 0x00, 0x15] ∧ f.length = 9
    | .memWrite _ _ => True
    | .memRead _ _ _ => f.take 3 = [0x0D, 0x00, 0x17] ∧ f.length = 15
    | .jumpToApp _ => f.take 3 = [0x06, 0x00, 0x18] ∧ f.length = 8
    | .changeRdpLevel _ => f.take 3 = [0x06, 0x00, 0x19] ∧ f.length = 8) ∧
  (∀ (page : Byte) (chunk : List Byte), chunk.length ≤ 1024 →
    let f := encodeFrame (chunkPayload page chunk)
    f.take 3 = [BitVec.ofNat 8 (chunk.length + 8), BitVec.ofNat 8 ((chunk.length + 8) / 256), 0x16] ∧
    f.length = chunk.length + 10)

/-- Decode and encode agree: every well-formed command, with every operand at every value and with the
raw bytes it carries, is read back from its payload and from its frame. -/
def Obligations.DecodeOfEncode : Prop :=
  ∀ (i : Instr) (chunk : List Byte), i.wf = true → i.carries chunk = true →
    decode (encode i chunk) = .ok (i, chunk) ∧
    decodeFrame (encodeFrame (encode i chunk)) = .ok (i, chunk)

/-- The other direction: a payload that decodes is the encoding of what it decodes to, which is well
formed and carries the raw bytes. So no two payloads mean the same. -/
def Obligations.EncodeOfDecode : Prop :=
  ∀ (bs : List Byte) (i : Instr) (chunk : List Byte), decode bs = .ok (i, chunk) →
    encode i chunk = bs ∧ i.wf = true ∧ i.carries chunk = true

/-- Payload words written out from 30_encoding.md R76 to R85 decode to their commands (sanity). -/
def Obligations.WordsDecode : Prop :=
  decode [0b00010000] = .ok (.getVersion, []) ∧
  decode [0b00010100, 0x00, 0x40, 0x00, 0x08] = .ok (.goToAddress 4 ⟨0x08, 0x00, 0x40, 0x00⟩, []) ∧
  decode [0b00010101, 0x05, 0x03] = .ok (.eraseFlash 5 3, []) ∧
  decode [0b00010110, 0x02, 0x04, 0x00, 0xDE, 0xAD, 0xBE, 0xEF] =
    .ok (.memWrite 2 4, [0xDE, 0xAD, 0xBE, 0xEF]) ∧
  decode [0b00011001, 0xA5] = .ok (.changeRdpLevel 0, [])

/-- 30_encoding.md R85, 10_state.md R29: `OPROM[i] = 0x10 + i`; the opcode of selector `s` is
`0x10 + (s - 1)`, and it is the first byte of the command's payload. -/
def Obligations.OpcodeTable : Prop :=
  (∀ j, j < 10 → (oprom.read j).toNat = 0x10 + j) ∧
  (∀ (i : Instr) (chunk : List Byte),
    (encode i chunk).head? = some (opcodeOf i.selector) ∧
    1 ≤ i.selector.toNat ∧ i.selector.toNat ≤ 10 ∧
    (opcodeOf i.selector).toNat = 0x10 + (i.selector.toNat - 1))

/-- 30_encoding.md R83, 20_memory.md R41: an address is sent in the reverse of entered order, which is
`le32` of the number whose most significant byte was entered first. -/
def Obligations.AddressIsSentReversed : Prop :=
  ∀ (addrLen : BitVec 4) (a : AddrBytes) (n : Word),
    (encode (.goToAddress addrLen a) []).drop 1 = [a.b3, a.b2, a.b1, a.b0] ∧
    ((encode (.memRead addrLen a n) []).drop 1).take 4 = [a.b3, a.b2, a.b1, a.b0] ∧
    [a.b3, a.b2, a.b1, a.b0] = le32 (BitVec.ofNat 32
      (a.b0.toNat * 2 ^ 24 + a.b1.toNat * 2 ^ 16 + a.b2.toNat * 2 ^ 8 + a.b3.toNat))

/-- 41_frame_codec.md R127, R130: an acknowledged response is recovered whole and exactly its `n + 2`
bytes are taken; any other status byte is a refusal of one byte, and what follows is left. -/
def Obligations.ResponseRoundTrip : Prop :=
  (∀ (data rest : List Byte), data.length ≤ 255 →
    decodeResponse (0x01 :: BitVec.ofNat 8 data.length :: (data ++ rest)) =
      some ({ ack := true, stByte := 0x01, data := data }, rest)) ∧
  (∀ (b : Byte) (rest : List Byte), b ≠ 0x01 →
    decodeResponse (b :: rest) = some ({ ack := false, stByte := b, data := [] }, rest))

/-! ### Descriptors -/

/-- 30_encoding.md R87 with 42_command_protocol.md R158: a descriptor selects no command exactly for the
selectors 0 and 11 to 15; where it selects one, that command latches the whole descriptor as it is. -/
def Obligations.DescriptorSelectsCommand : Prop :=
  ∀ d : Descriptor,
    (d.instr? = none ↔ d.sel.toNat = 0 ∨ 11 ≤ d.sel.toNat) ∧
    (∀ i, d.instr? = some i → i.latch d = d ∧ i.selector = d.sel)

/-- 42_command_protocol.md R142: validation, in order; what a failing test leaves. The command on the
port is rejected before any byte is built, sent or taken, and the engine goes to `DONE`. The last two
clauses say it of a step: for the selectors of a command and for those that select none. That the report
of a rejected MemWrite is cleared is 10_state.md R21 as the model reads it (log 21). -/
def Obligations.LocalValidation : Prop :=
  (∀ d : Descriptor, validate d =
    if d.sel.toNat = 0 ∨ 10 < d.sel.toNat then some .badSelector
    else if d.paramBad = true then some .badParam
    else if (d.sel.toNat = 5 ∨ d.sel.toNat = 8) ∧ d.addrLen.toNat ≠ 4 then some .badAddrLen
    else none) ∧
  (∀ (i : Instr) (s : State) (c : Subcause), s.fsm = .idle →
    validate (i.latch s.portDescriptor) = some c →
    exec i s = .next { s with
      desc := i.latch s.portDescriptor, busy := true, resValid := false,
      status := .localValidation, subcause := c, ack := false, stByte := 0x00, dataLen := 0,
      xferAttempts := if i.isTransfer = true then 0 else s.xferAttempts,
      xferFailures := if i.isTransfer = true then 0 else s.xferFailures,
      xferFailMap := if i.isTransfer = true then 0 else s.xferFailMap,
      host := s.host.tail, txOffer := none, chunkEvt := none, fsm := .done }) ∧
  (∀ s : State, s.portDescriptor.instr? = none →
    runPort s = .next { s with
      desc := s.portDescriptor, busy := true, resValid := false,
      status := .localValidation, subcause := .badSelector, ack := false, stByte := 0x00, dataLen := 0,
      host := s.host.tail, txOffer := none, chunkEvt := none, fsm := .done })

/-! ### Steps and instructions -/

/-- A step runs the command on the port (in `IDLE`) or the latched one (in every other state), on the
state with the host's image written, and then moves the pins on. What the host has written
(10_state.md R28, 70_reset_and_hazards.md R252 (4); that it is written with the accept is log 15): of a
command with an image `bs`, `IMG[0 .. len(bs) - 1] = bs`, as far as `IMG` goes; every other byte of `IMG`
reads as before and nothing else changes. Without an image nothing changes. -/
def Obligations.StepRunsTheCommand : Prop :=
  (∀ (s : State) (i : Instr), s.now.rst = false → s.fsm = .idle → s.cmdValid = true →
    s.portDescriptor.instr? = some i → step s = thenAdvance (exec i s.hostWritesImage)) ∧
  (∀ (s : State) (i : Instr), s.now.rst = false → s.fsm ≠ .idle → s.desc.instr? = some i →
    step s = thenAdvance (exec i s)) ∧
  (∀ (s : State) (d : Descriptor) (bs : List Byte) (cs : List HostCommand),
    s.host = { desc := d, image := some bs } :: cs → Memory.wf s.img →
    ∃ img : Memory, s.hostWritesImage = { s with img := img } ∧
      img.readList 0 (min bs.length Config.imageMax) = bs.take Config.imageMax ∧
      ∀ a, min bs.length Config.imageMax ≤ a → img.read a = s.img.read a) ∧
  (∀ (s : State) (d : Descriptor) (cs : List HostCommand),
    s.host = { desc := d, image := none } :: cs ∨ s.host = [] → s.hostWritesImage = s)

/-- A row's word that decodes is what the next step runs, on any state it is placed in. The word's raw
bytes are the image the host has written. How a word is placed is the model's choice (log 5). -/
def Obligations.FetchWordRunsItsCommand : Prop :=
  ∀ (s : State) (nbits w : Nat) (i : Instr), decodeTableWord nbits w = some i →
    step (s.withFetchWord nbits w) = thenAdvance (exec i (s.withFetchWord nbits w).hostWritesImage)

/-- 43_protocol_sequencer.md R181: the step in `IDLE`. A descriptor that passes validation is latched
whole, the last result is cleared, and the command goes to `MARSHAL`; MemWrite sets its transfer up
first, and with no chunk to send it is `DONE` with `OK`; one whose image is longer than the port carries,
or whose pages pass 127 (44_transfer_session.md R209), is refused by name. One that fails is
`LOCAL_VALIDATION`. With `cmd_valid = 0` nothing changes. -/
def Obligations.AcceptInIdle : Prop :=
  (∀ (i : Instr) (s : State), s.fsm = .idle → i.isTransfer = false →
    validate (i.latch s.portDescriptor) = none →
    exec i s = .next { s with
      desc := i.latch s.portDescriptor, busy := true, resValid := false,
      status := .ok, subcause := .none, ack := false, stByte := 0x00, dataLen := 0,
      host := s.host.tail, chunkEvt := none, fsm := .marshal }) ∧
  (∀ (page : Byte) (imgLen : BitVec 18) (s : State), s.fsm = .idle → imgLen.toNat ≤ Config.imageMax →
    MemWriteAdmitted page imgLen.toNat →
    validate ((Instr.memWrite page imgLen).latch s.portDescriptor) = none →
    exec (.memWrite page imgLen) s = .next { s with
      desc := (Instr.memWrite page imgLen).latch s.portDescriptor, busy := true, resValid := false,
      status := .ok, subcause := .none, ack := false, stByte := 0x00, dataLen := 0,
      host := s.host.tail, chunkEvt := none,
      nchunks := BitVec.ofNat 8 ((imgLen.toNat + 1023) / 1024), curPage := page, k := 0,
      xferAttempts := 0, xferFailures := 0, xferFailMap := 0,
      fsm := if imgLen.toNat = 0 then .done else .marshal }) ∧
  (∀ (page : Byte) (imgLen : BitVec 18) (s : State), s.fsm = .idle →
    validate ((Instr.memWrite page imgLen).latch s.portDescriptor) = none →
    (131072 < imgLen.toNat → exec (.memWrite page imgLen) s = .refused .imageBeyondMax) ∧
    (imgLen.toNat ≤ 131072 → 128 < page.toNat + (imgLen.toNat + 1023) / 1024 →
      exec (.memWrite page imgLen) s = .refused .pagesBeyondLast)) ∧
  (∀ (i : Instr) (s : State) (c : Subcause), s.fsm = .idle →
    validate (i.latch s.portDescriptor) = some c →
    ∃ t, exec i s = .next t ∧ t.status = .localValidation ∧ t.subcause = c ∧ t.fsm = .done ∧
      t.tx = s.tx) ∧
  (∀ s : State, s.fsm = .idle → s.cmdValid = false → cycle s = .next s)

/-- The payload that `MARSHAL` writes is what `PB[0..plen-1]` then holds, and no other byte of `PB`
changes (43_protocol_sequencer.md R182, 10_state.md R26): of any payload that fits, and of the next state
of every command, MemWrite's being its chunk. -/
def Obligations.MarshalledPayloadIsInBuffer : Prop :=
  ∀ s : State, Memory.wf s.pb →
    (∀ p : List Byte, p.length ≤ Config.payloadMax → PayloadLoaded p s (marshalled p s)) ∧
    (∀ i : Instr, s.fsm = .marshal → i.isTransfer = false →
      ∃ t, exec i s = .next t ∧ PayloadLoaded (encode i []) s t) ∧
    (∀ (page : Byte) (imgLen : BitVec 18), s.fsm = .marshal → imgLen.toNat ≤ Config.imageMax →
      1024 * s.k.toNat < imgLen.toNat →
      ∃ t, exec (.memWrite page imgLen) s = .next t ∧
        PayloadLoaded (chunkPayload s.curPage (chunkBytes s.img imgLen.toNat s.k.toNat)) s t)

/-- The model's order for one covered byte (log 1), in `TX_LEN` and `TX_PAYLOAD`, whatever the command:
it is injected; bit steps follow, the last of which puts it on offer; it is taken when `tx_ready = 1`
and appended to `TX`; until then nothing changes. -/
def Obligations.CoveredByteSteps : Prop :=
  ∀ (i : Instr) (s : State) (b : Byte) (u : State), s.now.linkErr = false →
    (s.fsm = .txLen ∧ b = byteOfHalf s.flen s.idx.toNat ∧
      u = (if s.idx.toNat < 1 then { s with idx := s.idx + 1 } else { s with idx := 0, fsm := .txPayload }) ∨
     s.fsm = .txPayload ∧ s.idx < s.plen ∧ s.idx.toNat < Config.payloadMax ∧
      b = s.pb.read s.idx.toNat ∧ u = { s with idx := s.idx + 1 }) →
    (s.bitcnt = 0 → s.txOffer = none →
      exec i s = .next { s with acc := crcInject crcParams s.acc b, bitcnt := 32, chunkEvt := none }) ∧
    (1 < s.bitcnt.toNat →
      exec i s = .next { s with
        acc := crcShift crcParams s.acc, bitcnt := s.bitcnt - 1,
        chunkEvt := none }) ∧
    (s.bitcnt = 1 →
      exec i s = .next { s with
        acc := crcShift crcParams s.acc, bitcnt := 0, txOffer := some b,
        chunkEvt := none }) ∧
    (∀ o, s.bitcnt = 0 → s.txOffer = some o → s.now.txReady = true →
      exec i s = .next { u with tx := s.tx ++ [o], txOffer := none, chunkEvt := none }) ∧
    (∀ o, s.bitcnt = 0 → s.txOffer = some o → s.now.txReady = false →
      exec i s = .next { s with chunkEvt := none })

/-- 43_protocol_sequencer.md section 2 (`TX_PAYLOAD`, `TX_CRC`): when `idx = plen` and `bitcnt = 0` the
trailer is next; its bytes are `acc[8*idx+7:8*idx]`, `acc` does not change; after the fourth is taken
the status byte is awaited, with the timer at 0. -/
def Obligations.TrailerSteps : Prop :=
  ∀ (i : Instr) (s : State), s.now.linkErr = false →
    (s.fsm = .txPayload → s.idx = s.plen → s.bitcnt = 0 →
      exec i s = .next { s with idx := 0, fsm := .txCrc, chunkEvt := none }) ∧
    (s.fsm = .txCrc → s.txOffer = none →
      exec i s = .next { s with
        txOffer := some (s.acc.extractLsb' (8 * s.idx.toNat) 8),
        chunkEvt := none }) ∧
    (∀ o, s.fsm = .txCrc → s.txOffer = some o → s.now.txReady = true → s.idx.toNat < 3 →
      exec i s = .next { s with
        tx := s.tx ++ [o], txOffer := none, idx := s.idx + 1,
        chunkEvt := none }) ∧
    (∀ o, s.fsm = .txCrc → s.txOffer = some o → s.now.txReady = true → s.idx.toNat = 3 →
      exec i s = .next { s with
        tx := s.tx ++ [o], txOffer := none, idx := 0, tmo := 0,
        fsm := .rxStatus, chunkEvt := none })

/-- 43_protocol_sequencer.md R186: the status byte. -/
def Obligations.StatusByteRead : Prop :=
  ∀ (i : Instr) (s : State) (b : Byte), s.fsm = .rxStatus → s.now.linkErr = false →
    s.rxOffered = some b →
    (b = 0x01 → exec i s = .next { s with
      rx := s.rx.tail, stByte := b, tmo := 0, fsm := .rxLen,
      chunkEvt := none }) ∧
    (b ≠ 0x01 → exec i s = .next { s with
      rx := s.rx.tail, stByte := b, ack := false, dataLen := 0,
      tmo := 0, fsm := .decode, chunkEvt := none })

/-- 43_protocol_sequencer.md R187: the length byte. -/
def Obligations.LengthByteRead : Prop :=
  ∀ (i : Instr) (s : State) (b : Byte), s.fsm = .rxLen → s.now.linkErr = false →
    s.rxOffered = some b →
    exec i s = .next { s with
      rx := s.rx.tail, dataLen := b, ack := true, idx := 0, tmo := 0,
      fsm := if b = 0 then .decode else .rxData, chunkEvt := none }

/-- 43_protocol_sequencer.md R188: a data byte is stored at `RXB[idx]`, and every other byte of `RXB`
reads as before; the last one ends the response. -/
def Obligations.DataByteRead : Prop :=
  ∀ (i : Instr) (s : State) (b : Byte), s.fsm = .rxData → s.now.linkErr = false →
    s.rxOffered = some b → s.idx.toNat < s.dataLen.toNat → Memory.wf s.rxb →
    ∃ rxb : Memory, exec i s = .next { s with
        rx := s.rx.tail, rxb := rxb, idx := s.idx + 1, tmo := 0,
        fsm := if s.idx.toNat + 1 = s.dataLen.toNat then .decode else .rxData, chunkEvt := none } ∧
      rxb.read s.idx.toNat = b ∧ ∀ a, a ≠ s.idx.toNat → rxb.read a = s.rxb.read a

/-- 43_protocol_sequencer.md R193, 60_exceptions.md R225: with no byte, an `RX_*` state waits without
bound when `RX_TIMEOUT = none`; when it is a number, the timer counts the time units that pass, and
reaching it ends the command with `NO_RESPONSE` (when a unit passes is the model's input, log 7; that the
target's place is then unknown is its note, log 22). A byte on offer that is not taken is held without
bound in either case. -/
def Obligations.WaitingForTheLink : Prop :=
  ∀ (i : Instr) (s : State), s.now.linkErr = false →
    (s.fsm.receiving = true → s.rxOffered = none → s.params.rxTimeout = none →
      exec i s = .next { s with chunkEvt := none }) ∧
    (∀ T, s.fsm.receiving = true → s.rxOffered = none → s.params.rxTimeout = some T →
      (s.now.timeUnit = false → exec i s = .next { s with chunkEvt := none }) ∧
      (s.now.timeUnit = true → s.tmo + 1 < T →
        exec i s = .next { s with tmo := s.tmo + 1, chunkEvt := none }) ∧
      (s.now.timeUnit = true → T ≤ s.tmo + 1 →
        exec i s = .next (failed .noResponse { s with tmo := s.tmo + 1 }))) ∧
    (∀ o, (s.fsm = .txLen ∨ s.fsm = .txPayload ∧ s.idx < s.plen ∧ s.idx.toNat < Config.payloadMax ∨
        s.fsm = .txCrc) → (s.fsm = .txCrc ∨ s.bitcnt = 0) → s.txOffer = some o →
      s.now.txReady = false → exec i s = .next { s with chunkEvt := none })

/-- 43_protocol_sequencer.md R192: in a `TX_*` or `RX_*` state `link_err = 1` ends the command with
`TRANSPORT`, whatever else was due in that step; no byte is sent or taken. That the target's place is
then unknown is the model's own note (`boundary`, log 22). -/
def Obligations.LinkFailure : Prop :=
  ∀ (i : Instr) (s : State), s.now.linkErr = true →
    s.fsm.sending = true ∨ s.fsm.receiving = true → exec i s = .next (failed .transport s)

/-- 60_exceptions.md R230: the inputs `exec` reads are looked at only in the states named there; pins
that agree on those give the same next state. `link_err` in particular is ignored elsewhere. -/
def Obligations.InputsLookedAtOnlyWhereNamed : Prop :=
  ∀ (i : Instr) (s t : State) (p q : Stim), samePins s.fsm p q →
    exec i (s.withPins p) = .next t → exec i (s.withPins q) = .next (t.withPins q)

/-! ### The ten commands -/

/-- 42_command_protocol.md R143. -/
def Obligations.GetVersionRule : Prop :=
  SendsPayload .getVersion [0x10] ∧ NackOnRefusal .getVersion ∧ ShortBelow 4 .getVersion ∧
  ∀ s : State, s.fsm = .decode → s.ack = true → 4 ≤ s.dataLen.toNat →
    exec .getVersion s = .next (succeeded { s with
      verVendor := s.rxb.read 0,
      verMajor := s.rxb.read 1, verMinor := s.rxb.read 2, verPatch := s.rxb.read 3 })

/-- 42_command_protocol.md R144: more than ten entries are refused as a whole, and then the entries and
their count have no value; entry `i` is the command ordinal `i + 1` with `RXB[i]`. -/
def Obligations.GetHelpRule : Prop :=
  SendsPayload .getHelp [0x11] ∧ NackOnRefusal .getHelp ∧
  (∀ s : State, s.fsm = .decode → s.ack = true → 10 < s.dataLen.toNat →
    exec .getHelp s = .next (failed .helpOverflow s)) ∧
  (∀ s : State, s.fsm = .decode → s.ack = true → s.dataLen.toNat ≤ 10 →
    ∃ n : BitVec 4, n.toNat = s.dataLen.toNat ∧
      exec .getHelp s = .next (succeeded { s with helpCount := n })) ∧
  (∀ (s : State) (j : Nat), s.resValid = true → s.status = .ok → s.desc.sel = 2 →
    s.helpEntry j = if j < s.helpCount.toNat then some (j + 1, s.rxb.read j) else none) ∧
  (∀ (s : State) (j : Nat), s.status = .helpOverflow → s.helpCountOut = none ∧ s.helpEntry j = none)

/-- 42_command_protocol.md R145. -/
def Obligations.GetChipIdRule : Prop :=
  SendsPayload .getChipId [0x12] ∧ NackOnRefusal .getChipId ∧ ShortBelow 2 .getChipId ∧
  ∀ s : State, s.fsm = .decode → s.ack = true → 2 ≤ s.dataLen.toNat →
    exec .getChipId s = .next (succeeded { s with
      chipId := BitVec.ofNat 16 ((s.rxb.read 0).toNat + 256 * (s.rxb.read 1).toNat) })

/-- 42_command_protocol.md R146: the byte 0x00 reports level 1, every other level 0. -/
def Obligations.GetRdpStatusRule : Prop :=
  SendsPayload .getRdpStatus [0x13] ∧ NackOnRefusal .getRdpStatus ∧ ShortBelow 1 .getRdpStatus ∧
  ∀ s : State, s.fsm = .decode → s.ack = true → 1 ≤ s.dataLen.toNat →
    exec .getRdpStatus s = .next (succeeded { s with
      rdpRep := if s.rxb.read 0 = 0x00 then 1 else 0 })

/-- 42_command_protocol.md R147. -/
def Obligations.GoToAddressRule : Prop :=
  ∀ (addrLen : BitVec 4) (a : AddrBytes),
    SendsPayload (.goToAddress addrLen a) [0x14, a.b3, a.b2, a.b1, a.b0] ∧
    NackOnRefusal (.goToAddress addrLen a) ∧ OkOnAck (.goToAddress addrLen a) ∧
    (addrLen ≠ 4 → RejectsAddrLen (.goToAddress addrLen a))

/-- 42_command_protocol.md R148. -/
def Obligations.EraseFlashRule : Prop :=
  ∀ page count : Byte,
    SendsPayload (.eraseFlash page count) [0x15, page, count] ∧
    NackOnRefusal (.eraseFlash page count) ∧ OkOnAck (.eraseFlash page count)

/-- 42_command_protocol.md R150: the payload; the result is `RXB[0..data_len-1]` in reverse, so that
read most significant byte first it is the number whose least significant byte came first. -/
def Obligations.MemReadRule : Prop :=
  ∀ (addrLen : BitVec 4) (a : AddrBytes) (n : Word),
    SendsPayload (.memRead addrLen a n) [0x17, a.b3, a.b2, a.b1, a.b0, n.extractLsb' 0 8,
      n.extractLsb' 8 8, n.extractLsb' 16 8, n.extractLsb' 24 8] ∧
    NackOnRefusal (.memRead addrLen a n) ∧ OkOnAck (.memRead addrLen a n) ∧
    (addrLen ≠ 4 → RejectsAddrLen (.memRead addrLen a n)) ∧
    (∀ (s : State) (j : Nat), j < s.dataLen.toNat →
      (readDataView s)[j]? = some (s.rxb.read (s.dataLen.toNat - 1 - j))) ∧
    (∀ s : State, natOfBe (readDataView s) = natOfLe (s.rxb.readList 0 s.dataLen.toNat))

/-- 42_command_protocol.md R151. -/
def Obligations.JumpToAppRule : Prop :=
  ∀ page : Byte, SendsPayload (.jumpToApp page) [0x18, page] ∧
    NackOnRefusal (.jumpToApp page) ∧ OkOnAck (.jumpToApp page)

/-- 42_command_protocol.md R152: the byte 0xA5 sets level 0, the byte 0x00 level 1. -/
def Obligations.ChangeRdpLevelRule : Prop :=
  SendsPayload (.changeRdpLevel 0) [0x19, 0xA5] ∧ SendsPayload (.changeRdpLevel 1) [0x19, 0x00] ∧
  ∀ level : BitVec 1, NackOnRefusal (.changeRdpLevel level) ∧ OkOnAck (.changeRdpLevel level)

/-- 42_command_protocol.md R149, 44_transfer_session.md R202: chunk `k` read from `IMG` when the payload
is built, at page `cur_page`; whatever the answer, the chunk's outcome is recorded next. -/
def Obligations.MemWriteChunkRule : Prop :=
  ∀ (page : Byte) (imgLen : BitVec 18) (s : State),
    (s.fsm = .marshal → imgLen.toNat ≤ Config.imageMax → 1024 * s.k.toNat < imgLen.toNat →
      let n := min 1024 (imgLen.toNat - 1024 * s.k.toNat)
      exec (.memWrite page imgLen) s = .next (marshalled
        (0x16 :: s.curPage :: BitVec.ofNat 8 n :: BitVec.ofNat 8 (n / 256) ::
          s.img.readList (1024 * s.k.toNat) n)
        { s with clen := BitVec.ofNat 11 n })) ∧
    (s.fsm = .decode →
      exec (.memWrite page imgLen) s = .next { s with fsm := .nextChunk, chunkEvt := none })

/-- 44_transfer_session.md R203, R207, R208; 43_protocol_sequencer.md R190: the outcome is recorded, the
event pulsed with the page just named, page and index advanced whatever the outcome; the transfer goes
on while chunks remain, unless the fail-stop policy ends it; at the end the status is `NACK` exactly
when a chunk was refused. -/
def Obligations.NextChunkRule : Prop :=
  ∀ (i : Instr) (s : State), s.fsm = .nextChunk → s.k.toNat < 128 →
    ∃ t, exec i s = .next t ∧
      t.xferAttempts = s.xferAttempts + 1 ∧
      t.xferFailures = (if s.ack = true then s.xferFailures else s.xferFailures + 1) ∧
      (∀ j, j < 128 → t.xferFailMap.getLsbD j =
        (s.xferFailMap.getLsbD j || (!s.ack && j == s.k.toNat))) ∧
      t.chunkEvt = some { index := s.k, page := s.curPage, ok := s.ack } ∧
      t.curPage = s.curPage + 1 ∧ t.k = s.k + 1 ∧
      (if s.k.toNat + 1 < s.nchunks.toNat ∧ ¬ (s.params.xferFailStop = true ∧ s.ack = false)
        then t.fsm = .marshal ∧ t.status = s.status
        else t.fsm = .done ∧ t.status = if t.xferFailures = 0 then .ok else .nack) ∧
      t = { s with xferAttempts := t.xferAttempts, xferFailures := t.xferFailures,
                   xferFailMap := t.xferFailMap, chunkEvt := t.chunkEvt, curPage := t.curPage,
                   k := t.k, fsm := t.fsm, status := t.status }

/-- 43_protocol_sequencer.md R191: the result is presented, and nothing else changes. The host need do
nothing for it, and until the next accept a step keeps every register. Then the result port (10_state.md
R24, R34): with no result presented, while a command runs, and from an accept on, no field has a value;
with one presented, each field has its register's value in its window and none outside it. After a
command that ended inside an exchange no response is held (that `ack`, `st_byte`, `data_len` and `RXB`
then have no value is log 19's reading). -/
def Obligations.ResultPresented : Prop :=
  (∀ (i : Instr) (s : State), s.fsm = .done →
    exec i s = .next { s with resValid := true, busy := false, fsm := .idle, chunkEvt := none }) ∧
  (∀ s : State, s.fsm = .done → s.now.rst = false →
    step s = .next (State.advance { s with
      resValid := true, busy := false, fsm := .idle,
      chunkEvt := none })) ∧
  (∀ s : State, s.fsm = .idle → s.cmdValid = false → cycle s = .next s) ∧
  (∀ s : State, s.resValid = false → s.resultPort = .nothing) ∧
  (∀ s : State, SequencerOk s → s.fsm ≠ .idle → s.resultPort = .nothing) ∧
  (∀ (i : Instr) (s t : State), s.fsm = .idle → exec i s = .next t → t.resultPort = .nothing) ∧
  (∀ s : State, s.resValid = true →
    s.statusOut = some s.status ∧
    s.subcauseOut = (if s.status = .localValidation then some s.subcause else none) ∧
    (s.status = .localValidation ∨ s.status = .transport ∨ s.status = .noResponse ∨
        s.desc.sel = 7 ∧ s.xferAttempts = 0 →
      s.ackOut = none ∧ s.stByteOut = none ∧ s.dataLenOut = none ∧ s.dataOut = none ∧
      ∀ j, s.rxbOut j = none) ∧
    (s.status ≠ .localValidation → s.status ≠ .transport → s.status ≠ .noResponse →
        (s.desc.sel = 7 → s.xferAttempts ≠ 0) →
      s.ackOut = some s.ack ∧ s.stByteOut = some s.stByte ∧ s.dataLenOut = some s.dataLen ∧
      s.dataOut = (if s.ack = true then some (s.rxb.readList 0 s.dataLen.toNat) else none) ∧
      ∀ j, s.rxbOut j = if s.ack = true ∧ j < s.dataLen.toNat then some (s.rxb.read j) else none) ∧
    s.versionOut = (if s.status = .ok ∧ s.desc.sel = 1 then
      some (s.verVendor, s.verMajor, s.verMinor, s.verPatch) else none) ∧
    s.helpCountOut = (if s.status = .ok ∧ s.desc.sel = 2 then some s.helpCount else none) ∧
    s.chipIdOut = (if s.status = .ok ∧ s.desc.sel = 3 then some s.chipId else none) ∧
    s.rdpRepOut = (if s.status = .ok ∧ s.desc.sel = 4 then some s.rdpRep else none) ∧
    s.readDataOut = (if s.status = .ok ∧ s.desc.sel = 8 then
      some (s.rxb.readList 0 s.dataLen.toNat).reverse else none) ∧
    s.reportOut = (if s.desc.sel = 7 ∧ s.status ≠ .localValidation then
      some { attempts := s.xferAttempts, failures := s.xferFailures, failMap := s.xferFailMap,
             curPage := s.curPage } else none))

/-- 44_transfer_session.md R201: the number of chunks, each chunk's length, and that the chunks in order
are the whole image. -/
def Obligations.ChunksAreTheImage : Prop :=
  ∀ (img : Memory) (n : Nat),
    chunkCount n = (n + 1023) / 1024 ∧ (n = 0 → chunkCount n = 0) ∧
    (∀ j, chunkBytes img n j = img.readList (1024 * j) (min 1024 (n - 1024 * j))) ∧
    (∀ j, j + 1 < chunkCount n → chunkLength n j = 1024) ∧
    (0 < n → chunkLength n (chunkCount n - 1) = n - 1024 * (chunkCount n - 1) ∧
      1 ≤ chunkLength n (chunkCount n - 1) ∧ chunkLength n (chunkCount n - 1) ≤ 1024) ∧
    (n ≤ Config.imageMax → chunkCount n ≤ 128) ∧
    ((List.range (chunkCount n)).map (chunkBytes img n)).flatten = img.readList 0 n

/-! ### Reset and rest -/

/-- 10_state.md R33: the reset values the spec gives. -/
def Obligations.ResetValues : Prop :=
  State.reset.fsm = .idle ∧ State.reset.busy = false ∧ State.reset.resValid = false ∧
  State.reset.status = .ok ∧ State.reset.subcause = .none ∧
  State.reset.ack = false ∧ State.reset.stByte = 0x00 ∧ State.reset.dataLen = 0 ∧
  State.reset.acc = 0xFFFFFFFF ∧ State.reset.bitcnt = 0 ∧ State.reset.idx = 0 ∧
  State.reset.plen = 0 ∧ State.reset.flen = 0 ∧
  State.reset.k = 0 ∧ State.reset.nchunks = 0 ∧ State.reset.clen = 0 ∧ State.reset.curPage = 0 ∧
  State.reset.xferAttempts = 0 ∧ State.reset.xferFailures = 0 ∧ State.reset.xferFailMap = 0 ∧
  State.reset.tmo = 0 ∧ (∀ j, j < 10 → oprom.read j = BitVec.ofNat 8 (0x10 + j)) ∧
  State.reset.cmdReady = true ∧ State.reset.txValid = false ∧ State.reset.rxReady = false ∧
  State.reset.chunkEvt = none

/-- 70_reset_and_hazards.md R250, R251; 10_state.md R33: `rst = 1` in any state. The registers the spec
gives a reset value take it; nothing is sent or taken or accepted; `IMG`, the sent bytes, the host and the
parameters are as they were. What the receive side then holds is the link adapter's input, and a reset in
a `TX_*` or `RX_*` state leaves the target's place unknown until it is restored (both log 22). -/
def Obligations.ResetFromAnyState : Prop :=
  ∀ s : State, s.now.rst = true → ∃ t, step s = .next t ∧
    t.fsm = .idle ∧ t.busy = false ∧ t.resValid = false ∧ t.status = .ok ∧ t.subcause = .none ∧
    t.ack = false ∧ t.stByte = 0x00 ∧ t.dataLen = 0 ∧ t.acc = 0xFFFFFFFF ∧ t.bitcnt = 0 ∧
    t.idx = 0 ∧ t.plen = 0 ∧ t.flen = 0 ∧ t.k = 0 ∧ t.nchunks = 0 ∧ t.clen = 0 ∧ t.curPage = 0 ∧
    t.xferAttempts = 0 ∧ t.xferFailures = 0 ∧ t.xferFailMap = 0 ∧ t.tmo = 0 ∧
    t.txValid = false ∧ t.rxReady = false ∧ t.cmdReady = true ∧ t.chunkEvt = none ∧
    t.img = s.img ∧ t.tx = s.tx ∧ t.rx = s.now.rxHolds.getD s.rx ++ s.now.arrive ∧ t.host = s.host ∧
    t.params = s.params ∧
    t.boundary = (if s.now.restored = true then some s.tx.length
      else if s.fsm.sending = true ∨ s.fsm.receiving = true then none else s.boundary)

/-- 43_protocol_sequencer.md R197: in `IDLE` with no command presented, a step sends nothing, takes
nothing and changes no register; only the link adapter may change what the receive side holds and bring
the target to a boundary (log 22), and what arrives is added. -/
def Obligations.IdleDoesNothing : Prop :=
  ∀ s : State, s.fsm = .idle → s.now.rst = false → s.cmdValid = false →
    step s = .next { s with
      script := s.script.tail, rx := s.now.rxHolds.getD s.rx ++ s.now.arrive,
      boundary := if s.now.restored = true then some s.tx.length else s.boundary } ∧
    s.rxReady = false ∧ s.cmdReady = true

/-! ### Whole-machine rules -/

/-- 43_protocol_sequencer.md R194: from every state that meets the invariant, with no reset, a step is
made and leads where the table says. -/
def Obligations.OnlyListedTransitions : Prop :=
  ∀ s : State, Inv s → CommandsAdmitted s → s.now.rst = false →
    ∃ t, step s = .next t ∧ t.fsm = nextFsm s

/-- 20_memory.md section 4 (half-duplex; one byte at a time): a step sends a byte only in a `TX_*` state,
and then the one on offer; it takes a byte only in an `RX_*` state, and then the first one waiting; it
never does both. What it has sent it does not take back. -/
def Obligations.HalfDuplex : Prop :=
  ∀ (i : Instr) (s t : State), exec i s = .next t →
    (t.tx = s.tx ∧ t.rx = s.rx) ∨
    (s.fsm.sending = true ∧ t.rx = s.rx ∧ ∃ b, s.txOffer = some b ∧ s.now.txReady = true ∧
      t.tx = s.tx ++ [b]) ∨
    (s.fsm.receiving = true ∧ t.tx = s.tx ∧ ∃ b, s.rxOffered = some b ∧ s.rx = b :: t.rx)

/-- What a command leaves alone (60_exceptions.md section 2, 10_state.md sections 5 to 7): `IMG`, the
parameters and the pins always; the descriptor and the host's list but at accept; the result
registers of the queries but at their own `DECODE`; the transfer's registers but at MemWrite's accept,
`MARSHAL` (`clen`) and `NEXT_CHUNK`; `PB` but at `MARSHAL`; and of `RXB` every byte but `RXB[idx]`
in `RX_DATA`. The target's boundary, the model's own note, is lost only with `TRANSPORT` and `NO_RESPONSE`
(log 22). -/
def Obligations.CommandFrame : Prop :=
  ∀ (i : Instr) (s t : State), exec i s = .next t →
    t.img = s.img ∧ t.params = s.params ∧ t.script = s.script ∧ t.restPins = s.restPins ∧
    (t.boundary = s.boundary ∨
      t.boundary = none ∧ (t.status = .transport ∨ t.status = .noResponse)) ∧
    (s.fsm ≠ .idle → t.desc = s.desc ∧ t.host = s.host) ∧
    (¬ (s.fsm = .decode ∧ i = .getVersion) → t.verVendor = s.verVendor ∧ t.verMajor = s.verMajor ∧
      t.verMinor = s.verMinor ∧ t.verPatch = s.verPatch) ∧
    (¬ (s.fsm = .decode ∧ i = .getHelp) → t.helpCount = s.helpCount) ∧
    (¬ (s.fsm = .decode ∧ i = .getChipId) → t.chipId = s.chipId) ∧
    (¬ (s.fsm = .decode ∧ i = .getRdpStatus) → t.rdpRep = s.rdpRep) ∧
    (¬ (s.fsm = .idle ∧ i.isTransfer = true) → t.nchunks = s.nchunks) ∧
    (¬ (s.fsm = .idle ∧ i.isTransfer = true ∨ s.fsm = .nextChunk) → t.curPage = s.curPage ∧
      t.k = s.k ∧ t.xferAttempts = s.xferAttempts ∧ t.xferFailures = s.xferFailures ∧
      t.xferFailMap = s.xferFailMap) ∧
    (¬ (s.fsm = .marshal ∧ i.isTransfer = true) → t.clen = s.clen) ∧
    (s.fsm ≠ .marshal → t.pb = s.pb ∧ t.plen = s.plen ∧ t.flen = s.flen) ∧
    (s.fsm ≠ .rxData → t.rxb = s.rxb) ∧
    (∀ a, a ≠ s.idx.toNat → t.rxb.read a = s.rxb.read a)

/-- The invariant and the host's duties hold right after reset. -/
def Obligations.InvariantAtReset : Prop := Inv State.reset ∧ HostDuties State.reset

/-- Every step, from any state, keeps the buffers in their canonical form and within their sizes. -/
def Obligations.BuffersStayCanonical : Prop :=
  ∀ s t : State, BuffersOk s → step s = .next t → BuffersOk t

/-- Two buffers in canonical form that read the same everywhere are the same data. -/
def Obligations.CanonicalBuffersAreEqual : Prop :=
  ∀ m m' : Memory, Memory.wf m → Memory.wf m' → (∀ a, m.read a = m'.read a) → m = m'

/-- Every step keeps the bounds and the coherence of the sequencer's registers (10_state.md R13, R14,
R16 to R18, R23, R25; 44_transfer_session.md R209). Four of its clauses rest on the model's choices: that a
running transfer fits the image and the pages on the refusals (logs 9 and 8), that a byte is on offer only
once it is absorbed on the order of the two (log 1), and where the pulse is up on the step that lowers it
(log 12). -/
def Obligations.SequencerInvariant : Prop :=
  ∀ s t : State, SequencerOk s → step s = .next t → SequencerOk t

/-- 44_transfer_session.md R212, first sentence, at every state of a transfer: every step keeps it. -/
def Obligations.TransferInvariant : Prop :=
  ∀ s t : State, SequencerOk s → TransferOk s → step s = .next t → TransferOk t

/-- Nothing a host presents that a model admits stops the machine: from every state that meets the
invariant, a step answers a next state, and that state meets both too. -/
def Obligations.SafeRunNeverStops : Prop :=
  ∀ s : State, Inv s → CommandsAdmitted s → ∃ t, step s = .next t ∧ Inv t ∧ CommandsAdmitted t

/-! ### The sequencer computes the functions of a trace -/

/-- 43_protocol_sequencer.md R195: with quiet pins, the states from the one after `MARSHAL` to `RX_DATA`
compute `Exchange(P)`: the frame is sent, the response is taken and no byte more, and its status byte,
length and data are in the registers. The transfer's registers and the result are left alone. -/
def Obligations.StatesComputeExchange : Prop :=
  ∀ (s : State) (i : Instr) (p : List Byte) (x : ExchangeResult),
    SequencerOk s → Memory.wf s.rxb → Quiet s → s.desc.instr? = some i →
    s.fsm = .txLen → s.idx = 0 → s.bitcnt = 0 → s.txOffer = none → s.acc = 0xFFFFFFFF →
    s.plen.toNat = p.length → s.pb.readList 0 p.length = p →
    exchange p s.rx = some x →
    ∃ t, Reaches s t ∧ t.fsm = .decode ∧ t.tx = s.tx ++ x.sent ∧ t.rx = x.rest ∧
      t.ack = x.response.ack ∧ t.stByte = x.response.stByte ∧
      t.dataLen.toNat = x.response.data.length ∧
      t.rxb.readList 0 t.dataLen.toNat = x.response.data ∧
      t.desc = s.desc ∧ t.host = s.host ∧ t.img = s.img ∧ t.params = s.params ∧ Quiet t ∧
      t.boundary = s.boundary ∧
      t.busy = s.busy ∧ t.resValid = s.resValid ∧ t.status = s.status ∧ t.subcause = s.subcause ∧
      t.curPage = s.curPage ∧ t.k = s.k ∧ t.nchunks = s.nchunks ∧ t.xferAttempts = s.xferAttempts ∧
      t.xferFailures = s.xferFailures ∧ t.xferFailMap = s.xferFailMap

/-- 43_protocol_sequencer.md R196, for the nine commands that are one exchange: from `IDLE` with the command
on the port and a whole response on its way (waiting, or arriving in any of the coming steps while the
engine sends or waits; the pins are otherwise quiet), the run comes to `IDLE` again with the frame sent,
exactly the response taken, and the status and the typed result of the command's rule. A target at a
boundary is at one again (`TargetAtBoundary`, log 22; after an acknowledged GoToAddress or JumpToApp only
if it still runs the bootloader, which is the model's choice, log 24); with the host's duties met, and no
byte beyond the response, they are met again (70_reset_and_hazards.md R253). -/
def Obligations.OneExchangeCommandRuns : Prop :=
  ∀ (s : State) (c : HostCommand) (cs : List HostCommand) (i : Instr) (x : ExchangeResult),
    Inv s → Calm s → s.fsm = .idle → s.host = c :: cs →
    c.desc.instr? = some i → i.isTransfer = false → validate c.desc = none →
    exchange (encode i []) s.incoming = some x →
    ∃ t, Reaches s t ∧ t.fsm = .idle ∧ t.busy = false ∧ t.resValid = true ∧
      t.tx = s.tx ++ x.sent ∧ t.incoming = x.rest ∧ t.host = cs ∧ t.desc = c.desc ∧
      t.status = exchangeStatus i x.response ∧ t.subcause = .none ∧
      t.ack = x.response.ack ∧ t.stByte = x.response.stByte ∧
      t.dataLen.toNat = x.response.data.length ∧
      t.rxb.readList 0 t.dataLen.toNat = x.response.data ∧
      (t.status = .ok → TypedResult i x.response.data t) ∧ Calm t ∧
      (TargetAtBoundary s → TargetAtBoundary t) ∧ (HostDuties s → x.rest = [] → HostDuties t)

/-- 44_transfer_session.md R200: MemWrite from `IDLE` with its image and the responses of all its chunks on
their way (waiting, or arriving in any of the coming steps; the pins are otherwise quiet) comes to `IDLE`
again with what `Transfer()` sends, takes, reports and leaves, and on the way pulses its chunk events, each
once and in order. A target at a boundary is at one again (`TargetAtBoundary`, log 22); with the host's
duties met, and no byte beyond the responses, they are met again (70_reset_and_hazards.md R253). -/
def Obligations.TransferRuns : Prop :=
  ∀ (s : State) (c : HostCommand) (cs : List HostCommand) (page : Byte) (imgLen : BitVec 18)
    (r : TransferResult),
    Inv s → Calm s → s.fsm = .idle → s.host = c :: cs →
    c.desc.instr? = some (.memWrite page imgLen) → validate c.desc = none →
    imgLen.toNat ≤ Config.imageMax → MemWriteAdmitted page imgLen.toNat →
    transfer s.hostWritesImage.img page imgLen.toNat s.params.xferFailStop s.incoming = some r →
    ∃ n t, Run n s t ∧ eventsAlong n s = r.events ∧
      t.fsm = .idle ∧ t.busy = false ∧ t.resValid = true ∧
      t.tx = s.tx ++ r.sent ∧ t.incoming = r.rest ∧ t.host = cs ∧ t.desc = c.desc ∧
      t.status = (if r.failures = 0 then .ok else .nack) ∧
      t.xferAttempts.toNat = r.attempts ∧ t.xferFailures.toNat = r.failures ∧
      t.xferFailMap = r.failMap ∧ t.curPage = r.curPage ∧ t.subcause = .none ∧
      t.k.toNat = r.attempts ∧ t.nchunks.toNat = chunkCount imgLen.toNat ∧
      (match r.last with
        | none => t.ack = false ∧ t.stByte = 0x00 ∧ t.dataLen = 0
        | some y => t.ack = y.ack ∧ t.stByte = y.stByte ∧ t.dataLen.toNat = y.data.length ∧
            t.rxb.readList 0 t.dataLen.toNat = y.data) ∧ Calm t ∧
      (TargetAtBoundary s → TargetAtBoundary t) ∧ (HostDuties s → r.rest = [] → HostDuties t)

/-- 60_exceptions.md R235: runs that do not end. An engine that waits for a byte, with no timeout, none on
the link and none arriving, and an engine with a byte on offer that the link never takes, with or without
a timeout: it makes any number of steps, and after each it is in that state, busy, with nothing sent and
nothing taken. -/
def Obligations.WaitsForEver : Prop :=
  ∀ (s : State) (i : Instr), SequencerOk s → s.script = [] → s.restPins.rst = false →
    s.restPins.linkErr = false → s.desc.instr? = some i →
    (s.fsm.receiving = true → s.rx = [] → s.restPins.arrive = [] → s.params.rxTimeout = none →
      ∀ n, (∃ t, Run n s t) ∧ ∀ t, Run n s t →
        t.fsm = s.fsm ∧ t.busy = true ∧ t.resValid = false ∧ t.tx = s.tx ∧ t.rx = []) ∧
    (∀ o, s.txOffer = some o → s.restPins.txReady = false →
      ∀ n, (∃ t, Run n s t) ∧ ∀ t, Run n s t →
        t.fsm = s.fsm ∧ t.busy = true ∧ t.resValid = false ∧ t.txOffer = some o ∧ t.tx = s.tx ∧
        ∃ arrived, t.rx = s.rx ++ arrived)

/-- 10_state.md R33, R35 (no persisted state across invocations): two engines in `IDLE` that are given
the same link, host, pins, image and parameters send the same bytes, take the same bytes, pulse the same
chunk events and present the same results, whatever earlier commands left in their registers and buffers. -/
def Obligations.NothingPersists : Prop :=
  ∀ (s s' t : State) (n : Nat), Inv s → Inv s' → s.fsm = .idle → s'.fsm = .idle →
    SameSurroundings s s' → Run n s t →
    ∃ t', Run n s' t' ∧ SameSurroundings t t' ∧ t'.fsm = t.fsm ∧ t'.busy = t.busy ∧
      t'.txOffer = t.txOffer ∧ t'.chunkEvt = t.chunkEvt ∧
      (t.fsm = .done → t'.status = t.status ∧ t'.subcause = t.subcause ∧ t'.ack = t.ack ∧
        t'.stByte = t.stByte ∧ t'.dataLen = t.dataLen ∧
        t'.presentResult.resultPort = t.presentResult.resultPort)
end

