-- ==== Sys2Proof/Laws/Codec.lean ====
section
/-! SUPPORT. Byte order: how the bytes of a value and the value are got from each other. -/

namespace Sys2Proof.Machine

theorem byteOfHalf_ofNat_zero (n : Nat) : byteOfHalf (BitVec.ofNat 16 n) 0 = BitVec.ofNat 8 n := by
  apply BitVec.eq_of_toNat_eq; simp [byteOfHalf]

theorem byteOfHalf_ofNat_one {n : Nat} (h : n < 65536) :
    byteOfHalf (BitVec.ofNat 16 n) 1 = BitVec.ofNat 8 (n / 256) := by
  apply BitVec.eq_of_toNat_eq; simp [byteOfHalf, Nat.shiftRight_eq_div_pow]; omega

theorem byteOfWord_eq_extract (v : Word) (j : Nat) : byteOfWord v j = v.extractLsb' (8 * j) 8 := by
  apply BitVec.eq_of_toNat_eq; simp [byteOfWord]

theorem half16_eq_append (lo hi : Byte) : half16 lo hi = hi ++ lo := by
  apply BitVec.eq_of_getLsbD_eq
  intro i h16
  simp only [half16, BitVec.getLsbD_or, BitVec.getLsbD_setWidth, BitVec.getLsbD_shiftLeft,
    BitVec.getLsbD_append]
  by_cases h : i < 8
  · simp [h]; omega
  · have h0 : lo.getLsbD i = false := BitVec.getLsbD_of_ge _ _ (by omega)
    have h1 : i - 8 < 16 := by omega
    simp [h, h0, h1, h16]

/-- `byte0 | (byte1 << 8)` is `byte0 + 256 * byte1`. -/
theorem half16_toNat (lo hi : Byte) : (half16 lo hi).toNat = lo.toNat + 256 * hi.toNat := by
  rw [half16_eq_append, BitVec.toNat_append, Nat.shiftLeft_eq, mul_comm,
    ← Nat.two_pow_add_eq_or_of_lt lo.isLt]
  omega

theorem le16_half16 (lo hi : Byte) : le16 (half16 lo hi) = [lo, hi] := by
  have h0 : byteOfHalf (half16 lo hi) 0 = lo := by
    apply BitVec.eq_of_toNat_eq; simp [byteOfHalf, half16_toNat]; omega
  have h1 : byteOfHalf (half16 lo hi) 1 = hi := by
    apply BitVec.eq_of_toNat_eq; simp [byteOfHalf, half16_toNat, Nat.shiftRight_eq_div_pow]; omega
  rw [le16, h0, h1]

theorem word32_le32 (v : Word) :
    word32 (byteOfWord v 0) (byteOfWord v 1) (byteOfWord v 2) (byteOfWord v 3) = v := by
  apply BitVec.eq_of_getLsbD_eq
  intro i hi
  simp only [word32, byteOfWord, BitVec.getLsbD_or, BitVec.getLsbD_setWidth, BitVec.getLsbD_shiftLeft,
    BitVec.getLsbD_ushiftRight]
  interval_cases i <;> simp

theorem le32_word32 (b0 b1 b2 b3 : Byte) : le32 (word32 b0 b1 b2 b3) = [b0, b1, b2, b3] := by
  simp only [le32, List.cons.injEq, and_true]
  refine ⟨?_, ?_, ?_, ?_⟩ <;>
    (apply BitVec.eq_of_getLsbD_eq
     intro i hi
     simp only [word32, byteOfWord, BitVec.getLsbD_or, BitVec.getLsbD_setWidth,
       BitVec.getLsbD_shiftLeft, BitVec.getLsbD_ushiftRight]
     interval_cases i <;> simp)

@[simp] theorem length_le16 (v : Half) : (le16 v).length = 2 := rfl

@[simp] theorem length_le32 (v : Word) : (le32 v).length = 4 := rfl

/-- The two prefix bytes of a frame, read back, are the payload's length and 4 more (R71, R75). -/
theorem half16_frameLength {p : List Byte} (h : p.length ≤ Config.payloadMax) :
    (half16 (byteOfHalf (frameLength p) 0) (byteOfHalf (frameLength p) 1)).toNat = p.length + 4 := by
  simp only [Config.payloadMax] at h
  rw [half16_toNat, frameLength, byteOfHalf_ofNat_zero, byteOfHalf_ofNat_one (by omega)]
  simp; omega

/-- `splitRaw n` is taking and dropping `n` bytes, where there are so many. -/
theorem splitRaw_eq (n : Nat) (bs : List Byte) :
    splitRaw n bs = if n ≤ bs.length then some (bs.take n, bs.drop n) else none := by
  induction n generalizing bs with
  | zero => simp [splitRaw]
  | succ n ih =>
    rcases bs with _ | ⟨b, bs⟩
    · simp [splitRaw]
    · rw [splitRaw, ih]
      by_cases h : n ≤ bs.length <;> simp [h]

theorem addrField_addrOfField (a b c d : Byte) : addrField (addrOfField a b c d) = [a, b, c, d] := rfl

end Sys2Proof.Machine
end

