-- ==== Sys2Proof/Laws/State.lean ====
section
/-! SUPPORT. The small lemmas of the named updates of State: for each update and each field, what the
field holds after it. No later proof unfolds an update to read one field. -/

namespace Sys2Proof.Machine

variable (s : State)

/-! ### `crcSeed` -/

@[simp] theorem State.crcSeed_fsm : s.crcSeed.fsm = s.fsm := rfl
@[simp] theorem State.crcSeed_idx : s.crcSeed.idx = s.idx := rfl
@[simp] theorem State.crcSeed_busy : s.crcSeed.busy = s.busy := rfl
@[simp] theorem State.crcSeed_tmo : s.crcSeed.tmo = s.tmo := rfl
@[simp] theorem State.crcSeed_acc : s.crcSeed.acc = 0xFFFFFFFF := rfl
@[simp] theorem State.crcSeed_bitcnt : s.crcSeed.bitcnt = 0 := rfl
@[simp] theorem State.crcSeed_plen : s.crcSeed.plen = s.plen := rfl
@[simp] theorem State.crcSeed_flen : s.crcSeed.flen = s.flen := rfl
@[simp] theorem State.crcSeed_desc : s.crcSeed.desc = s.desc := rfl
@[simp] theorem State.crcSeed_ack : s.crcSeed.ack = s.ack := rfl
@[simp] theorem State.crcSeed_stByte : s.crcSeed.stByte = s.stByte := rfl
@[simp] theorem State.crcSeed_dataLen : s.crcSeed.dataLen = s.dataLen := rfl
@[simp] theorem State.crcSeed_resValid : s.crcSeed.resValid = s.resValid := rfl
@[simp] theorem State.crcSeed_status : s.crcSeed.status = s.status := rfl
@[simp] theorem State.crcSeed_subcause : s.crcSeed.subcause = s.subcause := rfl
@[simp] theorem State.crcSeed_verVendor : s.crcSeed.verVendor = s.verVendor := rfl
@[simp] theorem State.crcSeed_verMajor : s.crcSeed.verMajor = s.verMajor := rfl
@[simp] theorem State.crcSeed_verMinor : s.crcSeed.verMinor = s.verMinor := rfl
@[simp] theorem State.crcSeed_verPatch : s.crcSeed.verPatch = s.verPatch := rfl
@[simp] theorem State.crcSeed_helpCount : s.crcSeed.helpCount = s.helpCount := rfl
@[simp] theorem State.crcSeed_chipId : s.crcSeed.chipId = s.chipId := rfl
@[simp] theorem State.crcSeed_rdpRep : s.crcSeed.rdpRep = s.rdpRep := rfl
@[simp] theorem State.crcSeed_curPage : s.crcSeed.curPage = s.curPage := rfl
@[simp] theorem State.crcSeed_k : s.crcSeed.k = s.k := rfl
@[simp] theorem State.crcSeed_nchunks : s.crcSeed.nchunks = s.nchunks := rfl
@[simp] theorem State.crcSeed_clen : s.crcSeed.clen = s.clen := rfl
@[simp] theorem State.crcSeed_xferAttempts : s.crcSeed.xferAttempts = s.xferAttempts := rfl
@[simp] theorem State.crcSeed_xferFailures : s.crcSeed.xferFailures = s.xferFailures := rfl
@[simp] theorem State.crcSeed_xferFailMap : s.crcSeed.xferFailMap = s.xferFailMap := rfl
@[simp] theorem State.crcSeed_pb : s.crcSeed.pb = s.pb := rfl
@[simp] theorem State.crcSeed_rxb : s.crcSeed.rxb = s.rxb := rfl
@[simp] theorem State.crcSeed_txOffer : s.crcSeed.txOffer = s.txOffer := rfl
@[simp] theorem State.crcSeed_chunkEvt : s.crcSeed.chunkEvt = s.chunkEvt := rfl
@[simp] theorem State.crcSeed_img : s.crcSeed.img = s.img := rfl
@[simp] theorem State.crcSeed_rx : s.crcSeed.rx = s.rx := rfl
@[simp] theorem State.crcSeed_tx : s.crcSeed.tx = s.tx := rfl
@[simp] theorem State.crcSeed_host : s.crcSeed.host = s.host := rfl
@[simp] theorem State.crcSeed_script : s.crcSeed.script = s.script := rfl
@[simp] theorem State.crcSeed_restPins : s.crcSeed.restPins = s.restPins := rfl
@[simp] theorem State.crcSeed_boundary : s.crcSeed.boundary = s.boundary := rfl
@[simp] theorem State.crcSeed_params : s.crcSeed.params = s.params := rfl

/-! ### `crcInject` -/

@[simp] theorem State.crcInject_fsm (b : Byte) : (s.crcInject b).fsm = s.fsm := rfl
@[simp] theorem State.crcInject_idx (b : Byte) : (s.crcInject b).idx = s.idx := rfl
@[simp] theorem State.crcInject_busy (b : Byte) : (s.crcInject b).busy = s.busy := rfl
@[simp] theorem State.crcInject_tmo (b : Byte) : (s.crcInject b).tmo = s.tmo := rfl
@[simp] theorem State.crcInject_acc (b : Byte) : (s.crcInject b).acc = Machine.crcInject crcParams s.acc b := rfl
@[simp] theorem State.crcInject_bitcnt (b : Byte) : (s.crcInject b).bitcnt = 32 := rfl
@[simp] theorem State.crcInject_plen (b : Byte) : (s.crcInject b).plen = s.plen := rfl
@[simp] theorem State.crcInject_flen (b : Byte) : (s.crcInject b).flen = s.flen := rfl
@[simp] theorem State.crcInject_desc (b : Byte) : (s.crcInject b).desc = s.desc := rfl
@[simp] theorem State.crcInject_ack (b : Byte) : (s.crcInject b).ack = s.ack := rfl
@[simp] theorem State.crcInject_stByte (b : Byte) : (s.crcInject b).stByte = s.stByte := rfl
@[simp] theorem State.crcInject_dataLen (b : Byte) : (s.crcInject b).dataLen = s.dataLen := rfl
@[simp] theorem State.crcInject_resValid (b : Byte) : (s.crcInject b).resValid = s.resValid := rfl
@[simp] theorem State.crcInject_status (b : Byte) : (s.crcInject b).status = s.status := rfl
@[simp] theorem State.crcInject_subcause (b : Byte) : (s.crcInject b).subcause = s.subcause := rfl
@[simp] theorem State.crcInject_verVendor (b : Byte) : (s.crcInject b).verVendor = s.verVendor := rfl
@[simp] theorem State.crcInject_verMajor (b : Byte) : (s.crcInject b).verMajor = s.verMajor := rfl
@[simp] theorem State.crcInject_verMinor (b : Byte) : (s.crcInject b).verMinor = s.verMinor := rfl
@[simp] theorem State.crcInject_verPatch (b : Byte) : (s.crcInject b).verPatch = s.verPatch := rfl
@[simp] theorem State.crcInject_helpCount (b : Byte) : (s.crcInject b).helpCount = s.helpCount := rfl
@[simp] theorem State.crcInject_chipId (b : Byte) : (s.crcInject b).chipId = s.chipId := rfl
@[simp] theorem State.crcInject_rdpRep (b : Byte) : (s.crcInject b).rdpRep = s.rdpRep := rfl
@[simp] theorem State.crcInject_curPage (b : Byte) : (s.crcInject b).curPage = s.curPage := rfl
@[simp] theorem State.crcInject_k (b : Byte) : (s.crcInject b).k = s.k := rfl
@[simp] theorem State.crcInject_nchunks (b : Byte) : (s.crcInject b).nchunks = s.nchunks := rfl
@[simp] theorem State.crcInject_clen (b : Byte) : (s.crcInject b).clen = s.clen := rfl
@[simp] theorem State.crcInject_xferAttempts (b : Byte) : (s.crcInject b).xferAttempts = s.xferAttempts := rfl
@[simp] theorem State.crcInject_xferFailures (b : Byte) : (s.crcInject b).xferFailures = s.xferFailures := rfl
@[simp] theorem State.crcInject_xferFailMap (b : Byte) : (s.crcInject b).xferFailMap = s.xferFailMap := rfl
@[simp] theorem State.crcInject_pb (b : Byte) : (s.crcInject b).pb = s.pb := rfl
@[simp] theorem State.crcInject_rxb (b : Byte) : (s.crcInject b).rxb = s.rxb := rfl
@[simp] theorem State.crcInject_txOffer (b : Byte) : (s.crcInject b).txOffer = s.txOffer := rfl
@[simp] theorem State.crcInject_chunkEvt (b : Byte) : (s.crcInject b).chunkEvt = s.chunkEvt := rfl
@[simp] theorem State.crcInject_img (b : Byte) : (s.crcInject b).img = s.img := rfl
@[simp] theorem State.crcInject_rx (b : Byte) : (s.crcInject b).rx = s.rx := rfl
@[simp] theorem State.crcInject_tx (b : Byte) : (s.crcInject b).tx = s.tx := rfl
@[simp] theorem State.crcInject_host (b : Byte) : (s.crcInject b).host = s.host := rfl
@[simp] theorem State.crcInject_script (b : Byte) : (s.crcInject b).script = s.script := rfl
@[simp] theorem State.crcInject_restPins (b : Byte) : (s.crcInject b).restPins = s.restPins := rfl
@[simp] theorem State.crcInject_boundary (b : Byte) : (s.crcInject b).boundary = s.boundary := rfl
@[simp] theorem State.crcInject_params (b : Byte) : (s.crcInject b).params = s.params := rfl

/-! ### `crcBitStep` -/

@[simp] theorem State.crcBitStep_fsm : s.crcBitStep.fsm = s.fsm := rfl
@[simp] theorem State.crcBitStep_idx : s.crcBitStep.idx = s.idx := rfl
@[simp] theorem State.crcBitStep_busy : s.crcBitStep.busy = s.busy := rfl
@[simp] theorem State.crcBitStep_tmo : s.crcBitStep.tmo = s.tmo := rfl
@[simp] theorem State.crcBitStep_acc : s.crcBitStep.acc = crcShift crcParams s.acc := rfl
@[simp] theorem State.crcBitStep_bitcnt : s.crcBitStep.bitcnt = s.bitcnt - 1 := rfl
@[simp] theorem State.crcBitStep_plen : s.crcBitStep.plen = s.plen := rfl
@[simp] theorem State.crcBitStep_flen : s.crcBitStep.flen = s.flen := rfl
@[simp] theorem State.crcBitStep_desc : s.crcBitStep.desc = s.desc := rfl
@[simp] theorem State.crcBitStep_ack : s.crcBitStep.ack = s.ack := rfl
@[simp] theorem State.crcBitStep_stByte : s.crcBitStep.stByte = s.stByte := rfl
@[simp] theorem State.crcBitStep_dataLen : s.crcBitStep.dataLen = s.dataLen := rfl
@[simp] theorem State.crcBitStep_resValid : s.crcBitStep.resValid = s.resValid := rfl
@[simp] theorem State.crcBitStep_status : s.crcBitStep.status = s.status := rfl
@[simp] theorem State.crcBitStep_subcause : s.crcBitStep.subcause = s.subcause := rfl
@[simp] theorem State.crcBitStep_verVendor : s.crcBitStep.verVendor = s.verVendor := rfl
@[simp] theorem State.crcBitStep_verMajor : s.crcBitStep.verMajor = s.verMajor := rfl
@[simp] theorem State.crcBitStep_verMinor : s.crcBitStep.verMinor = s.verMinor := rfl
@[simp] theorem State.crcBitStep_verPatch : s.crcBitStep.verPatch = s.verPatch := rfl
@[simp] theorem State.crcBitStep_helpCount : s.crcBitStep.helpCount = s.helpCount := rfl
@[simp] theorem State.crcBitStep_chipId : s.crcBitStep.chipId = s.chipId := rfl
@[simp] theorem State.crcBitStep_rdpRep : s.crcBitStep.rdpRep = s.rdpRep := rfl
@[simp] theorem State.crcBitStep_curPage : s.crcBitStep.curPage = s.curPage := rfl
@[simp] theorem State.crcBitStep_k : s.crcBitStep.k = s.k := rfl
@[simp] theorem State.crcBitStep_nchunks : s.crcBitStep.nchunks = s.nchunks := rfl
@[simp] theorem State.crcBitStep_clen : s.crcBitStep.clen = s.clen := rfl
@[simp] theorem State.crcBitStep_xferAttempts : s.crcBitStep.xferAttempts = s.xferAttempts := rfl
@[simp] theorem State.crcBitStep_xferFailures : s.crcBitStep.xferFailures = s.xferFailures := rfl
@[simp] theorem State.crcBitStep_xferFailMap : s.crcBitStep.xferFailMap = s.xferFailMap := rfl
@[simp] theorem State.crcBitStep_pb : s.crcBitStep.pb = s.pb := rfl
@[simp] theorem State.crcBitStep_rxb : s.crcBitStep.rxb = s.rxb := rfl
@[simp] theorem State.crcBitStep_txOffer : s.crcBitStep.txOffer = s.txOffer := rfl
@[simp] theorem State.crcBitStep_chunkEvt : s.crcBitStep.chunkEvt = s.chunkEvt := rfl
@[simp] theorem State.crcBitStep_img : s.crcBitStep.img = s.img := rfl
@[simp] theorem State.crcBitStep_rx : s.crcBitStep.rx = s.rx := rfl
@[simp] theorem State.crcBitStep_tx : s.crcBitStep.tx = s.tx := rfl
@[simp] theorem State.crcBitStep_host : s.crcBitStep.host = s.host := rfl
@[simp] theorem State.crcBitStep_script : s.crcBitStep.script = s.script := rfl
@[simp] theorem State.crcBitStep_restPins : s.crcBitStep.restPins = s.restPins := rfl
@[simp] theorem State.crcBitStep_boundary : s.crcBitStep.boundary = s.boundary := rfl
@[simp] theorem State.crcBitStep_params : s.crcBitStep.params = s.params := rfl

/-! ### `advance` -/

@[simp] theorem State.advance_fsm : s.advance.fsm = s.fsm := rfl
@[simp] theorem State.advance_idx : s.advance.idx = s.idx := rfl
@[simp] theorem State.advance_busy : s.advance.busy = s.busy := rfl
@[simp] theorem State.advance_tmo : s.advance.tmo = s.tmo := rfl
@[simp] theorem State.advance_acc : s.advance.acc = s.acc := rfl
@[simp] theorem State.advance_bitcnt : s.advance.bitcnt = s.bitcnt := rfl
@[simp] theorem State.advance_plen : s.advance.plen = s.plen := rfl
@[simp] theorem State.advance_flen : s.advance.flen = s.flen := rfl
@[simp] theorem State.advance_desc : s.advance.desc = s.desc := rfl
@[simp] theorem State.advance_ack : s.advance.ack = s.ack := rfl
@[simp] theorem State.advance_stByte : s.advance.stByte = s.stByte := rfl
@[simp] theorem State.advance_dataLen : s.advance.dataLen = s.dataLen := rfl
@[simp] theorem State.advance_resValid : s.advance.resValid = s.resValid := rfl
@[simp] theorem State.advance_status : s.advance.status = s.status := rfl
@[simp] theorem State.advance_subcause : s.advance.subcause = s.subcause := rfl
@[simp] theorem State.advance_verVendor : s.advance.verVendor = s.verVendor := rfl
@[simp] theorem State.advance_verMajor : s.advance.verMajor = s.verMajor := rfl
@[simp] theorem State.advance_verMinor : s.advance.verMinor = s.verMinor := rfl
@[simp] theorem State.advance_verPatch : s.advance.verPatch = s.verPatch := rfl
@[simp] theorem State.advance_helpCount : s.advance.helpCount = s.helpCount := rfl
@[simp] theorem State.advance_chipId : s.advance.chipId = s.chipId := rfl
@[simp] theorem State.advance_rdpRep : s.advance.rdpRep = s.rdpRep := rfl
@[simp] theorem State.advance_curPage : s.advance.curPage = s.curPage := rfl
@[simp] theorem State.advance_k : s.advance.k = s.k := rfl
@[simp] theorem State.advance_nchunks : s.advance.nchunks = s.nchunks := rfl
@[simp] theorem State.advance_clen : s.advance.clen = s.clen := rfl
@[simp] theorem State.advance_xferAttempts : s.advance.xferAttempts = s.xferAttempts := rfl
@[simp] theorem State.advance_xferFailures : s.advance.xferFailures = s.xferFailures := rfl
@[simp] theorem State.advance_xferFailMap : s.advance.xferFailMap = s.xferFailMap := rfl
@[simp] theorem State.advance_pb : s.advance.pb = s.pb := rfl
@[simp] theorem State.advance_rxb : s.advance.rxb = s.rxb := rfl
@[simp] theorem State.advance_txOffer : s.advance.txOffer = s.txOffer := rfl
@[simp] theorem State.advance_chunkEvt : s.advance.chunkEvt = s.chunkEvt := rfl
@[simp] theorem State.advance_img : s.advance.img = s.img := rfl
@[simp] theorem State.advance_rx : s.advance.rx = s.rxKept ++ s.now.arrive := rfl
@[simp] theorem State.advance_tx : s.advance.tx = s.tx := rfl
@[simp] theorem State.advance_host : s.advance.host = s.host := rfl
@[simp] theorem State.advance_script : s.advance.script = s.script.tail := rfl
@[simp] theorem State.advance_restPins : s.advance.restPins = s.restPins := rfl
@[simp] theorem State.advance_boundary : s.advance.boundary = s.boundaryKept := rfl
@[simp] theorem State.advance_params : s.advance.params = s.params := rfl

/-! ### `raise` -/

@[simp] theorem State.raise_fsm (st : Status) (c : Subcause) : (s.raise st c).fsm = .done := rfl
@[simp] theorem State.raise_idx (st : Status) (c : Subcause) : (s.raise st c).idx = s.idx := rfl
@[simp] theorem State.raise_busy (st : Status) (c : Subcause) : (s.raise st c).busy = s.busy := rfl
@[simp] theorem State.raise_tmo (st : Status) (c : Subcause) : (s.raise st c).tmo = s.tmo := rfl
@[simp] theorem State.raise_acc (st : Status) (c : Subcause) : (s.raise st c).acc = s.acc := rfl
@[simp] theorem State.raise_bitcnt (st : Status) (c : Subcause) : (s.raise st c).bitcnt = s.bitcnt := rfl
@[simp] theorem State.raise_plen (st : Status) (c : Subcause) : (s.raise st c).plen = s.plen := rfl
@[simp] theorem State.raise_flen (st : Status) (c : Subcause) : (s.raise st c).flen = s.flen := rfl
@[simp] theorem State.raise_desc (st : Status) (c : Subcause) : (s.raise st c).desc = s.desc := rfl
@[simp] theorem State.raise_ack (st : Status) (c : Subcause) : (s.raise st c).ack = s.ack := rfl
@[simp] theorem State.raise_stByte (st : Status) (c : Subcause) : (s.raise st c).stByte = s.stByte := rfl
@[simp] theorem State.raise_dataLen (st : Status) (c : Subcause) : (s.raise st c).dataLen = s.dataLen := rfl
@[simp] theorem State.raise_resValid (st : Status) (c : Subcause) : (s.raise st c).resValid = s.resValid := rfl
@[simp] theorem State.raise_status (st : Status) (c : Subcause) : (s.raise st c).status = st := rfl
@[simp] theorem State.raise_subcause (st : Status) (c : Subcause) : (s.raise st c).subcause = if st = .localValidation then c else .none := rfl
@[simp] theorem State.raise_verVendor (st : Status) (c : Subcause) : (s.raise st c).verVendor = s.verVendor := rfl
@[simp] theorem State.raise_verMajor (st : Status) (c : Subcause) : (s.raise st c).verMajor = s.verMajor := rfl
@[simp] theorem State.raise_verMinor (st : Status) (c : Subcause) : (s.raise st c).verMinor = s.verMinor := rfl
@[simp] theorem State.raise_verPatch (st : Status) (c : Subcause) : (s.raise st c).verPatch = s.verPatch := rfl
@[simp] theorem State.raise_helpCount (st : Status) (c : Subcause) : (s.raise st c).helpCount = s.helpCount := rfl
@[simp] theorem State.raise_chipId (st : Status) (c : Subcause) : (s.raise st c).chipId = s.chipId := rfl
@[simp] theorem State.raise_rdpRep (st : Status) (c : Subcause) : (s.raise st c).rdpRep = s.rdpRep := rfl
@[simp] theorem State.raise_curPage (st : Status) (c : Subcause) : (s.raise st c).curPage = s.curPage := rfl
@[simp] theorem State.raise_k (st : Status) (c : Subcause) : (s.raise st c).k = s.k := rfl
@[simp] theorem State.raise_nchunks (st : Status) (c : Subcause) : (s.raise st c).nchunks = s.nchunks := rfl
@[simp] theorem State.raise_clen (st : Status) (c : Subcause) : (s.raise st c).clen = s.clen := rfl
@[simp] theorem State.raise_xferAttempts (st : Status) (c : Subcause) : (s.raise st c).xferAttempts = s.xferAttempts := rfl
@[simp] theorem State.raise_xferFailures (st : Status) (c : Subcause) : (s.raise st c).xferFailures = s.xferFailures := rfl
@[simp] theorem State.raise_xferFailMap (st : Status) (c : Subcause) : (s.raise st c).xferFailMap = s.xferFailMap := rfl
@[simp] theorem State.raise_pb (st : Status) (c : Subcause) : (s.raise st c).pb = s.pb := rfl
@[simp] theorem State.raise_rxb (st : Status) (c : Subcause) : (s.raise st c).rxb = s.rxb := rfl
@[simp] theorem State.raise_txOffer (st : Status) (c : Subcause) : (s.raise st c).txOffer = none := rfl
@[simp] theorem State.raise_chunkEvt (st : Status) (c : Subcause) : (s.raise st c).chunkEvt = s.chunkEvt := rfl
@[simp] theorem State.raise_img (st : Status) (c : Subcause) : (s.raise st c).img = s.img := rfl
@[simp] theorem State.raise_rx (st : Status) (c : Subcause) : (s.raise st c).rx = s.rx := rfl
@[simp] theorem State.raise_tx (st : Status) (c : Subcause) : (s.raise st c).tx = s.tx := rfl
@[simp] theorem State.raise_host (st : Status) (c : Subcause) : (s.raise st c).host = s.host := rfl
@[simp] theorem State.raise_script (st : Status) (c : Subcause) : (s.raise st c).script = s.script := rfl
@[simp] theorem State.raise_restPins (st : Status) (c : Subcause) : (s.raise st c).restPins = s.restPins := rfl
@[simp] theorem State.raise_boundary (st : Status) (c : Subcause) :
    (s.raise st c).boundary = if st.breaksOff then none else s.boundary := rfl
@[simp] theorem State.raise_params (st : Status) (c : Subcause) : (s.raise st c).params = s.params := rfl

/-! ### `finish` -/

@[simp] theorem State.finish_fsm : s.finish.fsm = .done := rfl
@[simp] theorem State.finish_idx : s.finish.idx = s.idx := rfl
@[simp] theorem State.finish_busy : s.finish.busy = s.busy := rfl
@[simp] theorem State.finish_tmo : s.finish.tmo = s.tmo := rfl
@[simp] theorem State.finish_acc : s.finish.acc = s.acc := rfl
@[simp] theorem State.finish_bitcnt : s.finish.bitcnt = s.bitcnt := rfl
@[simp] theorem State.finish_plen : s.finish.plen = s.plen := rfl
@[simp] theorem State.finish_flen : s.finish.flen = s.flen := rfl
@[simp] theorem State.finish_desc : s.finish.desc = s.desc := rfl
@[simp] theorem State.finish_ack : s.finish.ack = s.ack := rfl
@[simp] theorem State.finish_stByte : s.finish.stByte = s.stByte := rfl
@[simp] theorem State.finish_dataLen : s.finish.dataLen = s.dataLen := rfl
@[simp] theorem State.finish_resValid : s.finish.resValid = s.resValid := rfl
@[simp] theorem State.finish_status : s.finish.status = .ok := rfl
@[simp] theorem State.finish_subcause : s.finish.subcause = s.subcause := rfl
@[simp] theorem State.finish_verVendor : s.finish.verVendor = s.verVendor := rfl
@[simp] theorem State.finish_verMajor : s.finish.verMajor = s.verMajor := rfl
@[simp] theorem State.finish_verMinor : s.finish.verMinor = s.verMinor := rfl
@[simp] theorem State.finish_verPatch : s.finish.verPatch = s.verPatch := rfl
@[simp] theorem State.finish_helpCount : s.finish.helpCount = s.helpCount := rfl
@[simp] theorem State.finish_chipId : s.finish.chipId = s.chipId := rfl
@[simp] theorem State.finish_rdpRep : s.finish.rdpRep = s.rdpRep := rfl
@[simp] theorem State.finish_curPage : s.finish.curPage = s.curPage := rfl
@[simp] theorem State.finish_k : s.finish.k = s.k := rfl
@[simp] theorem State.finish_nchunks : s.finish.nchunks = s.nchunks := rfl
@[simp] theorem State.finish_clen : s.finish.clen = s.clen := rfl
@[simp] theorem State.finish_xferAttempts : s.finish.xferAttempts = s.xferAttempts := rfl
@[simp] theorem State.finish_xferFailures : s.finish.xferFailures = s.xferFailures := rfl
@[simp] theorem State.finish_xferFailMap : s.finish.xferFailMap = s.xferFailMap := rfl
@[simp] theorem State.finish_pb : s.finish.pb = s.pb := rfl
@[simp] theorem State.finish_rxb : s.finish.rxb = s.rxb := rfl
@[simp] theorem State.finish_txOffer : s.finish.txOffer = s.txOffer := rfl
@[simp] theorem State.finish_chunkEvt : s.finish.chunkEvt = s.chunkEvt := rfl
@[simp] theorem State.finish_img : s.finish.img = s.img := rfl
@[simp] theorem State.finish_rx : s.finish.rx = s.rx := rfl
@[simp] theorem State.finish_tx : s.finish.tx = s.tx := rfl
@[simp] theorem State.finish_host : s.finish.host = s.host := rfl
@[simp] theorem State.finish_script : s.finish.script = s.script := rfl
@[simp] theorem State.finish_restPins : s.finish.restPins = s.restPins := rfl
@[simp] theorem State.finish_boundary : s.finish.boundary = s.boundary := rfl
@[simp] theorem State.finish_params : s.finish.params = s.params := rfl

/-! ### `presentResult` -/

@[simp] theorem State.presentResult_fsm : s.presentResult.fsm = .idle := rfl
@[simp] theorem State.presentResult_idx : s.presentResult.idx = s.idx := rfl
@[simp] theorem State.presentResult_busy : s.presentResult.busy = false := rfl
@[simp] theorem State.presentResult_tmo : s.presentResult.tmo = s.tmo := rfl
@[simp] theorem State.presentResult_acc : s.presentResult.acc = s.acc := rfl
@[simp] theorem State.presentResult_bitcnt : s.presentResult.bitcnt = s.bitcnt := rfl
@[simp] theorem State.presentResult_plen : s.presentResult.plen = s.plen := rfl
@[simp] theorem State.presentResult_flen : s.presentResult.flen = s.flen := rfl
@[simp] theorem State.presentResult_desc : s.presentResult.desc = s.desc := rfl
@[simp] theorem State.presentResult_ack : s.presentResult.ack = s.ack := rfl
@[simp] theorem State.presentResult_stByte : s.presentResult.stByte = s.stByte := rfl
@[simp] theorem State.presentResult_dataLen : s.presentResult.dataLen = s.dataLen := rfl
@[simp] theorem State.presentResult_resValid : s.presentResult.resValid = true := rfl
@[simp] theorem State.presentResult_status : s.presentResult.status = s.status := rfl
@[simp] theorem State.presentResult_subcause : s.presentResult.subcause = s.subcause := rfl
@[simp] theorem State.presentResult_verVendor : s.presentResult.verVendor = s.verVendor := rfl
@[simp] theorem State.presentResult_verMajor : s.presentResult.verMajor = s.verMajor := rfl
@[simp] theorem State.presentResult_verMinor : s.presentResult.verMinor = s.verMinor := rfl
@[simp] theorem State.presentResult_verPatch : s.presentResult.verPatch = s.verPatch := rfl
@[simp] theorem State.presentResult_helpCount : s.presentResult.helpCount = s.helpCount := rfl
@[simp] theorem State.presentResult_chipId : s.presentResult.chipId = s.chipId := rfl
@[simp] theorem State.presentResult_rdpRep : s.presentResult.rdpRep = s.rdpRep := rfl
@[simp] theorem State.presentResult_curPage : s.presentResult.curPage = s.curPage := rfl
@[simp] theorem State.presentResult_k : s.presentResult.k = s.k := rfl
@[simp] theorem State.presentResult_nchunks : s.presentResult.nchunks = s.nchunks := rfl
@[simp] theorem State.presentResult_clen : s.presentResult.clen = s.clen := rfl
@[simp] theorem State.presentResult_xferAttempts : s.presentResult.xferAttempts = s.xferAttempts := rfl
@[simp] theorem State.presentResult_xferFailures : s.presentResult.xferFailures = s.xferFailures := rfl
@[simp] theorem State.presentResult_xferFailMap : s.presentResult.xferFailMap = s.xferFailMap := rfl
@[simp] theorem State.presentResult_pb : s.presentResult.pb = s.pb := rfl
@[simp] theorem State.presentResult_rxb : s.presentResult.rxb = s.rxb := rfl
@[simp] theorem State.presentResult_txOffer : s.presentResult.txOffer = s.txOffer := rfl
@[simp] theorem State.presentResult_chunkEvt : s.presentResult.chunkEvt = s.chunkEvt := rfl
@[simp] theorem State.presentResult_img : s.presentResult.img = s.img := rfl
@[simp] theorem State.presentResult_rx : s.presentResult.rx = s.rx := rfl
@[simp] theorem State.presentResult_tx : s.presentResult.tx = s.tx := rfl
@[simp] theorem State.presentResult_host : s.presentResult.host = s.host := rfl
@[simp] theorem State.presentResult_script : s.presentResult.script = s.script := rfl
@[simp] theorem State.presentResult_restPins : s.presentResult.restPins = s.restPins := rfl
@[simp] theorem State.presentResult_boundary : s.presentResult.boundary = s.boundary := rfl
@[simp] theorem State.presentResult_params : s.presentResult.params = s.params := rfl

/-! ### `lowerPulse` -/

@[simp] theorem State.lowerPulse_fsm : s.lowerPulse.fsm = s.fsm := rfl
@[simp] theorem State.lowerPulse_idx : s.lowerPulse.idx = s.idx := rfl
@[simp] theorem State.lowerPulse_busy : s.lowerPulse.busy = s.busy := rfl
@[simp] theorem State.lowerPulse_tmo : s.lowerPulse.tmo = s.tmo := rfl
@[simp] theorem State.lowerPulse_acc : s.lowerPulse.acc = s.acc := rfl
@[simp] theorem State.lowerPulse_bitcnt : s.lowerPulse.bitcnt = s.bitcnt := rfl
@[simp] theorem State.lowerPulse_plen : s.lowerPulse.plen = s.plen := rfl
@[simp] theorem State.lowerPulse_flen : s.lowerPulse.flen = s.flen := rfl
@[simp] theorem State.lowerPulse_desc : s.lowerPulse.desc = s.desc := rfl
@[simp] theorem State.lowerPulse_ack : s.lowerPulse.ack = s.ack := rfl
@[simp] theorem State.lowerPulse_stByte : s.lowerPulse.stByte = s.stByte := rfl
@[simp] theorem State.lowerPulse_dataLen : s.lowerPulse.dataLen = s.dataLen := rfl
@[simp] theorem State.lowerPulse_resValid : s.lowerPulse.resValid = s.resValid := rfl
@[simp] theorem State.lowerPulse_status : s.lowerPulse.status = s.status := rfl
@[simp] theorem State.lowerPulse_subcause : s.lowerPulse.subcause = s.subcause := rfl
@[simp] theorem State.lowerPulse_verVendor : s.lowerPulse.verVendor = s.verVendor := rfl
@[simp] theorem State.lowerPulse_verMajor : s.lowerPulse.verMajor = s.verMajor := rfl
@[simp] theorem State.lowerPulse_verMinor : s.lowerPulse.verMinor = s.verMinor := rfl
@[simp] theorem State.lowerPulse_verPatch : s.lowerPulse.verPatch = s.verPatch := rfl
@[simp] theorem State.lowerPulse_helpCount : s.lowerPulse.helpCount = s.helpCount := rfl
@[simp] theorem State.lowerPulse_chipId : s.lowerPulse.chipId = s.chipId := rfl
@[simp] theorem State.lowerPulse_rdpRep : s.lowerPulse.rdpRep = s.rdpRep := rfl
@[simp] theorem State.lowerPulse_curPage : s.lowerPulse.curPage = s.curPage := rfl
@[simp] theorem State.lowerPulse_k : s.lowerPulse.k = s.k := rfl
@[simp] theorem State.lowerPulse_nchunks : s.lowerPulse.nchunks = s.nchunks := rfl
@[simp] theorem State.lowerPulse_clen : s.lowerPulse.clen = s.clen := rfl
@[simp] theorem State.lowerPulse_xferAttempts : s.lowerPulse.xferAttempts = s.xferAttempts := rfl
@[simp] theorem State.lowerPulse_xferFailures : s.lowerPulse.xferFailures = s.xferFailures := rfl
@[simp] theorem State.lowerPulse_xferFailMap : s.lowerPulse.xferFailMap = s.xferFailMap := rfl
@[simp] theorem State.lowerPulse_pb : s.lowerPulse.pb = s.pb := rfl
@[simp] theorem State.lowerPulse_rxb : s.lowerPulse.rxb = s.rxb := rfl
@[simp] theorem State.lowerPulse_txOffer : s.lowerPulse.txOffer = s.txOffer := rfl
@[simp] theorem State.lowerPulse_chunkEvt : s.lowerPulse.chunkEvt = none := rfl
@[simp] theorem State.lowerPulse_img : s.lowerPulse.img = s.img := rfl
@[simp] theorem State.lowerPulse_rx : s.lowerPulse.rx = s.rx := rfl
@[simp] theorem State.lowerPulse_tx : s.lowerPulse.tx = s.tx := rfl
@[simp] theorem State.lowerPulse_host : s.lowerPulse.host = s.host := rfl
@[simp] theorem State.lowerPulse_script : s.lowerPulse.script = s.script := rfl
@[simp] theorem State.lowerPulse_restPins : s.lowerPulse.restPins = s.restPins := rfl
@[simp] theorem State.lowerPulse_boundary : s.lowerPulse.boundary = s.boundary := rfl
@[simp] theorem State.lowerPulse_params : s.lowerPulse.params = s.params := rfl

/-! ### `linkTakes` -/

@[simp] theorem State.linkTakes_fsm (b : Byte) : (s.linkTakes b).fsm = s.fsm := rfl
@[simp] theorem State.linkTakes_idx (b : Byte) : (s.linkTakes b).idx = s.idx := rfl
@[simp] theorem State.linkTakes_busy (b : Byte) : (s.linkTakes b).busy = s.busy := rfl
@[simp] theorem State.linkTakes_tmo (b : Byte) : (s.linkTakes b).tmo = s.tmo := rfl
@[simp] theorem State.linkTakes_acc (b : Byte) : (s.linkTakes b).acc = s.acc := rfl
@[simp] theorem State.linkTakes_bitcnt (b : Byte) : (s.linkTakes b).bitcnt = s.bitcnt := rfl
@[simp] theorem State.linkTakes_plen (b : Byte) : (s.linkTakes b).plen = s.plen := rfl
@[simp] theorem State.linkTakes_flen (b : Byte) : (s.linkTakes b).flen = s.flen := rfl
@[simp] theorem State.linkTakes_desc (b : Byte) : (s.linkTakes b).desc = s.desc := rfl
@[simp] theorem State.linkTakes_ack (b : Byte) : (s.linkTakes b).ack = s.ack := rfl
@[simp] theorem State.linkTakes_stByte (b : Byte) : (s.linkTakes b).stByte = s.stByte := rfl
@[simp] theorem State.linkTakes_dataLen (b : Byte) : (s.linkTakes b).dataLen = s.dataLen := rfl
@[simp] theorem State.linkTakes_resValid (b : Byte) : (s.linkTakes b).resValid = s.resValid := rfl
@[simp] theorem State.linkTakes_status (b : Byte) : (s.linkTakes b).status = s.status := rfl
@[simp] theorem State.linkTakes_subcause (b : Byte) : (s.linkTakes b).subcause = s.subcause := rfl
@[simp] theorem State.linkTakes_verVendor (b : Byte) : (s.linkTakes b).verVendor = s.verVendor := rfl
@[simp] theorem State.linkTakes_verMajor (b : Byte) : (s.linkTakes b).verMajor = s.verMajor := rfl
@[simp] theorem State.linkTakes_verMinor (b : Byte) : (s.linkTakes b).verMinor = s.verMinor := rfl
@[simp] theorem State.linkTakes_verPatch (b : Byte) : (s.linkTakes b).verPatch = s.verPatch := rfl
@[simp] theorem State.linkTakes_helpCount (b : Byte) : (s.linkTakes b).helpCount = s.helpCount := rfl
@[simp] theorem State.linkTakes_chipId (b : Byte) : (s.linkTakes b).chipId = s.chipId := rfl
@[simp] theorem State.linkTakes_rdpRep (b : Byte) : (s.linkTakes b).rdpRep = s.rdpRep := rfl
@[simp] theorem State.linkTakes_curPage (b : Byte) : (s.linkTakes b).curPage = s.curPage := rfl
@[simp] theorem State.linkTakes_k (b : Byte) : (s.linkTakes b).k = s.k := rfl
@[simp] theorem State.linkTakes_nchunks (b : Byte) : (s.linkTakes b).nchunks = s.nchunks := rfl
@[simp] theorem State.linkTakes_clen (b : Byte) : (s.linkTakes b).clen = s.clen := rfl
@[simp] theorem State.linkTakes_xferAttempts (b : Byte) : (s.linkTakes b).xferAttempts = s.xferAttempts := rfl
@[simp] theorem State.linkTakes_xferFailures (b : Byte) : (s.linkTakes b).xferFailures = s.xferFailures := rfl
@[simp] theorem State.linkTakes_xferFailMap (b : Byte) : (s.linkTakes b).xferFailMap = s.xferFailMap := rfl
@[simp] theorem State.linkTakes_pb (b : Byte) : (s.linkTakes b).pb = s.pb := rfl
@[simp] theorem State.linkTakes_rxb (b : Byte) : (s.linkTakes b).rxb = s.rxb := rfl
@[simp] theorem State.linkTakes_txOffer (b : Byte) : (s.linkTakes b).txOffer = none := rfl
@[simp] theorem State.linkTakes_chunkEvt (b : Byte) : (s.linkTakes b).chunkEvt = s.chunkEvt := rfl
@[simp] theorem State.linkTakes_img (b : Byte) : (s.linkTakes b).img = s.img := rfl
@[simp] theorem State.linkTakes_rx (b : Byte) : (s.linkTakes b).rx = s.rx := rfl
@[simp] theorem State.linkTakes_tx (b : Byte) : (s.linkTakes b).tx = s.tx ++ [b] := rfl
@[simp] theorem State.linkTakes_host (b : Byte) : (s.linkTakes b).host = s.host := rfl
@[simp] theorem State.linkTakes_script (b : Byte) : (s.linkTakes b).script = s.script := rfl
@[simp] theorem State.linkTakes_restPins (b : Byte) : (s.linkTakes b).restPins = s.restPins := rfl
@[simp] theorem State.linkTakes_boundary (b : Byte) : (s.linkTakes b).boundary = s.boundary := rfl
@[simp] theorem State.linkTakes_params (b : Byte) : (s.linkTakes b).params = s.params := rfl

/-! ### `takeByte` -/

@[simp] theorem State.takeByte_fsm : s.takeByte.fsm = s.fsm := rfl
@[simp] theorem State.takeByte_idx : s.takeByte.idx = s.idx := rfl
@[simp] theorem State.takeByte_busy : s.takeByte.busy = s.busy := rfl
@[simp] theorem State.takeByte_tmo : s.takeByte.tmo = 0 := rfl
@[simp] theorem State.takeByte_acc : s.takeByte.acc = s.acc := rfl
@[simp] theorem State.takeByte_bitcnt : s.takeByte.bitcnt = s.bitcnt := rfl
@[simp] theorem State.takeByte_plen : s.takeByte.plen = s.plen := rfl
@[simp] theorem State.takeByte_flen : s.takeByte.flen = s.flen := rfl
@[simp] theorem State.takeByte_desc : s.takeByte.desc = s.desc := rfl
@[simp] theorem State.takeByte_ack : s.takeByte.ack = s.ack := rfl
@[simp] theorem State.takeByte_stByte : s.takeByte.stByte = s.stByte := rfl
@[simp] theorem State.takeByte_dataLen : s.takeByte.dataLen = s.dataLen := rfl
@[simp] theorem State.takeByte_resValid : s.takeByte.resValid = s.resValid := rfl
@[simp] theorem State.takeByte_status : s.takeByte.status = s.status := rfl
@[simp] theorem State.takeByte_subcause : s.takeByte.subcause = s.subcause := rfl
@[simp] theorem State.takeByte_verVendor : s.takeByte.verVendor = s.verVendor := rfl
@[simp] theorem State.takeByte_verMajor : s.takeByte.verMajor = s.verMajor := rfl
@[simp] theorem State.takeByte_verMinor : s.takeByte.verMinor = s.verMinor := rfl
@[simp] theorem State.takeByte_verPatch : s.takeByte.verPatch = s.verPatch := rfl
@[simp] theorem State.takeByte_helpCount : s.takeByte.helpCount = s.helpCount := rfl
@[simp] theorem State.takeByte_chipId : s.takeByte.chipId = s.chipId := rfl
@[simp] theorem State.takeByte_rdpRep : s.takeByte.rdpRep = s.rdpRep := rfl
@[simp] theorem State.takeByte_curPage : s.takeByte.curPage = s.curPage := rfl
@[simp] theorem State.takeByte_k : s.takeByte.k = s.k := rfl
@[simp] theorem State.takeByte_nchunks : s.takeByte.nchunks = s.nchunks := rfl
@[simp] theorem State.takeByte_clen : s.takeByte.clen = s.clen := rfl
@[simp] theorem State.takeByte_xferAttempts : s.takeByte.xferAttempts = s.xferAttempts := rfl
@[simp] theorem State.takeByte_xferFailures : s.takeByte.xferFailures = s.xferFailures := rfl
@[simp] theorem State.takeByte_xferFailMap : s.takeByte.xferFailMap = s.xferFailMap := rfl
@[simp] theorem State.takeByte_pb : s.takeByte.pb = s.pb := rfl
@[simp] theorem State.takeByte_rxb : s.takeByte.rxb = s.rxb := rfl
@[simp] theorem State.takeByte_txOffer : s.takeByte.txOffer = s.txOffer := rfl
@[simp] theorem State.takeByte_chunkEvt : s.takeByte.chunkEvt = s.chunkEvt := rfl
@[simp] theorem State.takeByte_img : s.takeByte.img = s.img := rfl
@[simp] theorem State.takeByte_rx : s.takeByte.rx = s.rx.tail := rfl
@[simp] theorem State.takeByte_tx : s.takeByte.tx = s.tx := rfl
@[simp] theorem State.takeByte_host : s.takeByte.host = s.host := rfl
@[simp] theorem State.takeByte_script : s.takeByte.script = s.script := rfl
@[simp] theorem State.takeByte_restPins : s.takeByte.restPins = s.restPins := rfl
@[simp] theorem State.takeByte_boundary : s.takeByte.boundary = s.boundary := rfl
@[simp] theorem State.takeByte_params : s.takeByte.params = s.params := rfl

/-! ### `resetEngine` -/

@[simp] theorem State.resetEngine_fsm : s.resetEngine.fsm = State.reset.fsm := rfl
@[simp] theorem State.resetEngine_idx : s.resetEngine.idx = State.reset.idx := rfl
@[simp] theorem State.resetEngine_busy : s.resetEngine.busy = State.reset.busy := rfl
@[simp] theorem State.resetEngine_tmo : s.resetEngine.tmo = State.reset.tmo := rfl
@[simp] theorem State.resetEngine_acc : s.resetEngine.acc = State.reset.acc := rfl
@[simp] theorem State.resetEngine_bitcnt : s.resetEngine.bitcnt = State.reset.bitcnt := rfl
@[simp] theorem State.resetEngine_plen : s.resetEngine.plen = State.reset.plen := rfl
@[simp] theorem State.resetEngine_flen : s.resetEngine.flen = State.reset.flen := rfl
@[simp] theorem State.resetEngine_desc : s.resetEngine.desc = State.reset.desc := rfl
@[simp] theorem State.resetEngine_ack : s.resetEngine.ack = State.reset.ack := rfl
@[simp] theorem State.resetEngine_stByte : s.resetEngine.stByte = State.reset.stByte := rfl
@[simp] theorem State.resetEngine_dataLen : s.resetEngine.dataLen = State.reset.dataLen := rfl
@[simp] theorem State.resetEngine_resValid : s.resetEngine.resValid = State.reset.resValid := rfl
@[simp] theorem State.resetEngine_status : s.resetEngine.status = State.reset.status := rfl
@[simp] theorem State.resetEngine_subcause : s.resetEngine.subcause = State.reset.subcause := rfl
@[simp] theorem State.resetEngine_verVendor : s.resetEngine.verVendor = State.reset.verVendor := rfl
@[simp] theorem State.resetEngine_verMajor : s.resetEngine.verMajor = State.reset.verMajor := rfl
@[simp] theorem State.resetEngine_verMinor : s.resetEngine.verMinor = State.reset.verMinor := rfl
@[simp] theorem State.resetEngine_verPatch : s.resetEngine.verPatch = State.reset.verPatch := rfl
@[simp] theorem State.resetEngine_helpCount : s.resetEngine.helpCount = State.reset.helpCount := rfl
@[simp] theorem State.resetEngine_chipId : s.resetEngine.chipId = State.reset.chipId := rfl
@[simp] theorem State.resetEngine_rdpRep : s.resetEngine.rdpRep = State.reset.rdpRep := rfl
@[simp] theorem State.resetEngine_curPage : s.resetEngine.curPage = State.reset.curPage := rfl
@[simp] theorem State.resetEngine_k : s.resetEngine.k = State.reset.k := rfl
@[simp] theorem State.resetEngine_nchunks : s.resetEngine.nchunks = State.reset.nchunks := rfl
@[simp] theorem State.resetEngine_clen : s.resetEngine.clen = State.reset.clen := rfl
@[simp] theorem State.resetEngine_xferAttempts : s.resetEngine.xferAttempts = State.reset.xferAttempts := rfl
@[simp] theorem State.resetEngine_xferFailures : s.resetEngine.xferFailures = State.reset.xferFailures := rfl
@[simp] theorem State.resetEngine_xferFailMap : s.resetEngine.xferFailMap = State.reset.xferFailMap := rfl
@[simp] theorem State.resetEngine_pb : s.resetEngine.pb = State.reset.pb := rfl
@[simp] theorem State.resetEngine_rxb : s.resetEngine.rxb = State.reset.rxb := rfl
@[simp] theorem State.resetEngine_txOffer : s.resetEngine.txOffer = State.reset.txOffer := rfl
@[simp] theorem State.resetEngine_chunkEvt : s.resetEngine.chunkEvt = State.reset.chunkEvt := rfl
@[simp] theorem State.resetEngine_img : s.resetEngine.img = s.img := rfl
@[simp] theorem State.resetEngine_rx : s.resetEngine.rx = s.rx := rfl
@[simp] theorem State.resetEngine_tx : s.resetEngine.tx = s.tx := rfl
@[simp] theorem State.resetEngine_host : s.resetEngine.host = s.host := rfl
@[simp] theorem State.resetEngine_script : s.resetEngine.script = s.script := rfl
@[simp] theorem State.resetEngine_restPins : s.resetEngine.restPins = s.restPins := rfl
@[simp] theorem State.resetEngine_boundary :
    s.resetEngine.boundary = if s.fsm.sending || s.fsm.receiving then none else s.boundary := rfl
@[simp] theorem State.resetEngine_params : s.resetEngine.params = s.params := rfl

/-! ### The pins -/

@[simp] theorem State.lowerPulse_now : s.lowerPulse.now = s.now := rfl
@[simp] theorem State.lowerPulse_rxOffered : s.lowerPulse.rxOffered = s.rxOffered := rfl
@[simp] theorem State.lowerPulse_portDescriptor : s.lowerPulse.portDescriptor = s.portDescriptor := rfl

theorem State.now_quiet (h : Quiet s) : s.now = Stim.quiet := by simp [State.now, h.1, h.2]

/-- Outside `IDLE` the receive side is the engine's alone. -/
theorem State.rxKept_of_busy (h : s.fsm ≠ .idle) : s.rxKept = s.rx := if_neg h

theorem State.boundaryKept_of_busy (h : s.fsm ≠ .idle) : s.boundaryKept = s.boundary :=
  if_neg fun e => h e.1

/-- Outside `IDLE`, moving on changes the script and adds what arrives, nothing else. -/
theorem State.advance_of_busy (h : s.fsm ≠ .idle) :
    s.advance = { s with script := s.script.tail, rx := s.rx ++ s.now.arrive } := by
  rw [State.advance, s.rxKept_of_busy h, s.boundaryKept_of_busy h]

theorem State.rxKept_quiet (h : Quiet s) : s.rxKept = s.rx := by
  rw [State.rxKept, s.now_quiet h]; split <;> rfl

theorem State.boundaryKept_quiet (h : Quiet s) : s.boundaryKept = s.boundary := by
  rw [State.boundaryKept, s.now_quiet h]; exact if_neg fun e => nomatch e.2

/-- Once the pins are quiet, moving on changes nothing. -/
theorem State.advance_quiet (h : Quiet s) : s.advance = s := by
  rw [State.advance, s.now_quiet h, s.rxKept_quiet h, s.boundaryKept_quiet h]
  simp only [Stim.quiet, List.append_nil, h.1, List.tail_nil]
  cases s
  cases h.1
  rfl

end Sys2Proof.Machine
end

