-- ==== Sys2Proof/Laws/Crc.lean ====
section
/-! SUPPORT. The laws of the CRC32Engine. -/

namespace Sys2Proof.Machine

theorem crcShifts_add (p : CrcParams) (m n : Nat) (a : Word) :
    crcShifts p (m + n) a = crcShifts p n (crcShifts p m a) := by
  induction m generalizing a with
  | zero => simp [crcShifts]
  | succ m ih => rw [Nat.succ_add, crcShifts, crcShifts, ih]

theorem crcShifts_succ' (p : CrcParams) (n : Nat) (a : Word) :
    crcShifts p (n + 1) a = crcShift p (crcShifts p n a) := by
  rw [crcShifts_add]; rfl

@[simp] theorem crcAbsorbAll_nil (p : CrcParams) (a : Word) : crcAbsorbAll p a [] = a := rfl

@[simp] theorem crcAbsorbAll_cons (p : CrcParams) (a : Word) (b : Byte) (bs : List Byte) :
    crcAbsorbAll p a (b :: bs) = crcAbsorbAll p (crcAbsorb p a b) bs := rfl

theorem crcAbsorbAll_append (p : CrcParams) (a : Word) (bs cs : List Byte) :
    crcAbsorbAll p a (bs ++ cs) = crcAbsorbAll p (crcAbsorbAll p a bs) cs := by
  simp [crcAbsorbAll, List.foldl_append]

/-- Injecting 0x00 changes nothing (R102). -/
@[simp] theorem crcInject_zero (p : CrcParams) (a : Word) : crcInject p a 0 = a := by
  simp [crcInject]

/-- The bit step is linear over GF(2) (R112). -/
theorem crcShift_xor (p : CrcParams) (a b : Word) :
    crcShift p (a ^^^ b) = crcShift p a ^^^ crcShift p b := by
  have hs : (a ^^^ b) <<< 1 = (a <<< 1) ^^^ (b <<< 1) := BitVec.shiftLeft_xor_distrib a b 1
  unfold crcShift
  rw [hs, BitVec.getLsbD_xor]
  cases ha : a.getLsbD 31 <;> cases hb : b.getLsbD 31 <;>
    simp only [Bool.xor_true, Bool.xor_false, Bool.not_true, Bool.not_false, if_true, if_false,
      Bool.false_eq_true] <;> ext i <;>
    simp only [BitVec.getElem_xor] <;>
    cases (a <<< 1)[i] <;> cases (b <<< 1)[i] <;> cases p.poly[i] <;> rfl

theorem crcShifts_xor (p : CrcParams) (n : Nat) (a b : Word) :
    crcShifts p n (a ^^^ b) = crcShifts p n a ^^^ crcShifts p n b := by
  induction n generalizing a b with
  | zero => rfl
  | succ n ih => rw [crcShifts, crcShift_xor, ih]; rfl

end Sys2Proof.Machine
end

