-- ==== Sys2Proof/Laws/Memory.lean ====
section
/-! SUPPORT. The laws of buffers: reading after writing, and the canonical form. -/

namespace Sys2Proof.Machine

variable {m : Memory}

theorem Memory.wf_nil : Memory.wf [] := by simp [Memory.wf]

theorem Memory.wf_cons {c : Host.Cell} :
    Memory.wf (c :: m) ↔ (∀ d ∈ m, c.1 < d.1) ∧ c.2 ≠ Memory.fill ∧ Memory.wf m := by
  simp only [Memory.wf, List.pairwise_cons, List.mem_cons, forall_eq_or_imp]
  tauto

/-- An index that no entry has reads as `fill`. -/
theorem Memory.read_unlisted {a : Nat} (h : ∀ c ∈ m, c.1 ≠ a) : Memory.read m a = Memory.fill := by
  induction m with
  | nil => rfl
  | cons c m ih =>
    simp only [List.mem_cons, forall_eq_or_imp] at h
    simp [Memory.read, h.1, ih h.2]

/-- Every entry after a write was there before, or is the one written. -/
theorem Memory.mem_write {a : Nat} {b : Byte} {d : Host.Cell} (h : d ∈ Memory.write m a b) :
    d ∈ m ∨ d = (a, b) := by
  induction m with
  | nil =>
    simp only [Memory.write] at h
    split at h <;> simp_all
  | cons c m ih =>
    simp only [Memory.write] at h
    split_ifs at h <;> simp only [List.mem_cons] at h ⊢ <;> tauto

/-- A write keeps the canonical form. -/
theorem Memory.write_wf (h : Memory.wf m) (a : Nat) (b : Byte) : Memory.wf (Memory.write m a b) := by
  induction m with
  | nil =>
    simp only [Memory.write]
    split <;> simp_all [Memory.wf]
  | cons c m ih =>
    have hc := Memory.wf_cons.1 h
    simp only [Memory.write]
    split_ifs with h1 h2 h2 h3
    · exact h
    · refine Memory.wf_cons.2 ⟨fun d hd => ?_, h2, h⟩
      rcases List.mem_cons.1 hd with rfl | hd
      · exact h1
      · exact h1.trans (hc.1 d hd)
    · exact hc.2.2
    · refine Memory.wf_cons.2 ⟨fun d hd => ?_, h3, hc.2.2⟩
      subst h2
      exact hc.1 d hd
    · refine Memory.wf_cons.2 ⟨fun d hd => ?_, hc.2.1, ih hc.2.2⟩
      rcases Memory.mem_write hd with hd | rfl
      · exact hc.1 d hd
      · simp only; omega

/-- A write leaves every other index alone. -/
theorem Memory.read_write_other {a c : Nat} (b : Byte) (h : c ≠ a) :
    Memory.read (Memory.write m a b) c = Memory.read m c := by
  induction m with
  | nil =>
    simp only [Memory.write]
    split
    · rfl
    · simp [Memory.read, Ne.symm h]
  | cons d m ih =>
    simp only [Memory.write]
    split_ifs with h1 h2 h2 h3
    · rfl
    · simp [Memory.read, Ne.symm h]
    · have : d.1 ≠ c := by omega
      simp [Memory.read, this]
    · have : d.1 ≠ c := by omega
      simp [Memory.read, this, Ne.symm h]
    · simp only [Memory.read, ih]

/-- The written index reads as what was written. -/
theorem Memory.read_write_same (h : Memory.wf m) (a : Nat) (b : Byte) :
    Memory.read (Memory.write m a b) a = b := by
  induction m with
  | nil =>
    simp only [Memory.write]
    split
    · simp_all [Memory.read]
    · simp [Memory.read]
  | cons d m ih =>
    have hd := Memory.wf_cons.1 h
    simp only [Memory.write]
    split_ifs with h1 h2 h2 h3
    · rw [h2]
      refine Memory.read_unlisted fun c hc => ?_
      rcases List.mem_cons.1 hc with rfl | hc
      · omega
      · have := hd.1 c hc
        omega
    · simp [Memory.read]
    · rw [h3]
      refine Memory.read_unlisted fun c hc => ?_
      have := hd.1 c hc
      omega
    · simp [Memory.read]
    · have : d.1 ≠ a := by omega
      simp [Memory.read, this, ih hd.2.2]

theorem Memory.writeList_wf (h : Memory.wf m) (a : Nat) (bs : List Byte) :
    Memory.wf (Memory.writeList m a bs) := by
  induction bs generalizing m a with
  | nil => exact h
  | cons b bs ih => exact ih (Memory.write_wf h a b) (a + 1)

/-- Every entry after a sequence is written was there before, or lies in the written range. -/
theorem Memory.mem_writeList {a : Nat} {bs : List Byte} {d : Host.Cell}
    (h : d ∈ Memory.writeList m a bs) : d ∈ m ∨ (a ≤ d.1 ∧ d.1 < a + bs.length) := by
  induction bs generalizing m a with
  | nil => exact .inl h
  | cons b bs ih =>
    simp only [List.length_cons]
    rcases ih h with h | h
    · rcases Memory.mem_write h with h | rfl
      · exact .inl h
      · exact .inr ⟨le_refl _, by simp only; omega⟩
    · right; omega

theorem Memory.read_writeList_other {a c : Nat} (bs : List Byte) (h : c < a ∨ a + bs.length ≤ c) :
    Memory.read (Memory.writeList m a bs) c = Memory.read m c := by
  induction bs generalizing m a with
  | nil => rfl
  | cons b bs ih =>
    simp only [List.length_cons] at h
    rw [Memory.writeList, ih (by omega), Memory.read_write_other b (by omega)]

theorem Memory.read_writeList_at (h : Memory.wf m) (a : Nat) (bs : List Byte) (j : Nat)
    (hj : j < bs.length) : Memory.read (Memory.writeList m a bs) (a + j) = bs[j] := by
  induction bs generalizing m a j with
  | nil => simp at hj
  | cons b bs ih =>
    cases j with
    | zero =>
      rw [Memory.writeList, Memory.read_writeList_other bs (by omega)]
      simpa using Memory.read_write_same h a b
    | succ j =>
      have := ih (Memory.write_wf h a b) (a + 1) j (by simpa using hj)
      rw [Memory.writeList, show a + (j + 1) = a + 1 + j by omega, this]
      simp

@[simp] theorem Memory.length_readList (m : Memory) (a n : Nat) : (m.readList a n).length = n := by
  induction n generalizing a with
  | zero => rfl
  | succ n ih => simp [Memory.readList, ih]

theorem Memory.readList_add (m : Memory) (a n k : Nat) :
    m.readList a (n + k) = m.readList a n ++ m.readList (a + n) k := by
  induction n generalizing a with
  | zero => simp [Memory.readList]
  | succ n ih =>
    rw [Nat.add_right_comm]
    simp only [Memory.readList, List.cons_append, ih]
    rw [Nat.add_assoc, Nat.add_comm 1 n]

theorem Memory.getElem_readList (m : Memory) (a n j : Nat) (h : j < (m.readList a n).length) :
    (m.readList a n)[j] = m.read (a + j) := by
  induction n generalizing a j with
  | zero => simp [Memory.readList] at h
  | succ n ih =>
    cases j with
    | zero => simp [Memory.readList]
    | succ j =>
      have := ih (a + 1) j (by simpa [Memory.readList] using h)
      simp only [Memory.readList, List.getElem_cons_succ]
      rw [this, show a + 1 + j = a + (j + 1) by omega]

/-- What was written is read back. -/
theorem Memory.readList_writeList (h : Memory.wf m) (a : Nat) (bs : List Byte) :
    (Memory.writeList m a bs).readList a bs.length = bs := by
  refine List.ext_getElem (by simp) fun j h1 h2 => ?_
  rw [Memory.getElem_readList, Memory.read_writeList_at h a bs j h2]

/-- `OPROM[i] = 0x10 + i` (10_state.md R29). -/
theorem oprom_read (i : Nat) (h : i < 10) : oprom.read i = BitVec.ofNat 8 (0x10 + i) := by
  interval_cases i <;> rfl

end Sys2Proof.Machine
end

