-- ==== Sys2Proof/Laws/Exec.lean ====
section
/-! SUPPORT. What `exec` does, once: every instruction is `runCommand` of its command, and a state of the
sequencer names the one step that is made in it. Provers cite these and do not unfold the meanings. -/

namespace Sys2Proof.Machine

/-- What an acknowledged response is decoded to, per instruction (42_command_protocol.md R143 to R152). -/
def onAckOf : Instr → State → State
  | .getVersion => needsData 4 takeVersion
  | .getHelp => decodeHelp
  | .getChipId => needsData 2 takeChipId
  | .getRdpStatus => needsData 1 takeRdpStatus
  | .goToAddress _ _ => noDecode
  | .eraseFlash _ _ => noDecode
  | .memWrite _ _ => toNextChunk
  | .memRead _ _ _ => noDecode
  | .jumpToApp _ => noDecode
  | .changeRdpLevel _ => noDecode

/-- The command record of an instruction. -/
def commandOf : Instr → Command
  | .memWrite page imgLen =>
    { latch := (Instr.memWrite page imgLen).latch, setUp := transferSetUp page imgLen,
      marshal := marshalChunk imgLen, decode := toNextChunk }
  | i => oneExchange i (encode i []) (onAckOf i)

/-- Every arm of `exec` is `runCommand`: the opcode read from OPROM is the one of the encoding. -/
theorem exec_eq (i : Instr) (s : State) : exec i s = runCommand (commandOf i) s := by
  cases i <;> rfl

@[simp] theorem commandOf_latch (i : Instr) : (commandOf i).latch = i.latch := by cases i <;> rfl

theorem commandOf_oneExchange {i : Instr} (h : i.isTransfer = false) :
    commandOf i = oneExchange i (encode i []) (onAckOf i) := by
  cases i <;> first | rfl | cases h

variable {i : Instr} {s : State}

theorem exec_idle (h : s.fsm = .idle) :
    exec i s = accept i.latch (commandOf i).setUp s.lowerPulse := by
  rw [exec_eq, runCommand, h]; simp

theorem exec_marshal (h : s.fsm = .marshal) : exec i s = (commandOf i).marshal s.lowerPulse := by
  rw [exec_eq, runCommand, h]

theorem exec_txLen (h : s.fsm = .txLen) : exec i s = linkGuard txLenStep s.lowerPulse := by
  rw [exec_eq, runCommand, h]

theorem exec_txPayload (h : s.fsm = .txPayload) : exec i s = linkGuard txPayloadStep s.lowerPulse := by
  rw [exec_eq, runCommand, h]

theorem exec_txCrc (h : s.fsm = .txCrc) : exec i s = linkGuard txCrcStep s.lowerPulse := by
  rw [exec_eq, runCommand, h]

theorem exec_rxStatus (h : s.fsm = .rxStatus) :
    exec i s = linkGuard (receive gotStatus) s.lowerPulse := by
  rw [exec_eq, runCommand, h]

theorem exec_rxLen (h : s.fsm = .rxLen) : exec i s = linkGuard (receive gotLength) s.lowerPulse := by
  rw [exec_eq, runCommand, h]

theorem exec_rxData (h : s.fsm = .rxData) : exec i s = linkGuard (receive gotData) s.lowerPulse := by
  rw [exec_eq, runCommand, h]

theorem exec_decode (h : s.fsm = .decode) : exec i s = .next ((commandOf i).decode s.lowerPulse) := by
  rw [exec_eq, runCommand, h]

theorem exec_nextChunk (h : s.fsm = .nextChunk) : exec i s = .next (nextChunkStep s.lowerPulse) := by
  rw [exec_eq, runCommand, h]

theorem exec_done (h : s.fsm = .done) : exec i s = .next s.lowerPulse.presentResult := by
  rw [exec_eq, runCommand, h]

/-- A payload that is known from the operands has at most nine bytes (30_encoding.md R76 to R81). -/
theorem length_encode_le (h : i.isTransfer = false) : (encode i []).length ≤ 9 := by
  cases i <;> simp_all [encode, addrField, le32, Instr.isTransfer]

theorem length_encode_pos (chunk : List Byte) : 1 ≤ (encode i chunk).length := by
  cases i <;> simp [encode]

/-- The payload of a chunk is the encoding of a one-chunk MemWrite (30_encoding.md R78, R94). -/
theorem chunkPayload_eq_encode (page : Byte) (chunk : List Byte) :
    chunkPayload page chunk = encode (.memWrite page (BitVec.ofNat 18 chunk.length)) chunk := by
  have e : (BitVec.ofNat 18 chunk.length).setWidth 16 = BitVec.ofNat 16 chunk.length := by
    apply BitVec.eq_of_toNat_eq
    simp only [BitVec.toNat_setWidth, BitVec.toNat_ofNat]
    omega
  simp only [chunkPayload, encode, e]
  rfl

@[simp] theorem length_chunkPayload (page : Byte) (chunk : List Byte) :
    (chunkPayload page chunk).length = chunk.length + 4 := by
  simp [chunkPayload, le16]

@[simp] theorem length_chunkBytes (img : Memory) (n j : Nat) :
    (chunkBytes img n j).length = chunkLength n j := by
  simp [chunkBytes]

theorem chunkLength_le (n j : Nat) : chunkLength n j ≤ 1024 := by
  simp only [chunkLength, Config.chunkMax]; omega

/-! ### Descriptors and instructions -/

/-- The only selectors that select nothing are 0 and 11 to 15 (30_encoding.md R87). -/
theorem instr?_eq_none {d : Descriptor} : d.instr? = none ↔ d.sel = 0 ∨ 10 < d.sel.toNat := by
  have h := d.sel.isLt
  have e : d.sel = 0 ↔ d.sel.toNat = 0 := by
    constructor
    · intro h; simp [h]
    · intro h; exact BitVec.eq_of_toNat_eq (by simpa using h)
  rw [e]
  unfold Descriptor.instr?
  generalize d.sel.toNat = n at h ⊢
  interval_cases n <;> simp

/-- The command of a descriptor has that descriptor's selector. -/
theorem selector_of_instr? {d : Descriptor} (h : d.instr? = some i) : d.sel = i.selector := by
  have e : ∀ n : Nat, d.sel.toNat = n → d.sel = BitVec.ofNat 4 n := by
    intro n hn
    apply BitVec.eq_of_toNat_eq
    have := d.sel.isLt
    simp only [BitVec.toNat_ofNat]; omega
  unfold Descriptor.instr? at h
  split at h <;> simp only [Option.some.injEq, reduceCtorEq] at h <;> subst h <;>
    exact e _ (by assumption)

theorem selector_eq_seven : i.selector = 7 ↔ i.isTransfer = true := by
  cases i <;> simp [Instr.selector, Instr.isTransfer]

/-- A descriptor that passes validation selects a command (42_command_protocol.md R142). -/
theorem instr?_of_validate {d : Descriptor} (h : validate d = none) : ∃ i, d.instr? = some i := by
  rcases hi : d.instr? with _ | i
  · rw [validate, if_pos (instr?_eq_none.1 hi)] at h
    cases h
  · exact ⟨i, rfl⟩

end Sys2Proof.Machine
end

