-- ==== Sys2Proof/Laws/Ops.lean ====
section
/-! SUPPORT. For each shared operation, one lemma that says everything it can do. -/

namespace Sys2Proof.Machine

variable {s t : State}

/-- A wait leaves everything alone but the timer, or ends the command with `NO_RESPONSE`. -/
theorem waitForByte_cases (s : State) :
    (∃ n, s.waitForByte = { s with tmo := n }) ∨
    (∃ n T, s.params.rxTimeout = some T ∧ T ≤ n ∧
      s.waitForByte = State.raise .noResponse .none { s with tmo := n }) := by
  unfold State.waitForByte
  split
  · exact .inl ⟨s.tmo, rfl⟩
  · split_ifs with h1 h2
    · exact .inr ⟨_, _, by assumption, h2, rfl⟩
    · exact .inl ⟨_, rfl⟩
    · exact .inl ⟨s.tmo, rfl⟩

/-- "Absorb and send": an inject, a bit step (the last puts the byte on offer), the taking of the
offered byte, or nothing. -/
theorem absorbAndSend_cases (b : Byte) (taken : State → State) (s : State) :
    (s.bitcnt = 0 ∧ s.txOffer = none ∧ absorbAndSend b taken s = s.crcInject b) ∨
    (s.bitcnt ≠ 0 ∧ s.bitcnt ≠ 1 ∧ absorbAndSend b taken s = s.crcBitStep) ∨
    (s.bitcnt = 1 ∧ absorbAndSend b taken s = { s.crcBitStep with txOffer := some b }) ∨
    (∃ o, s.bitcnt = 0 ∧ s.txOffer = some o ∧ s.now.txReady = true ∧
      absorbAndSend b taken s = taken (s.linkTakes o)) ∨
    (∃ o, s.bitcnt = 0 ∧ s.txOffer = some o ∧ s.now.txReady = false ∧ absorbAndSend b taken s = s) := by
  unfold absorbAndSend
  by_cases h0 : s.bitcnt = 0
  · rw [if_neg (not_not.2 h0)]
    rcases ho : s.txOffer with _ | o
    · exact .inl ⟨h0, rfl, rfl⟩
    · rcases hr : s.now.txReady
      · exact .inr (.inr (.inr (.inr ⟨o, h0, rfl, rfl, by simp⟩)))
      · exact .inr (.inr (.inr (.inl ⟨o, h0, rfl, rfl, by simp⟩)))
  · rw [if_pos h0]
    by_cases h1 : s.bitcnt = 1
    · exact .inr (.inr (.inl ⟨h1, by rw [if_pos h1]⟩))
    · exact .inr (.inl ⟨h0, h1, by rw [if_neg h1]⟩)

theorem absorbAndSend_inject (b : Byte) (taken : State → State) (h0 : s.bitcnt = 0)
    (ho : s.txOffer = none) : absorbAndSend b taken s = s.crcInject b := by
  unfold absorbAndSend; rw [if_neg (not_not.2 h0), ho]

theorem absorbAndSend_bitStep (b : Byte) (taken : State → State) (h0 : s.bitcnt ≠ 0)
    (h1 : s.bitcnt ≠ 1) : absorbAndSend b taken s = s.crcBitStep := by
  unfold absorbAndSend; rw [if_pos h0, if_neg h1]

theorem absorbAndSend_last (b : Byte) (taken : State → State) (h1 : s.bitcnt = 1) :
    absorbAndSend b taken s = { s.crcBitStep with txOffer := some b } := by
  unfold absorbAndSend; rw [if_pos (by rw [h1]; decide), if_pos h1]

theorem absorbAndSend_taken (b : Byte) (taken : State → State) {o : Byte} (h0 : s.bitcnt = 0)
    (ho : s.txOffer = some o) (hr : s.now.txReady = true) :
    absorbAndSend b taken s = taken (s.linkTakes o) := by
  unfold absorbAndSend; rw [if_neg (not_not.2 h0), ho]; dsimp only; rw [hr, if_pos rfl]

theorem prefixTaken_first (h : s.idx.toNat < 1) : prefixTaken s = { s with idx := s.idx + 1 } :=
  if_pos (by omega)

theorem prefixTaken_last (h : ¬ s.idx.toNat < 1) :
    prefixTaken s = { s with idx := 0, fsm := .txPayload } := if_neg (by omega)

theorem trailerTaken_first (h : s.idx.toNat < 3) : trailerTaken s = { s with idx := s.idx + 1 } :=
  if_pos (by omega)

theorem trailerTaken_last (h : ¬ s.idx.toNat < 3) :
    trailerTaken s = { s with idx := 0, tmo := 0, fsm := .rxStatus } := if_neg (by omega)

/-- Sending with no CRC: the byte is put on offer, the offered byte is taken, or nothing. -/
theorem sendOnly_cases (b : Byte) (taken : State → State) (s : State) :
    (s.txOffer = none ∧ sendOnly b taken s = { s with txOffer := some b }) ∨
    (∃ o, s.txOffer = some o ∧ s.now.txReady = true ∧ sendOnly b taken s = taken (s.linkTakes o)) ∨
    (∃ o, s.txOffer = some o ∧ s.now.txReady = false ∧ sendOnly b taken s = s) := by
  unfold sendOnly
  rcases ho : s.txOffer with _ | o
  · simp
  · rcases hr : s.now.txReady <;> simp

/-- A link failure, or the guarded step. -/
theorem linkGuard_next {k : State → Result} (h : linkGuard k s = .next t) :
    (s.now.linkErr = true ∧ t = State.raise .transport .none s) ∨
    (s.now.linkErr = false ∧ k s = .next t) := by
  unfold linkGuard at h
  rcases he : s.now.linkErr
  · rw [he, if_neg Bool.false_ne_true] at h
    exact .inr ⟨rfl, h⟩
  · rw [he, if_pos rfl] at h
    exact .inl ⟨rfl, (Host.Outcome.next.inj h).symm⟩

/-- A step of `RxByte()`: a byte is taken from the head of the receive side, or the engine waits. -/
theorem receive_next {got : Byte → State → Result} (h : receive got s = .next t) :
    (∃ b bs, s.rx = b :: bs ∧ s.rxOffered = some b ∧ got b s.takeByte = .next t) ∨
    (s.rxOffered = none ∧ t = s.waitForByte) := by
  unfold receive at h
  split at h
  · rename_i b hb
    have hx : s.rx.head? = some b := by
      unfold State.rxOffered at hb
      split at hb
      · exact hb
      · cases hb
    rcases hr : s.rx with _ | ⟨c, bs⟩
    · simp [hr] at hx
    · have : c = b := by simpa [hr] using hx
      subst this
      exact .inl ⟨c, bs, rfl, hb, h⟩
  · simp only [Host.Outcome.next.injEq] at h
    exact .inr ⟨by assumption, h.symm⟩

/-- An accept latches the descriptor; then it is rejected with the sub-cause of the first failing test,
or set up. -/
theorem accept_cases (latch : Descriptor → Descriptor) (setUp : State → Result) (s : State) :
    (∃ c, validate (latch s.portDescriptor) = some c ∧ accept latch setUp s =
      .next (State.raise .localValidation c (acceptDescriptor (latch s.portDescriptor) s))) ∨
    (validate (latch s.portDescriptor) = none ∧
      accept latch setUp s = setUp (acceptDescriptor (latch s.portDescriptor) s)) := by
  unfold accept
  simp only [acceptDescriptor]
  rcases hv : validate (latch s.portDescriptor) with _ | c
  · exact .inr ⟨rfl, rfl⟩
  · exact .inl ⟨c, rfl, rfl⟩

/-- An acknowledged decode with enough data finishes; with too little it is `SHORT_RESPONSE`. -/
theorem needsData_cases (n : Nat) (use : State → State) (s : State) :
    (s.dataLen.toNat < n ∧ needsData n use s = State.raise .shortResponse .none s) ∨
    (n ≤ s.dataLen.toNat ∧ needsData n use s = (use s).finish) := by
  unfold needsData
  split
  · exact .inl ⟨by assumption, rfl⟩
  · exact .inr ⟨by omega, rfl⟩

/-- The next state of `step` is the engine's, with the pins moved on. -/
theorem thenAdvance_next {r : Result} (h : thenAdvance r = .next t) :
    ∃ u, r = .next u ∧ t = u.advance := by
  cases r <;> simp [thenAdvance] at h
  exact ⟨_, rfl, h.symm⟩

end Sys2Proof.Machine
end

