-- ==== Sys2Proof/Laws/Moves.lean ====
section
/-! SUPPORT. Everything a step can do, said once: `Move i s t` lists the moves of the sequencer, and
`exec_move` and `step_cases` say that a next state comes from one of them. A rule about all steps is
proved by cases on these, with nothing unfolded. -/

namespace Sys2Proof.Machine

/-- The byte that is absorbed and sent in `s` (43_protocol_sequencer.md R183, R184). -/
inductive Covered (s : State) : Byte → Prop where
  | len (hf : s.fsm = .txLen) : Covered s (byteOfHalf s.flen s.idx.toNat)
  | payload (hf : s.fsm = .txPayload) (hp : s.idx < s.plen) (hb : s.idx.toNat < Config.payloadMax) :
      Covered s (s.pb.read s.idx.toNat)

/-- The moves of command `i` from `s`. -/
inductive Move (i : Instr) (s : State) : State → Prop where
  | reject (c : Subcause) (hf : s.fsm = .idle) (hv : validate (i.latch s.portDescriptor) = some c) :
      Move i s (State.raise .localValidation c (acceptDescriptor (i.latch s.portDescriptor) s.lowerPulse))
  | accept (hf : s.fsm = .idle) (hv : validate (i.latch s.portDescriptor) = none)
      (ht : i.isTransfer = false) :
      Move i s { acceptDescriptor (i.latch s.portDescriptor) s.lowerPulse with fsm := .marshal }
  | acceptTransfer (page : Byte) (len : BitVec 18) (hi : i = .memWrite page len) (hf : s.fsm = .idle)
      (hv : validate (i.latch s.portDescriptor) = none) (hl : len.toNat ≤ Config.imageMax)
      (hp : MemWriteAdmitted page len.toNat) :
      Move i s { acceptDescriptor (i.latch s.portDescriptor) s.lowerPulse with
        nchunks := BitVec.ofNat 8 (chunkCount len.toNat), curPage := page, k := 0,
        xferAttempts := 0, xferFailures := 0, xferFailMap := 0,
        fsm := if chunkCount len.toNat = 0 then .done else .marshal }
  | marshal (hf : s.fsm = .marshal) (ht : i.isTransfer = false) :
      Move i s (loadPayload (encode i []) s.lowerPulse)
  | marshalChunk (page : Byte) (len : BitVec 18) (hi : i = .memWrite page len) (hf : s.fsm = .marshal)
      (hb : Config.chunkMax * s.k.toNat + chunkLength len.toNat s.k.toNat ≤ Config.imageMax) :
      Move i s (loadPayload (chunkPayload s.curPage (chunkBytes s.img len.toNat s.k.toNat))
        { s.lowerPulse with clen := BitVec.ofNat 11 (chunkLength len.toNat s.k.toNat) })
  | linkFails (hf : s.fsm.sending = true ∨ s.fsm.receiving = true) (hl : s.now.linkErr = true) :
      Move i s (State.raise .transport .none s.lowerPulse)
  | inject (b : Byte) (hc : Covered s b) (hl : s.now.linkErr = false) (h0 : s.bitcnt = 0)
      (ho : s.txOffer = none) : Move i s (s.lowerPulse.crcInject b)
  | bitStep (b : Byte) (hc : Covered s b) (hl : s.now.linkErr = false) (h0 : s.bitcnt ≠ 0)
      (h1 : s.bitcnt ≠ 1) : Move i s s.lowerPulse.crcBitStep
  | lastBitStep (b : Byte) (hc : Covered s b) (hl : s.now.linkErr = false) (h1 : s.bitcnt = 1) :
      Move i s { s.lowerPulse.crcBitStep with txOffer := some b }
  | lenTaken (o : Byte) (hf : s.fsm = .txLen) (hl : s.now.linkErr = false) (h0 : s.bitcnt = 0)
      (ho : s.txOffer = some o) (hr : s.now.txReady = true) :
      Move i s (prefixTaken (s.lowerPulse.linkTakes o))
  | payloadTaken (o : Byte) (hf : s.fsm = .txPayload) (hp : s.idx < s.plen)
      (hl : s.now.linkErr = false) (h0 : s.bitcnt = 0)
      (ho : s.txOffer = some o) (hr : s.now.txReady = true) :
      Move i s (payloadTaken (s.lowerPulse.linkTakes o))
  | held (o : Byte) (hf : s.fsm.sending = true) (hl : s.now.linkErr = false)
      (h0 : s.fsm = .txCrc ∨ s.bitcnt = 0 ∧ ∃ b, Covered s b)
      (ho : s.txOffer = some o) (hr : s.now.txReady = false) : Move i s s.lowerPulse
  | payloadEnd (hf : s.fsm = .txPayload) (hl : s.now.linkErr = false) (hp : ¬ s.idx < s.plen)
      (h0 : s.bitcnt = 0) : Move i s { s.lowerPulse with idx := 0, fsm := .txCrc }
  /-- Only in states no run reaches: a byte is absorbed and none is there to send. -/
  | strayBitStep (hf : s.fsm = .txPayload) (hl : s.now.linkErr = false) (hp : ¬ s.idx < s.plen)
      (h0 : s.bitcnt ≠ 0) : Move i s s.lowerPulse.crcBitStep
  | trailerOffered (hf : s.fsm = .txCrc) (hl : s.now.linkErr = false) (ho : s.txOffer = none) :
      Move i s { s.lowerPulse with txOffer := some (byteOfWord s.acc s.idx.toNat) }
  | trailerTaken (o : Byte) (hf : s.fsm = .txCrc) (hl : s.now.linkErr = false)
      (ho : s.txOffer = some o) (hr : s.now.txReady = true) :
      Move i s (trailerTaken (s.lowerPulse.linkTakes o))
  | ackRead (b : Byte) (bs : List Byte) (hf : s.fsm = .rxStatus) (hl : s.now.linkErr = false)
      (hx : s.rx = b :: bs) (ho : s.rxOffered = some b) (hb : b = 0x01) :
      Move i s { s.lowerPulse.takeByte with stByte := b, fsm := .rxLen }
  | nackRead (b : Byte) (bs : List Byte) (hf : s.fsm = .rxStatus) (hl : s.now.linkErr = false)
      (hx : s.rx = b :: bs) (ho : s.rxOffered = some b) (hb : b ≠ 0x01) :
      Move i s { s.lowerPulse.takeByte with stByte := b, ack := false, dataLen := 0, fsm := .decode }
  | lengthRead (b : Byte) (bs : List Byte) (hf : s.fsm = .rxLen) (hl : s.now.linkErr = false)
      (hx : s.rx = b :: bs) (ho : s.rxOffered = some b) :
      Move i s { s.lowerPulse.takeByte with
        dataLen := b, ack := true, idx := 0, fsm := if b = 0 then .decode else .rxData }
  | dataRead (b : Byte) (bs : List Byte) (hf : s.fsm = .rxData) (hl : s.now.linkErr = false)
      (hx : s.rx = b :: bs) (ho : s.rxOffered = some b) (hi : s.idx.toNat < Config.respDataMax) :
      Move i s { s.lowerPulse.takeByte with
        rxb := s.rxb.write s.idx.toNat b, idx := s.idx + 1,
        fsm := if s.idx.toNat + 1 < s.dataLen.toNat then .rxData else .decode }
  | waits (n : Nat) (hf : s.fsm.receiving = true) (hl : s.now.linkErr = false)
      (ho : s.rxOffered = none) (hn : s.timeoutReached = false) :
      Move i s { s.lowerPulse with tmo := n }
  | noResponse (n : Nat) (hf : s.fsm.receiving = true) (hl : s.now.linkErr = false)
      (ho : s.rxOffered = none) (hn : s.timeoutReached = true) :
      Move i s (State.raise .noResponse .none { s.lowerPulse with tmo := n })
  | refusedResponse (hf : s.fsm = .decode) (ht : i.isTransfer = false) (ha : s.ack = false) :
      Move i s (State.raise .nack .none s.lowerPulse)
  | decoded (hf : s.fsm = .decode) (ht : i.isTransfer = false) (ha : s.ack = true) :
      Move i s (onAckOf i s.lowerPulse)
  | chunkAnswered (hf : s.fsm = .decode) (ht : i.isTransfer = true) :
      Move i s { s.lowerPulse with fsm := .nextChunk }
  | nextChunk (hf : s.fsm = .nextChunk) (hm : moreChunks s = true) :
      Move i s { recordChunk s.lowerPulse with fsm := .marshal }
  | transferEnds (hf : s.fsm = .nextChunk) (hm : moreChunks s = false) :
      Move i s { recordChunk s.lowerPulse with
        status := transferStatus (recordChunk s.lowerPulse).xferFailures, fsm := .done }
  | present (hf : s.fsm = .done) : Move i s s.lowerPulse.presentResult

variable {i : Instr} {s t : State}

/-- A wait, by whether it reaches `RX_TIMEOUT`. -/
theorem waitForByte_eq (s : State) : ∃ n,
    s.waitForByte = if s.timeoutReached then State.raise .noResponse .none { s with tmo := n }
      else { s with tmo := n } := by
  unfold State.waitForByte State.timeoutReached
  rcases s.params.rxTimeout with _ | T
  · exact ⟨s.tmo, rfl⟩
  · rcases s.now.timeUnit
    · exact ⟨s.tmo, rfl⟩
    · refine ⟨s.tmo + 1, ?_⟩
      by_cases h : T ≤ s.tmo + 1 <;> simp [h]

theorem linkGuard_move {k : State → Result} (hf : s.fsm.sending = true ∨ s.fsm.receiving = true)
    (hk : s.now.linkErr = false → k s.lowerPulse = .next t → Move i s t)
    (h : linkGuard k s.lowerPulse = .next t) : Move i s t := by
  rcases linkGuard_next h with ⟨hl, rfl⟩ | ⟨hl, h⟩
  · exact .linkFails hf hl
  · exact hk hl h

theorem receive_move {got : Byte → State → Result} (hf : s.fsm.receiving = true)
    (hg : s.now.linkErr = false → ∀ b bs, s.rx = b :: bs → s.rxOffered = some b →
      got b s.lowerPulse.takeByte = .next t → Move i s t)
    (h : linkGuard (receive got) s.lowerPulse = .next t) : Move i s t := by
  refine linkGuard_move (.inr hf) (fun hl h => ?_) h
  rcases receive_next h with ⟨b, bs, hx, ho, hg'⟩ | ⟨ho, rfl⟩
  · exact hg hl b bs hx ho hg'
  · obtain ⟨n, hn⟩ := waitForByte_eq s.lowerPulse
    rw [hn]
    rcases hT : s.timeoutReached
    · rw [show s.lowerPulse.timeoutReached = false from hT, if_neg Bool.false_ne_true]
      exact .waits n hf hl ho hT
    · rw [show s.lowerPulse.timeoutReached = true from hT, if_pos rfl]
      exact .noResponse n hf hl ho hT

/-- A covered byte's step is one of the five moves of "absorb and send". -/
theorem covered_move {b : Byte} {taken : State → State} (hc : Covered s b)
    (hs : s.fsm.sending = true) (hl : s.now.linkErr = false)
    (ht : ∀ o, s.bitcnt = 0 → s.txOffer = some o → s.now.txReady = true →
      Move i s (taken (s.lowerPulse.linkTakes o))) :
    Move i s (absorbAndSend b taken s.lowerPulse) := by
  rcases absorbAndSend_cases b taken s.lowerPulse with
    ⟨h0, ho, e⟩ | ⟨h0, h1, e⟩ | ⟨h1, e⟩ | ⟨o, h0, ho, hr, e⟩ | ⟨o, h0, ho, hr, e⟩ <;> rw [e]
  · exact .inject b hc hl h0 ho
  · exact .bitStep b hc hl h0 h1
  · exact .lastBitStep b hc hl h1
  · exact ht o h0 ho hr
  · exact .held o hs hl (.inr ⟨h0, b, hc⟩) ho hr

/-- Every next state of `exec` is a move. -/
theorem exec_move (h : exec i s = .next t) : Move i s t := by
  rcases hf : s.fsm
  · rw [exec_idle hf] at h
    rcases accept_cases i.latch (commandOf i).setUp s.lowerPulse with ⟨c, hv, e⟩ | ⟨hv, e⟩ <;> rw [e] at h
    · cases h; exact .reject c hf hv
    · rcases ht : i.isTransfer
      · rw [commandOf_oneExchange ht] at h
        cases h; exact .accept hf hv ht
      · cases i <;> cases ht
        simp only [commandOf, transferSetUp] at h
        split at h
        · cases h
        · split at h
          · cases h
          · cases h
            exact .acceptTransfer _ _ rfl hf hv (by omega) (Decidable.not_not.1 (by assumption))
  · rw [exec_marshal hf] at h
    rcases ht : i.isTransfer
    · rw [commandOf_oneExchange ht] at h
      cases h; exact .marshal hf ht
    · cases i <;> cases ht
      simp only [commandOf, marshalChunk] at h
      split at h
      · cases h
        exact .marshalChunk _ _ rfl hf (by assumption)
      · cases h
  · have hs : s.fsm.sending = true := by rw [hf]; rfl
    rw [exec_txLen hf] at h
    refine linkGuard_move (.inl hs) (fun hl h => ?_) h
    cases h
    exact covered_move (.len hf) hs hl (fun o h0 ho hr => .lenTaken o hf hl h0 ho hr)
  · have hs : s.fsm.sending = true := by rw [hf]; rfl
    rw [exec_txPayload hf] at h
    refine linkGuard_move (.inl hs) (fun hl h => ?_) h
    unfold txPayloadStep at h
    split at h
    · split at h
      · cases h
        exact covered_move (.payload hf (by assumption) (by assumption)) hs hl
          (fun o h0 ho hr => .payloadTaken o hf (by assumption) hl h0 ho hr)
      · cases h
    · split at h <;> cases h
      · exact .payloadEnd hf hl (by assumption) (by assumption)
      · exact .strayBitStep hf hl (by assumption) (by assumption)
  · have hs : s.fsm.sending = true := by rw [hf]; rfl
    rw [exec_txCrc hf] at h
    refine linkGuard_move (.inl hs) (fun hl h => ?_) h
    unfold txCrcStep at h
    cases h
    rcases sendOnly_cases (byteOfWord s.lowerPulse.acc s.lowerPulse.idx.toNat) _ s.lowerPulse with
      ⟨ho, e⟩ | ⟨o, ho, hr, e⟩ | ⟨o, ho, hr, e⟩ <;> rw [e]
    · exact .trailerOffered hf hl ho
    · exact .trailerTaken o hf hl ho hr
    · exact .held o hs hl (.inl hf) ho hr
  · rw [exec_rxStatus hf] at h
    refine receive_move (by rw [hf]; rfl) (fun hl b bs hx ho h => ?_) h
    unfold gotStatus at h
    split at h <;> cases h
    · exact .ackRead b bs hf hl hx ho (by assumption)
    · exact .nackRead b bs hf hl hx ho (by assumption)
  · rw [exec_rxLen hf] at h
    refine receive_move (by rw [hf]; rfl) (fun hl b bs hx ho h => ?_) h
    cases h
    exact .lengthRead b bs hf hl hx ho
  · rw [exec_rxData hf] at h
    refine receive_move (by rw [hf]; rfl) (fun hl b bs hx ho h => ?_) h
    unfold gotData at h
    split at h <;> cases h
    exact .dataRead b bs hf hl hx ho (by assumption)
  · rw [exec_decode hf] at h
    cases h
    rcases ht : i.isTransfer
    · rw [commandOf_oneExchange ht]
      rcases ha : s.ack
      · have e : decodeWith (onAckOf i) s.lowerPulse = State.raise .nack .none s.lowerPulse :=
          if_neg (by rw [show s.lowerPulse.ack = false from ha]; decide)
        rw [show (oneExchange i (encode i []) (onAckOf i)).decode s.lowerPulse = _ from e]
        exact .refusedResponse hf ht ha
      · have e : decodeWith (onAckOf i) s.lowerPulse = onAckOf i s.lowerPulse :=
          if_pos ha
        rw [show (oneExchange i (encode i []) (onAckOf i)).decode s.lowerPulse = _ from e]
        exact .decoded hf ht ha
    · cases i <;> cases ht
      exact .chunkAnswered hf rfl
  · rw [exec_nextChunk hf] at h
    cases h
    unfold nextChunkStep
    rcases hm : moreChunks s
    · rw [if_neg (by rw [show moreChunks s.lowerPulse = false from hm]; decide)]
      exact .transferEnds hf hm
    · rw [if_pos (show moreChunks s.lowerPulse = true from hm)]
      exact .nextChunk hf hm
  · rw [exec_done hf] at h
    cases h
    exact .present hf

@[simp] theorem hostWritesImage_portDescriptor (s : State) :
    s.hostWritesImage.portDescriptor = s.portDescriptor := by
  unfold State.hostWritesImage; split <;> rfl

/-- Writing the image changes `IMG` alone. -/
theorem hostWritesImage_eq (s : State) : s.hostWritesImage = { s with img := s.hostWritesImage.img } := by
  unfold State.hostWritesImage; split <;> rfl

/-- Every next state of `step`: reset, rest, a move, or the two moves of a descriptor that selects no
command (its rejection, and the presenting of that result). -/
theorem step_cases (h : step s = .next t) :
    (s.now.rst = true ∧ t = s.resetEngine.advance) ∨
    (s.now.rst = false ∧ s.fsm = .idle ∧ s.cmdValid = false ∧ t = s.advance) ∨
    (∃ i u, s.now.rst = false ∧ s.fsm = .idle ∧ s.cmdValid = true ∧
      s.portDescriptor.instr? = some i ∧ Move i s.hostWritesImage u ∧ t = u.advance) ∨
    (s.now.rst = false ∧ s.fsm = .idle ∧ s.cmdValid = true ∧ s.portDescriptor.instr? = none ∧
      t = (State.raise .localValidation .badSelector
        (acceptDescriptor s.portDescriptor s.hostWritesImage.lowerPulse)).advance) ∨
    (∃ i u, s.now.rst = false ∧ s.fsm ≠ .idle ∧ s.desc.instr? = some i ∧ Move i s u ∧
      t = u.advance) ∨
    (s.now.rst = false ∧ s.fsm = .done ∧ s.desc.instr? = none ∧
      t = s.lowerPulse.presentResult.advance) := by
  unfold step at h
  rcases hr : s.now.rst
  · rw [hr, if_neg Bool.false_ne_true] at h
    obtain ⟨u, hu, rfl⟩ := thenAdvance_next h
    unfold cycle at hu
    by_cases hf : s.fsm = .idle
    · rw [if_pos hf] at hu
      rcases hc : s.cmdValid
      · rw [hc, if_neg Bool.false_ne_true] at hu
        cases hu
        exact .inr (.inl ⟨rfl, hf, rfl, rfl⟩)
      · rw [hc, if_pos rfl, runPort, hostWritesImage_portDescriptor] at hu
        rcases hi : s.portDescriptor.instr? with _ | i <;> rw [hi] at hu
        · refine .inr (.inr (.inr (.inl ⟨rfl, hf, rfl, rfl, ?_⟩)))
          have hv : validate s.portDescriptor = some .badSelector := if_pos (instr?_eq_none.1 hi)
          rcases accept_cases id toMarshal s.hostWritesImage.lowerPulse with ⟨c, hc', e⟩ | ⟨hc', -⟩
          · rw [show s.hostWritesImage.lowerPulse.portDescriptor = s.portDescriptor from
              hostWritesImage_portDescriptor s, id, hv] at hc'
            cases hc'
            rw [acceptNoCommand, e] at hu
            cases hu
            rw [show s.hostWritesImage.lowerPulse.portDescriptor = s.portDescriptor from
              hostWritesImage_portDescriptor s]
            rfl
          · rw [show s.hostWritesImage.lowerPulse.portDescriptor = s.portDescriptor from
              hostWritesImage_portDescriptor s, id, hv] at hc'
            cases hc'
        · exact .inr (.inr (.inl ⟨i, u, rfl, hf, rfl, rfl, exec_move hu, rfl⟩))
    · rw [if_neg hf, runLatched] at hu
      rcases hi : s.desc.instr? with _ | i <;> rw [hi] at hu
      · dsimp only at hu
        split at hu <;> cases hu
        exact .inr (.inr (.inr (.inr (.inr ⟨rfl, by assumption, rfl, rfl⟩))))
      · exact .inr (.inr (.inr (.inr (.inl ⟨i, u, rfl, hf, rfl, exec_move hu, rfl⟩))))
  · rw [hr, if_pos rfl] at h
    cases h
    exact .inl ⟨rfl, rfl⟩

end Sys2Proof.Machine
end

