-- ==== Sys2Proof/Laws/Run.lean ====
section
/-! SUPPORT. Runs: how they are put together, and that they are the host's `Core.run`. -/

namespace Sys2Proof.Machine

variable {s t u : State} {m n : Nat}

theorem Run.one (h : step s = .next t) : Run 1 s t := ⟨t, h, rfl⟩

theorem Run.append (h : Run m s t) (h' : Run n t u) : Run (m + n) s u := by
  induction m generalizing s with
  | zero => cases h; simpa using h'
  | succ m ih =>
    obtain ⟨v, hv, hr⟩ := h
    rw [Nat.succ_add]
    exact ⟨v, hv, ih hr⟩

/-- A run of `n` steps is what the host's `run` answers. -/
theorem run_iff : Run n s t ↔ Sys2Proof.core.run n s = .next t := by
  induction n generalizing s with
  | zero => exact ⟨fun h => congrArg _ h, fun h => Host.Outcome.next.inj h⟩
  | succ n ih =>
    have e : ∀ r, step s = r → Sys2Proof.core.run (n + 1) s =
        Host.Outcome.rec (fun v => Sys2Proof.core.run n v) .fault .refused r := by
      intro r hr
      have h : Sys2Proof.core.step s = r := hr
      simp only [Host.Core.run, h]
      cases r <;> rfl
    rcases hs : step s with v | r | r <;> rw [e _ hs]
    · exact ⟨fun ⟨w, hw, hr⟩ => by cases hs.symm.trans hw; exact ih.1 hr, fun h => ⟨v, hs, ih.2 h⟩⟩
    · exact ⟨fun ⟨w, hw, _⟩ => (by cases hs.symm.trans hw), fun h => (by cases h)⟩
    · exact ⟨fun ⟨w, hw, _⟩ => (by cases hs.symm.trans hw), fun h => (by cases h)⟩

theorem Reaches.refl (s : State) : Reaches s s := ⟨0, rfl⟩

theorem Reaches.one (h : step s = .next t) : Reaches s t := ⟨1, Run.one h⟩

theorem Reaches.trans (h : Reaches s t) (h' : Reaches t u) : Reaches s u := by
  obtain ⟨m, hm⟩ := h
  obtain ⟨n, hn⟩ := h'
  exact ⟨m + n, hm.append hn⟩

theorem eventsAlong_one (h : step s = .next t) : eventsAlong 1 s = t.chunkEvt.toList := by
  simp [eventsAlong, h]

theorem eventsAlong_append (h : Run m s t) : eventsAlong (m + n) s = eventsAlong m s ++ eventsAlong n t := by
  induction m generalizing s with
  | zero => cases h; simp [eventsAlong]
  | succ m ih =>
    obtain ⟨v, hv, hr⟩ := h
    rw [Nat.succ_add]
    simp only [eventsAlong, hv, ih hr, List.append_assoc]

/-- A run in which a byte waits whenever the engine awaits one, with the chunk events it pulses. -/
inductive Fed : List ChunkEvent → State → State → Prop where
  | refl (s : State) : Fed [] s s
  | step {es : List ChunkEvent} {s t u : State} (hs : step s = .next t)
      (hr : s.fsm.receiving = true → s.rx ≠ []) (h : Fed es t u) : Fed (t.chunkEvt.toList ++ es) s u

/-- One step that pulses no event. -/
theorem Fed.one (hs : Machine.step s = .next t) (hr : s.fsm.receiving = true → s.rx ≠ [])
    (he : t.chunkEvt = none) : Fed [] s t := by
  have h := Fed.step hs hr (.refl t)
  rw [he] at h
  exact h

theorem Fed.append {es es' : List ChunkEvent} (h : Fed es s t) (h' : Fed es' t u) :
    Fed (es ++ es') s u := by
  induction h with
  | refl => exact h'
  | step hs hr _ ih => rw [List.append_assoc]; exact .step hs hr (ih h')

theorem Fed.trans {es : List ChunkEvent} (h : Fed [] s t) (h' : Fed es t u) : Fed es s u := h.append h'

/-- A fed run as a run, with its events. -/
theorem Fed.run {es : List ChunkEvent} (h : Fed es s t) : ∃ n, Run n s t ∧ eventsAlong n s = es := by
  induction h with
  | refl s => exact ⟨0, rfl, rfl⟩
  | step hs _ _ ih =>
    obtain ⟨n, hn, he⟩ := ih
    exact ⟨n + 1, ⟨_, hs, hn⟩, by simp [eventsAlong, hs, he]⟩

theorem Fed.reaches {es : List ChunkEvent} (h : Fed es s t) : Reaches s t :=
  let ⟨n, hn, _⟩ := h.run
  ⟨n, hn⟩

/-- What every step keeps, every run keeps. -/
theorem Run.keeps {P : State → Prop} (hP : ∀ s t, P s → step s = .next t → P t) (h : Run n s t)
    (hs : P s) : P t := by
  induction n generalizing s with
  | zero => cases h; exact hs
  | succ n ih =>
    obtain ⟨v, hv, hr⟩ := h
    exact ih hr (hP s v hs hv)

end Sys2Proof.Machine
end

