-- ==== Sys2Proof/Laws/Quiet.lean ====
section
/-! SUPPORT. Runs with quiet pins: how one covered byte, a payload, a trailer and the data of a response
pass, each as one lemma about `Fed`. A claim about a whole exchange is put together from these. -/

namespace Sys2Proof.Machine

variable {i : Instr} {s t : State} {b : Byte}

/-- With quiet pins, a step of a running command is its `exec`, and nothing else changes. -/
theorem step_quiet (hq : Quiet s) (hf : s.fsm ≠ .idle) (hi : s.desc.instr? = some i)
    (he : exec i s = .next t) (ht : Quiet t) : step s = .next t := by
  have hr : s.now.rst = false := by rw [State.now_quiet s hq]; rfl
  rw [step, hr, if_neg Bool.false_ne_true, cycle, if_neg hf, runLatched, hi]
  show thenAdvance (exec i s) = _
  rw [he, thenAdvance, State.advance_quiet t ht]

/-- Such a step as a fed run: a byte waits if one is awaited, and no event is pulsed. -/
theorem fed_quiet (hq : Quiet s) (hf : s.fsm ≠ .idle) (hr : s.fsm.receiving = true → s.rx ≠ [])
    (hi : s.desc.instr? = some i) (he : exec i s = .next t) (ht : Quiet t) (hc : t.chunkEvt = none) :
    Fed [] s t :=
  .one (step_quiet hq hf hi he ht) hr hc

/-- Where nothing is awaited, no byte need wait. -/
theorem not_awaiting (h : s.fsm.receiving = false) : s.fsm.receiving = true → s.rx ≠ [] := by
  rw [h]; exact fun h => nomatch h

/-- The states in which one covered byte is absorbed: only `acc`, `bitcnt` and the byte on offer differ
from `s`, and the chunk event is down. -/
def absorbing (s : State) (acc : Word) (n : BitVec 6) (o : Option Byte) : State :=
  { s with acc := acc, bitcnt := n, txOffer := o, chunkEvt := none }

/-- One covered byte: it is absorbed whole, put on offer and taken. `hx` says that the steps made are
those of "absorb and send" (43_protocol_sequencer.md R183, R184). -/
theorem fed_covered {taken : State → State} (hq : Quiet s) (hf : s.fsm.sending = true)
    (hi : s.desc.instr? = some i) (h0 : s.bitcnt = 0) (ho : s.txOffer = none)
    (ht : ∀ u, Quiet u → Quiet (taken u) ∧ (taken u).chunkEvt = u.chunkEvt)
    (hx : ∀ u, (∃ a n o, u = absorbing s a n o) ∨ u = s →
      exec i u = .next (absorbAndSend b taken u.lowerPulse)) :
    Fed [] s (taken { absorbing s (crcAbsorb crcParams s.acc b) 0 none with tx := s.tx ++ [b] }) := by
  have hni : s.fsm ≠ .idle := by intro h; rw [h] at hf; cases hf
  have hr : s.fsm.receiving = true → s.rx ≠ [] :=
    not_awaiting (by cases h : s.fsm <;> rw [h] at hf <;> first | rfl | cases hf)
  have inject : Fed [] s (absorbing s (crcInject crcParams s.acc b) 32 none) := by
    refine fed_quiet hq hni hr hi ?_ hq rfl
    rw [hx s (.inr rfl), absorbAndSend_inject b taken (show s.lowerPulse.bitcnt = 0 from h0) ho]
    rw [show s.lowerPulse.crcInject b = absorbing s (crcInject crcParams s.acc b) 32 s.txOffer from rfl, ho]
  have shift : ∀ n a, n < 32 → Fed [] (absorbing s a (BitVec.ofNat 6 (n + 1)) none)
      (absorbing s (crcShifts crcParams (n + 1) a) 0 (some b)) := by
    intro n
    induction n with
    | zero =>
      intro a _
      refine fed_quiet hq hni hr hi ?_ hq rfl
      rw [hx _ (.inl ⟨_, _, _, rfl⟩), absorbAndSend_last b taken rfl]
      have e : (1 : BitVec 6) - 1 = 0 := by decide
      show Host.Outcome.next (absorbing s (crcShift crcParams a) (1 - 1) (some b)) = _
      rw [e]
      rfl
    | succ n ih =>
      intro a hn
      refine Fed.trans (fed_quiet hq hni hr hi (t := absorbing s (crcShift crcParams a)
        (BitVec.ofNat 6 (n + 1)) none) ?_ hq rfl) (ih _ (by omega))
      have e0 : BitVec.ofNat 6 (n + 1 + 1) ≠ 0 := by
        intro h; have := congrArg BitVec.toNat h; simp at this; omega
      have e1 : BitVec.ofNat 6 (n + 1 + 1) ≠ 1 := by
        intro h; have := congrArg BitVec.toNat h; simp at this; omega
      have e2 : BitVec.ofNat 6 (n + 1 + 1) - 1 = BitVec.ofNat 6 (n + 1) := by
        apply BitVec.eq_of_toNat_eq; simp [BitVec.toNat_sub]; omega
      rw [hx _ (.inl ⟨_, _, _, rfl⟩), absorbAndSend_bitStep b taken e0 e1, ← e2]
      rfl
  have take : Fed [] (absorbing s (crcAbsorb crcParams s.acc b) 0 (some b))
      (taken { absorbing s (crcAbsorb crcParams s.acc b) 0 none with tx := s.tx ++ [b] }) := by
    refine fed_quiet hq hni hr hi ?_ (ht _ (by exact hq)).1 (ht _ (by exact hq)).2
    rw [hx _ (.inl ⟨_, _, _, rfl⟩), absorbAndSend_taken (o := b) b taken rfl rfl ?_]
    · rfl
    · show s.now.txReady = true
      rw [State.now_quiet s hq]; rfl
  exact inject.trans ((shift 31 _ (by decide)).trans take)

theorem linkGuard_quiet (hq : Quiet s) (k : State → Result) :
    linkGuard k s.lowerPulse = k s.lowerPulse := by
  have h : s.lowerPulse.now.linkErr = false := by
    show s.now.linkErr = false
    rw [State.now_quiet s hq]; rfl
  rw [linkGuard, h, if_neg Bool.false_ne_true]

theorem exec_txLen_quiet (hq : Quiet s) (hf : s.fsm = .txLen) :
    exec i s = .next (absorbAndSend (byteOfHalf s.flen s.idx.toNat) prefixTaken s.lowerPulse) := by
  rw [exec_txLen hf, linkGuard_quiet hq]; rfl

theorem exec_txPayload_quiet (hq : Quiet s) (hf : s.fsm = .txPayload) (hp : s.idx < s.plen)
    (hb : s.idx.toNat < Config.payloadMax) :
    exec i s = .next (absorbAndSend (s.pb.read s.idx.toNat) payloadTaken s.lowerPulse) := by
  rw [exec_txPayload hf, linkGuard_quiet hq, txPayloadStep,
    if_pos (show s.lowerPulse.idx < s.lowerPulse.plen from hp),
    if_pos (show s.lowerPulse.idx.toNat < Config.payloadMax from hb)]
  rfl

/-- One prefix byte. -/
theorem fed_prefixByte (hq : Quiet s) (hf : s.fsm = .txLen) (hi : s.desc.instr? = some i)
    (h0 : s.bitcnt = 0) (ho : s.txOffer = none) :
    Fed [] s (prefixTaken { absorbing s (crcAbsorb crcParams s.acc (byteOfHalf s.flen s.idx.toNat)) 0 none
      with tx := s.tx ++ [byteOfHalf s.flen s.idx.toNat] }) :=
  fed_covered hq (by rw [hf]; rfl) hi h0 ho
    (fun u h => by unfold prefixTaken; split <;> exact ⟨h, rfl⟩)
    (fun u hu => by
      rcases hu with ⟨a, n, o, rfl⟩ | rfl
      · exact exec_txLen_quiet hq hf
      · exact exec_txLen_quiet hq hf)

/-- `TX_LEN` (43_protocol_sequencer.md R183): both prefix bytes are absorbed and sent. -/
theorem fed_txLen (hq : Quiet s) (hf : s.fsm = .txLen) (hi : s.desc.instr? = some i)
    (h0 : s.bitcnt = 0) (ho : s.txOffer = none) (hx : s.idx = 0) :
    Fed [] s { absorbing s (crcAbsorbAll crcParams s.acc (le16 s.flen)) 0 none with
      fsm := .txPayload, tx := s.tx ++ le16 s.flen } := by
  have one := fed_prefixByte hq hf hi h0 ho
  rw [hx] at one
  have e1 : prefixTaken { absorbing s (crcAbsorb crcParams s.acc (byteOfHalf s.flen 0)) 0 none with
      tx := s.tx ++ [byteOfHalf s.flen 0] } =
      { absorbing s (crcAbsorb crcParams s.acc (byteOfHalf s.flen 0)) 0 none with
        tx := s.tx ++ [byteOfHalf s.flen 0], idx := 1 } := by
    rw [prefixTaken_first (by show s.idx.toNat < 1; rw [hx]; decide)]
    show ({ absorbing s _ 0 none with tx := _, idx := s.idx + 1 } : State) = _
    rw [hx]; rfl
  rw [show (0 : BitVec 11).toNat = 0 from rfl, e1] at one
  refine one.trans ?_
  have two := fed_prefixByte (i := i) (s := { absorbing s
      (crcAbsorb crcParams s.acc (byteOfHalf s.flen 0)) 0 none with
        tx := s.tx ++ [byteOfHalf s.flen 0], idx := 1 }) hq hf hi rfl rfl
  have e2 : s.tx ++ [byteOfHalf s.flen 0] ++ [byteOfHalf s.flen 1] = s.tx ++ le16 s.flen := by
    rw [List.append_assoc]; rfl
  rw [← e2]
  refine Eq.mp (congrArg _ ?_) two
  rw [prefixTaken_last (by show ¬ (1 : BitVec 11).toNat < 1; decide)]
  cases s
  cases hx
  rfl

/-- `TX_PAYLOAD` (R184): the bytes of `PB` from `idx` to the payload's end are absorbed and sent. -/
theorem fed_txPayload (bs : List Byte) (hq : Quiet s) (hf : s.fsm = .txPayload)
    (hi : s.desc.instr? = some i) (h0 : s.bitcnt = 0) (ho : s.txOffer = none)
    (hl : s.idx.toNat + bs.length = s.plen.toNat) (hm : s.plen.toNat ≤ Config.payloadMax)
    (hb : s.pb.readList s.idx.toNat bs.length = bs) :
    Fed [] s { absorbing s (crcAbsorbAll crcParams s.acc bs) 0 none with
      idx := s.plen, tx := s.tx ++ bs, chunkEvt := if bs = [] then s.chunkEvt else none } := by
  induction bs generalizing s with
  | nil =>
    have hp : s.idx = s.plen := BitVec.eq_of_toNat_eq (by simpa using hl)
    refine Eq.mp (congrArg _ ?_) (Fed.refl s)
    cases s
    simp only at hp h0 ho
    subst hp h0 ho
    simp [absorbing]
  | cons b bs ih =>
    simp only [List.length_cons, Memory.readList, List.cons.injEq] at hl hb
    have hlt : s.idx < s.plen := by rw [BitVec.lt_def]; omega
    have hmax : s.idx.toNat < Config.payloadMax := by omega
    have one : Fed [] s (payloadTaken { absorbing s (crcAbsorb crcParams s.acc (s.pb.read s.idx.toNat)) 0 none
        with tx := s.tx ++ [s.pb.read s.idx.toNat] }) :=
      fed_covered hq (by rw [hf]; rfl) hi h0 ho (fun _ h => ⟨h, rfl⟩)
        (fun u hu => by
          rcases hu with ⟨a, n, o, rfl⟩ | rfl
          · exact exec_txPayload_quiet hq hf hlt hmax
          · exact exec_txPayload_quiet hq hf hlt hmax)
    rw [hb.1] at one
    refine one.trans ?_
    have hs : (s.idx + 1).toNat = s.idx.toNat + 1 := by
      have := s.plen.isLt
      rw [BitVec.toNat_add, show (1 : BitVec 11).toNat = 1 from rfl]; omega
    have rest := ih (s := payloadTaken { absorbing s (crcAbsorb crcParams s.acc b) 0 none
        with tx := s.tx ++ [b] }) hq hf hi rfl rfl
      (by show (s.idx + 1).toNat + bs.length = s.plen.toNat; omega) hm
      (by show s.pb.readList (s.idx + 1).toNat bs.length = bs; rw [hs]; exact hb.2)
    refine Eq.mp (congrArg _ ?_) rest
    have e : s.tx ++ [b] ++ bs = s.tx ++ b :: bs := by simp
    rw [← e]
    rw [if_neg (List.cons_ne_nil b bs)]
    unfold payloadTaken absorbing
    simp

/-- The end of `TX_PAYLOAD`, and `TX_CRC` (R184, R185): the trailer is sent, low byte first. -/
theorem fed_txCrc (hq : Quiet s) (hf : s.fsm = .txPayload) (hi : s.desc.instr? = some i)
    (h0 : s.bitcnt = 0) (ho : s.txOffer = none) (hp : s.idx = s.plen) :
    Fed [] s { s with fsm := .rxStatus, idx := 0, tmo := 0, tx := s.tx ++ le32 s.acc,
                       chunkEvt := none } := by
  have start : Fed [] s { s with fsm := .txCrc, idx := 0, chunkEvt := none } := by
    refine fed_quiet hq (by rw [hf]; decide) (not_awaiting (by rw [hf]; rfl)) hi ?_ hq rfl
    rw [exec_txPayload hf, linkGuard_quiet hq, txPayloadStep,
      if_neg (show ¬ s.lowerPulse.idx < s.lowerPulse.plen by
        show ¬ s.idx < s.plen; rw [hp]; exact BitVec.lt_irrefl _),
      if_pos (show s.lowerPulse.bitcnt = 0 from h0)]
    rfl
  have byte : ∀ u : State, Quiet u → u.fsm = .txCrc → u.desc.instr? = some i → u.txOffer = none →
      Fed [] u (trailerTaken { u with tx := u.tx ++ [byteOfWord u.acc u.idx.toNat], chunkEvt := none }) := by
    intro u hq hf hi ho
    have hn : u.fsm ≠ .idle := by rw [hf]; decide
    have hr : u.fsm.receiving = true → u.rx ≠ [] := not_awaiting (by rw [hf]; rfl)
    have offer : Fed [] u { u with txOffer := some (byteOfWord u.acc u.idx.toNat), chunkEvt := none } := by
      refine fed_quiet hq hn hr hi ?_ hq rfl
      rw [exec_txCrc hf, linkGuard_quiet hq, txCrcStep, sendOnly,
        show u.lowerPulse.txOffer = none from ho]
      rfl
    refine offer.trans (fed_quiet hq hn hr hi ?_ (by unfold trailerTaken; split <;> exact hq)
      (by unfold trailerTaken; split <;> rfl))
    generalize hv : ({ u with txOffer := _, chunkEvt := none } : State) = v
    have hvq : Quiet v := by rw [← hv]; exact hq
    rw [exec_txCrc (by rw [← hv]; exact hf), linkGuard_quiet hvq, txCrcStep, sendOnly,
      show v.lowerPulse.txOffer = some (byteOfWord u.acc u.idx.toNat) by rw [← hv]; rfl]
    dsimp only
    rw [if_pos (show v.lowerPulse.now.txReady = true by
      show v.now.txReady = true
      rw [State.now_quiet v hvq]; rfl), ← hv]
    cases u
    cases ho
    rfl
  refine start.trans ?_
  have all : ∀ (u : State), Quiet u → u.fsm = .txCrc → u.desc.instr? = some i → u.txOffer = none →
      u.idx = 0 → Fed [] u { u with fsm := .rxStatus, idx := 0, tmo := 0, tx := u.tx ++ le32 u.acc,
                                     chunkEvt := none } := by
    intro u hq hf hi ho hx
    have next : ∀ (n : BitVec 11) (txs : List Byte), n.toNat < 3 →
        Fed [] { u with idx := n, tx := u.tx ++ txs, chunkEvt := none }
          { u with idx := n + 1, tx := u.tx ++ (txs ++ [byteOfWord u.acc n.toNat]), chunkEvt := none } := by
      intro n txs hn
      have h := byte { u with idx := n, tx := u.tx ++ txs, chunkEvt := none } hq hf hi ho
      rw [trailerTaken_first hn] at h
      rw [← List.append_assoc]
      exact h
    have last := byte
      { u with idx := 3, chunkEvt := none,
               tx := u.tx ++ [byteOfWord u.acc 0, byteOfWord u.acc 1, byteOfWord u.acc 2] } hq hf hi ho
    rw [trailerTaken_last (show ¬ (3 : BitVec 11).toNat < 3 by decide)] at last
    have first : Fed [] u { u with idx := 1, tx := u.tx ++ [byteOfWord u.acc 0], chunkEvt := none } := by
      refine Eq.mp (congrArg _ ?_) (byte u hq hf hi ho)
      rw [trailerTaken_first (by show u.idx.toNat < 3; rw [hx]; decide)]
      cases u
      cases hx
      rfl
    refine first.trans ((next 1 [byteOfWord u.acc 0] (by decide)).trans
      ((next 2 [byteOfWord u.acc 0, byteOfWord u.acc 1] (by decide)).trans ?_))
    refine Eq.mp (congrArg _ ?_) last
    rw [show le32 u.acc = [byteOfWord u.acc 0, byteOfWord u.acc 1, byteOfWord u.acc 2] ++
      [byteOfWord u.acc 3] from rfl, ← List.append_assoc]
    rfl
  exact all _ hq rfl hi ho rfl

/-- With quiet pins the byte at the head of the receive side is offered. -/
theorem rxOffered_quiet (hq : Quiet s) : s.rxOffered = s.rx.head? := by
  rw [State.rxOffered, State.now_quiet s hq]; rfl

theorem receive_quiet {got : Byte → State → Result} {bs : List Byte} (hq : Quiet s)
    (hx : s.rx = b :: bs) : receive got s.lowerPulse = got b s.lowerPulse.takeByte := by
  rw [receive, show s.lowerPulse.rxOffered = some b by
    show s.rxOffered = some b
    rw [rxOffered_quiet hq, hx]; rfl]

/-- `RX_DATA` (R188): the data bytes that are left of a response are taken and stored. -/
theorem fed_rxData (bs : List Byte) (rest : List Byte) (hq : Quiet s) (hf : s.fsm = .rxData)
    (hi : s.desc.instr? = some i) (hl : s.idx.toNat + bs.length = s.dataLen.toNat) (hn : bs ≠ [])
    (hx : s.rx = bs ++ rest) :
    Fed [] s { s with fsm := .decode, rx := rest, rxb := s.rxb.writeList s.idx.toNat bs, tmo := 0,
                       idx := s.dataLen.setWidth 11, chunkEvt := none } := by
  induction bs generalizing s with
  | nil => exact absurd rfl hn
  | cons b bs ih =>
    have hlen := s.dataLen.isLt
    rw [List.length_cons] at hl
    have he : exec i s = .next
        { s with rx := bs ++ rest, rxb := s.rxb.write s.idx.toNat b, tmo := 0, idx := s.idx + 1,
                 chunkEvt := none,
                 fsm := if s.idx.toNat + 1 < s.dataLen.toNat then .rxData else .decode } := by
      rw [exec_rxData hf, linkGuard_quiet hq, receive_quiet hq hx, gotData,
        if_pos (show s.lowerPulse.takeByte.idx.toNat < Config.respDataMax by
          show s.idx.toNat < 255; omega)]
      have e : s.lowerPulse.takeByte = { s with rx := bs ++ rest, tmo := 0, chunkEvt := none } := by
        show ({ s with rx := s.rx.tail, tmo := 0, chunkEvt := none } : State) = _
        rw [hx]; rfl
      rw [e]
    have one := fed_quiet hq (by rw [hf]; decide)
      (fun _ h => List.cons_ne_nil _ _ (hx.symm.trans h)) hi he hq rfl
    refine one.trans ?_
    have hs : (s.idx + 1).toNat = s.idx.toNat + 1 := by
      rw [BitVec.toNat_add, show (1 : BitVec 11).toNat = 1 from rfl]; omega
    rcases bs with _ | ⟨c, cs⟩
    · rw [List.length_nil] at hl
      rw [if_neg (by omega)]
      refine Eq.mp (congrArg _ ?_) (Fed.refl _)
      have e : s.dataLen.setWidth 11 = s.idx + 1 := by
        apply BitVec.eq_of_toNat_eq; rw [hs, BitVec.toNat_setWidth]; omega
      rw [e]; rfl
    · rw [List.length_cons] at hl
      rw [if_pos (by omega)]
      have h := ih
        (s := { s with rx := c :: cs ++ rest, rxb := s.rxb.write s.idx.toNat b, tmo := 0,
                       idx := s.idx + 1, chunkEvt := none, fsm := .rxData }) hq rfl hi
        (by show (s.idx + 1).toNat + _ = s.dataLen.toNat; rw [hs, List.length_cons]; omega)
        (List.cons_ne_nil _ _) rfl
      rw [show (s.idx + 1).toNat = s.idx.toNat + 1 from hs] at h
      exact h

end Sys2Proof.Machine
end

