-- ==== Sys2Proof/Laws/Calm.lean ====
section
/-! SUPPORT. A run in which only bytes arrive is matched with the run, with quiet pins, in which all of
them wait from the start: a claim proved of the second holds of the first. -/

namespace Sys2Proof.Machine

variable {i : Instr} {s t u : State}

/-- `s` with quiet pins and with these bytes waiting on the receive side. -/
def State.given (bs : List Byte) (s : State) : State := { s with script := [], rx := bs }

/-- `s` with every byte that is still to arrive waiting. -/
def State.arrived (s : State) : State := s.given s.incoming

/-- A change of the next state. -/
def onNext (f : State → State) : Result → Result
  | .next s => .next (f s)
  | .fault r => .fault r
  | .refused r => .refused r

@[simp] theorem State.given_fsm (bs : List Byte) (s : State) : (s.given bs).fsm = s.fsm := rfl
@[simp] theorem State.given_rx (bs : List Byte) (s : State) : (s.given bs).rx = bs := rfl
@[simp] theorem State.given_now (bs : List Byte) (s : State) : (s.given bs).now = s.restPins := rfl

theorem Calm.quiet_arrived (h : Calm s) : Quiet s.arrived := ⟨rfl, h.atRest⟩

/-- The pins of a step of a calm run. -/
theorem Calm.now (h : Calm s) : s.now = { Stim.quiet with arrive := s.now.arrive, timeUnit := s.now.timeUnit } ∧
    (s.now.timeUnit = true → s.script ≠ [] → s.params.rxTimeout = none) := by
  rcases hs : s.script with _ | ⟨p, ps⟩
  · have hn : s.now = Stim.quiet := State.now_quiet s ⟨hs, h.atRest⟩
    rw [hn]
    exact ⟨rfl, fun _ h => absurd rfl h⟩
  · have hn : s.now = p := by simp [State.now, hs]
    obtain ⟨h1, h2⟩ := h.scripted p (by simp [hs])
    rw [hn]
    exact ⟨h1, fun ht _ => h2 ht⟩

theorem linkGuard_given {k : State → Result} (bs : List Byte) (hl : s.now.linkErr = s.restPins.linkErr)
    (hk : k (s.given bs).lowerPulse = onNext (State.given bs) (k s.lowerPulse)) :
    linkGuard k (s.given bs).lowerPulse = onNext (State.given bs) (linkGuard k s.lowerPulse) := by
  rw [linkGuard, linkGuard, State.lowerPulse_now, State.lowerPulse_now, State.given_now, ← hl, hk]
  split <;> rfl

theorem absorbAndSend_given (bs : List Byte) (b : Byte) (taken : State → State)
    (hx : s.now.txReady = s.restPins.txReady) (ht : ∀ u, taken (u.given bs) = (taken u).given bs) :
    absorbAndSend b taken (s.given bs).lowerPulse = (absorbAndSend b taken s.lowerPulse).given bs := by
  unfold absorbAndSend
  rw [State.lowerPulse_now, State.lowerPulse_now, State.given_now, ← hx]
  show (if s.bitcnt ≠ 0 then if s.bitcnt = 1 then _ else _ else match s.txOffer with
    | none => _
    | some o => if s.now.txReady then _ else _) = (if s.bitcnt ≠ 0 then if s.bitcnt = 1 then _ else _ else
      match s.txOffer with
      | none => _
      | some o => if s.now.txReady then _ else _ : State).given bs
  split
  · split <;> rfl
  · split
    · rfl
    · split
      · exact ht (s.lowerPulse.linkTakes _)
      · rfl

/-- Where no byte is awaited, a command does the same whatever the receive side holds. -/
theorem exec_given (bs : List Byte) (hr : s.fsm.receiving = false)
    (hl : s.now.linkErr = s.restPins.linkErr) (hx : s.now.txReady = s.restPins.txReady) :
    exec i (s.given bs) = onNext (State.given bs) (exec i s) := by
  rcases hf : s.fsm <;> rw [hf] at hr <;> first | (cases hr; done) | skip
  · rw [exec_idle hf, exec_idle (show (s.given bs).fsm = _ from hf)]
    unfold accept
    show (match validate (i.latch s.portDescriptor) with
      | some cause => _
      | none => _) = onNext _ (match validate (i.latch s.portDescriptor) with
      | some cause => _
      | none => _)
    split
    · rfl
    · cases i <;> first | rfl | skip
      simp only [commandOf, transferSetUp]
      split
      · rfl
      · split <;> rfl
  · rw [exec_marshal hf, exec_marshal (show (s.given bs).fsm = _ from hf)]
    cases i <;> first | rfl | skip
    simp only [commandOf, marshalChunk]
    show (if Config.chunkMax * s.k.toNat + chunkLength _ s.k.toNat ≤ Config.imageMax then _ else _) =
      onNext _ (if Config.chunkMax * s.k.toNat + chunkLength _ s.k.toNat ≤ Config.imageMax then _ else _)
    split <;> rfl
  · rw [exec_txLen hf, exec_txLen (show (s.given bs).fsm = _ from hf)]
    refine linkGuard_given bs hl (congrArg Host.Outcome.next (absorbAndSend_given bs _ _ hx fun u => ?_))
    unfold prefixTaken
    show (if u.idx.toNat + 1 < 2 then _ else _) = (if u.idx.toNat + 1 < 2 then _ else _ : State).given bs
    split <;> rfl
  · rw [exec_txPayload hf, exec_txPayload (show (s.given bs).fsm = _ from hf)]
    refine linkGuard_given bs hl ?_
    unfold txPayloadStep
    show (if s.idx < s.plen then if s.idx.toNat < Config.payloadMax then _ else _ else
      if s.bitcnt = 0 then _ else _) = onNext _ (if s.idx < s.plen then
        if s.idx.toNat < Config.payloadMax then _ else _ else if s.bitcnt = 0 then _ else _)
    split
    · split
      · exact congrArg Host.Outcome.next (absorbAndSend_given bs _ _ hx fun _ => rfl)
      · rfl
    · split <;> rfl
  · rw [exec_txCrc hf, exec_txCrc (show (s.given bs).fsm = _ from hf)]
    refine linkGuard_given bs hl (congrArg Host.Outcome.next ?_)
    unfold sendOnly
    rw [State.lowerPulse_now, State.lowerPulse_now, State.given_now, ← hx]
    show (match s.txOffer with
      | none => _
      | some o => if s.now.txReady then _ else _) = (match s.txOffer with
      | none => _
      | some o => if s.now.txReady then _ else _ : State).given bs
    split
    · rfl
    · split
      · unfold trailerTaken
        show (if s.idx.toNat + 1 < 4 then _ else _) = (if s.idx.toNat + 1 < 4 then _ else _ : State).given bs
        split <;> rfl
      · rfl
  · rw [exec_decode hf, exec_decode (show (s.given bs).fsm = _ from hf)]
    refine congrArg Host.Outcome.next ?_
    rcases ht : i.isTransfer
    · rw [commandOf_oneExchange ht]
      show (if s.ack then _ else _) = (if s.ack then _ else _ : State).given bs
      split
      · cases i <;> first | rfl | skip
        all_goals
          simp only [onAckOf, needsData, decodeHelp]
          first
          | (show (if s.dataLen.toNat < _ then _ else _) = (if s.dataLen.toNat < _ then _ else _ : State).given bs
             split <;> rfl)
          | (show (if 10 < s.dataLen.toNat then _ else _) = (if 10 < s.dataLen.toNat then _ else _ : State).given bs
             split <;> rfl)
      · rfl
    · cases i <;> cases ht
      rfl
  · rw [exec_nextChunk hf, exec_nextChunk (show (s.given bs).fsm = _ from hf)]
    refine congrArg Host.Outcome.next ?_
    unfold nextChunkStep
    show (if moreChunks s then _ else _) = (if moreChunks s then _ else _ : State).given bs
    split <;> rfl
  · rw [exec_done hf, exec_done (show (s.given bs).fsm = _ from hf)]
    rfl

/-- No command changes the pins or the parameters, and none takes a byte where none is awaited. -/
theorem Move.keepsPins (h : Move i s t) : t.script = s.script ∧ t.restPins = s.restPins ∧
    t.params = s.params ∧ (s.fsm.receiving = false → t.rx = s.rx) := by
  have off : ∀ f, s.fsm = f → f.receiving = true → s.fsm.receiving = false → t.rx = s.rx :=
    fun f hf h h' => by rw [hf, h] at h'; cases h'
  cases h
  case decoded hf ht ha =>
    cases i <;> first | exact ⟨rfl, rfl, rfl, fun _ => rfl⟩ | skip
    all_goals
      simp only [onAckOf, needsData, decodeHelp]
      split <;> exact ⟨rfl, rfl, rfl, fun _ => rfl⟩
  case lenTaken => unfold prefixTaken; split <;> exact ⟨rfl, rfl, rfl, fun _ => rfl⟩
  case trailerTaken => unfold Machine.trailerTaken; split <;> exact ⟨rfl, rfl, rfl, fun _ => rfl⟩
  all_goals first
    | exact ⟨rfl, rfl, rfl, fun _ => rfl⟩
    | exact ⟨rfl, rfl, rfl, off _ (by assumption) rfl⟩

/-- The engine's cycle where no byte is awaited and a host command, if there is one, is on the port. -/
theorem cycle_given (bs : List Byte) (hr : s.fsm.receiving = false)
    (hl : s.now.linkErr = s.restPins.linkErr) (hx : s.now.txReady = s.restPins.txReady)
    (hc : s.now.cmdOffer = s.restPins.cmdOffer) :
    cycle (s.given bs) = onNext (State.given bs) (cycle s) := by
  have himg : (s.given bs).hostWritesImage = s.hostWritesImage.given bs := by
    unfold State.hostWritesImage
    show (match s.host with
      | { desc := _, image := some bytes } :: _ => _
      | _ => _) = (match s.host with
      | { desc := _, image := some bytes } :: _ => _
      | _ => _ : State).given bs
    split <;> rfl
  have hport : s.hostWritesImage.portDescriptor = s.portDescriptor := hostWritesImage_portDescriptor s
  have hcv : (s.given bs).cmdValid = s.cmdValid := by
    unfold State.cmdValid; rw [State.given_now, ← hc]; rfl
  unfold cycle
  rw [State.given_fsm, hcv, himg]
  split
  · split
    · have e := hostWritesImage_eq s
      have hr' : s.hostWritesImage.fsm.receiving = false := by rw [e]; exact hr
      have hl' : s.hostWritesImage.now.linkErr = s.hostWritesImage.restPins.linkErr := by rw [e]; exact hl
      have hx' : s.hostWritesImage.now.txReady = s.hostWritesImage.restPins.txReady := by rw [e]; exact hx
      unfold runPort
      show (match s.hostWritesImage.portDescriptor.instr? with
        | some i => _
        | none => _) = onNext _ (match s.hostWritesImage.portDescriptor.instr? with
        | some i => _
        | none => _)
      split
      · exact exec_given bs hr' hl' hx'
      · unfold acceptNoCommand accept
        show (match validate s.hostWritesImage.portDescriptor with
          | some cause => _
          | none => _) = onNext _ (match validate s.hostWritesImage.portDescriptor with
          | some cause => _
          | none => _)
        split <;> rfl
    · rfl
  · unfold runLatched
    show (match s.desc.instr? with
      | some i => _
      | none => _) = onNext _ (match s.desc.instr? with
      | some i => _
      | none => _)
    split
    · exact exec_given bs hr hl hx
    · show (if s.fsm = .done then _ else _) = onNext _ (if s.fsm = .done then _ else _)
      split <;> rfl

/-- The same of the engine's cycle. -/
theorem cycle_keepsPins (h : cycle s = .next t) : t.script = s.script ∧ t.restPins = s.restPins ∧
    t.params = s.params ∧ (s.fsm.receiving = false → t.rx = s.rx) := by
  unfold cycle at h
  split at h
  · split at h
    · have e := hostWritesImage_eq s
      generalize s.hostWritesImage = v at e h
      have hv : v.script = s.script ∧ v.restPins = s.restPins ∧ v.params = s.params ∧ v.rx = s.rx ∧
          v.fsm = s.fsm := by rw [e]; exact ⟨rfl, rfl, rfl, rfl, rfl⟩
      obtain ⟨h1, h2, h3, h4, h5⟩ := hv
      unfold runPort at h
      split at h
      · obtain ⟨k1, k2, k3, k4⟩ := (exec_move h).keepsPins
        exact ⟨k1.trans h1, k2.trans h2, k3.trans h3, fun hr => (k4 (h5 ▸ hr)).trans h4⟩
      · rcases accept_cases id toMarshal v.lowerPulse with ⟨c, -, e⟩ | ⟨-, e⟩ <;>
          rw [acceptNoCommand, e] at h <;> cases h <;> exact ⟨h1, h2, h3, fun _ => h4⟩
    · cases h; exact ⟨rfl, rfl, rfl, fun _ => rfl⟩
  · unfold runLatched at h
    split at h
    · exact (exec_move h).keepsPins
    · split at h <;> cases h
      exact ⟨rfl, rfl, rfl, fun _ => rfl⟩

theorem Calm.step_eq (h : Calm s) : step s = thenAdvance (cycle s) := by
  rw [step, h.now.1]; rfl

/-- Moving on adds what arrives to the receive side, in a calm run. -/
theorem Calm.advance (h : Calm s) : s.advance =
    { s with script := s.script.tail, rx := s.rx ++ s.now.arrive } := by
  have hx : s.now.rxHolds = none := by rw [h.now.1]; rfl
  have hb : s.now.restored = false := by rw [h.now.1]; rfl
  rw [State.advance, State.rxKept, State.boundaryKept, hx, hb]
  simp

/-- Calm is a matter of the pins and the parameters alone. -/
theorem Calm.of_pins (h : Calm s) (h1 : t.script = s.script) (h2 : t.restPins = s.restPins)
    (h3 : t.params = s.params) : Calm t :=
  ⟨h2.trans h.atRest, by rw [h1, h3]; exact h.scripted⟩

theorem Calm.advance_calm (h : Calm s) : Calm s.advance := by
  rw [h.advance]
  exact ⟨h.atRest, fun p hp => h.scripted p (List.mem_of_mem_tail hp)⟩

theorem Calm.arrive_quiet (h : Calm s) (hs : s.script = []) : s.now.arrive = [] := by
  rw [State.now_quiet s ⟨hs, h.atRest⟩]; rfl

/-- What arrives in a step is already counted. -/
theorem Calm.advance_arrived (h : Calm s) : s.advance.arrived = s.arrived := by
  have e : s.advance.incoming = s.incoming := by
    rw [h.advance]
    unfold State.incoming
    rcases hs : s.script with _ | ⟨p, ps⟩
    · simp [h.arrive_quiet hs]
    · simp [State.now, hs]
  rw [State.arrived, State.arrived, e, h.advance]
  rfl

/-- A step in which no byte is awaited. -/
theorem Calm.step_free (h : Calm s) (hr : s.fsm.receiving = false) (hu : step s.arrived = .next u) :
    ∃ t, step s = .next t ∧ Calm t ∧ t.arrived = u ∧ t.chunkEvt = u.chunkEvt := by
  have hq : Calm s.arrived := ⟨h.atRest, fun p hp => nomatch hp⟩
  rw [hq.step_eq, State.arrived, cycle_given _ hr] at hu
  rotate_left
  · rw [h.now.1, h.atRest]
  · rw [h.now.1, h.atRest]
  · rw [h.now.1, h.atRest]
  rcases hc : cycle s with v | r | r <;> rw [hc] at hu <;> cases hu
  obtain ⟨k1, k2, k3, k4⟩ := cycle_keepsPins hc
  have hv : Calm v := h.of_pins k1 k2 k3
  have e : (v.given s.incoming).advance = v.arrived := by
    rw [State.advance_quiet (v.given s.incoming) ⟨rfl, hv.atRest⟩, State.arrived, State.incoming, State.incoming,
      k1, k4 hr]
  refine ⟨v.advance, by rw [h.step_eq, hc]; rfl, hv.advance_calm, ?_, rfl⟩
  rw [hv.advance_arrived, ← e]

/-- A step in which a byte is awaited and one waits. -/
theorem Calm.step_take (h : Calm s) {b : Byte} {bs : List Byte} (hb : s.rx = b :: bs)
    (hr : s.fsm.receiving = true) (hu : step s.arrived = .next u) :
    ∃ t, step s = .next t ∧ Calm t ∧ t.arrived = u ∧ t.chunkEvt = u.chunkEvt := by
  have hq : Calm s.arrived := ⟨h.atRest, fun p hp => nomatch hp⟩
  have hni : s.fsm ≠ .idle := by intro e; rw [e] at hr; cases hr
  have hl : s.now.linkErr = false := by rw [h.now.1]; rfl
  have ho : s.rxOffered = some b := by
    rw [State.rxOffered, show s.now.rxOffer = true by rw [h.now.1]; rfl, hb]; rfl
  have hl' : s.arrived.now.linkErr = false := by rw [State.now_quiet _ h.quiet_arrived]; rfl
  have ho' : s.arrived.rxOffered = some b := by
    rw [rxOffered_quiet h.quiet_arrived]
    show s.incoming.head? = _
    rw [State.incoming, hb]; rfl
  have hin : s.incoming.tail = s.lowerPulse.takeByte.incoming := by
    show _ = s.rx.tail ++ _
    rw [State.incoming, hb]; rfl
  -- the byte taken, in both
  have both : ∀ got : Byte → State → Result,
      (∀ (v : State) cs, v.fsm = s.fsm → got b (v.given cs) = onNext (State.given cs) (got b v)) →
      (∀ i, exec i s = linkGuard (receive got) s.lowerPulse) →
      (∀ i, exec i s.arrived = linkGuard (receive got) s.arrived.lowerPulse) →
      ∀ i, exec i s.arrived = onNext (State.given s.lowerPulse.takeByte.incoming) (exec i s) := by
    intro got hg h1 h2 i
    rw [h1, h2, linkGuard, linkGuard, State.lowerPulse_now, State.lowerPulse_now, hl, hl',
      if_neg Bool.false_ne_true, if_neg Bool.false_ne_true, receive, receive, State.lowerPulse_rxOffered,
      State.lowerPulse_rxOffered, ho, ho']
    have e := hg s.lowerPulse.takeByte s.lowerPulse.takeByte.incoming rfl
    rw [← e]
    show got b s.arrived.lowerPulse.takeByte = _
    refine congrArg (got b) ?_
    show ({ s.lowerPulse.takeByte with script := [], rx := s.incoming.tail } : State) = _
    rw [hin]; rfl
  have all : ∀ i, exec i s.arrived = onNext (State.given s.lowerPulse.takeByte.incoming) (exec i s) := by
    rcases hf : s.fsm <;> rw [hf] at hr <;> first | (cases hr; done) | skip
    · refine both gotStatus (fun v cs _ => ?_) (fun i => exec_rxStatus hf) (fun i => exec_rxStatus hf)
      unfold gotStatus; split <;> rfl
    · exact both gotLength (fun v cs _ => rfl) (fun i => exec_rxLen hf) (fun i => exec_rxLen hf)
    · refine both gotData (fun v cs _ => ?_) (fun i => exec_rxData hf) (fun i => exec_rxData hf)
      unfold gotData
      show (if v.idx.toNat < Config.respDataMax then _ else _) =
        onNext _ (if v.idx.toNat < Config.respDataMax then _ else _)
      split <;> rfl
  have hd : s.fsm ≠ .done := by intro e; rw [e] at hr; cases hr
  rw [hq.step_eq, cycle, if_neg (show ¬ s.arrived.fsm = .idle from hni), runLatched] at hu
  rw [h.step_eq, cycle, if_neg hni, runLatched]
  change thenAdvance (match s.desc.instr? with
    | some i => _
    | none => _) = _ at hu
  rcases hi : s.desc.instr? with _ | i <;> rw [hi] at hu <;> dsimp only at hu ⊢
  · rw [if_neg (show ¬ s.arrived.fsm = .done from hd)] at hu; cases hu
  rw [all] at hu
  rcases hc : exec i s with v | r | r <;> rw [hc] at hu <;> cases hu
  obtain ⟨k1, k2, k3, -⟩ := (exec_move hc).keepsPins
  have hv : Calm v := h.of_pins k1 k2 k3
  have hrx : v.rx = s.rx.tail := by
    have hg : ∀ got : Byte → State → Result, exec i s = linkGuard (receive got) s.lowerPulse →
        (∀ u w, got b u = .next w → w.rx = u.rx) → v.rx = s.rx.tail := by
      intro got h1 h2
      rw [h1, linkGuard, State.lowerPulse_now, hl, if_neg Bool.false_ne_true, receive,
        State.lowerPulse_rxOffered, ho] at hc
      exact h2 _ _ hc
    rcases hf : s.fsm <;> rw [hf] at hr <;> first | (cases hr; done) | skip
    · refine hg gotStatus (exec_rxStatus hf) (fun u w e => ?_)
      unfold gotStatus at e; split at e <;> cases e <;> rfl
    · refine hg gotLength (exec_rxLen hf) (fun u w e => ?_)
      cases e; rfl
    · refine hg gotData (exec_rxData hf) (fun u w e => ?_)
      unfold gotData at e; split at e <;> cases e; rfl
  refine ⟨v.advance, rfl, hv.advance_calm, ?_, rfl⟩
  rw [hv.advance_arrived]
  show _ = (v.given s.lowerPulse.takeByte.incoming).advance
  rw [State.advance_quiet (v.given s.lowerPulse.takeByte.incoming) ⟨rfl, hv.atRest⟩, State.arrived,
    State.incoming, k1, hrx]
  rfl

/-- A step in which a byte is awaited and none waits yet: the engine waits on. -/
theorem Calm.step_wait (h : Calm s) (hb : s.rx = []) (hs : s.script ≠ []) (hr : s.fsm.receiving = true)
    (hi : s.desc.instr? = some i) : step s = .next s.lowerPulse.advance := by
  have hl : s.now.linkErr = false := by rw [h.now.1]; rfl
  have ho : s.lowerPulse.rxOffered = none := by
    rw [State.lowerPulse_rxOffered, State.rxOffered, hb]; split <;> rfl
  have hw : s.lowerPulse.waitForByte = s.lowerPulse := by
    unfold State.waitForByte
    show (match s.params.rxTimeout with
      | none => _
      | some t => if s.now.timeUnit then _ else _) = _
    rcases hp : s.params.rxTimeout with _ | T
    · rfl
    · have ht : s.now.timeUnit = false := by
        rcases ht : s.now.timeUnit
        · rfl
        · rw [h.now.2 ht hs] at hp; cases hp
      rw [ht]; rfl
  have hni : s.fsm ≠ .idle := by intro e; rw [e] at hr; cases hr
  have he : ∀ got, linkGuard (receive got) s.lowerPulse = .next s.lowerPulse := by
    intro got
    rw [linkGuard, State.lowerPulse_now, hl, if_neg Bool.false_ne_true, receive, ho]
    exact congrArg Host.Outcome.next hw
  have hx : exec i s = .next s.lowerPulse := by
    rcases hf : s.fsm <;> rw [hf] at hr <;> first | (cases hr; done) | skip
    · rw [exec_rxStatus hf, he]
    · rw [exec_rxLen hf, he]
    · rw [exec_rxData hf, he]
  rw [h.step_eq, cycle, if_neg hni, runLatched, hi]
  show thenAdvance (exec i s) = _
  rw [hx]; rfl

/-- Lowering the pulse first makes no difference to a running command. -/
theorem step_lowerPulse (hf : s.fsm ≠ .idle) : step s.lowerPulse = step s := by
  have e : ∀ i, exec i s.lowerPulse = exec i s := by
    intro i
    rw [exec_eq, exec_eq]
    rfl
  unfold step cycle
  rw [State.lowerPulse_now]
  show (if s.now.rst then _ else thenAdvance (if s.fsm = .idle then _ else runLatched s.lowerPulse)) = _
  rw [if_neg hf, if_neg hf]
  unfold runLatched
  simp only [e]
  rfl

/-- One step of a fed run with quiet pins is some steps of the calm one, with the same event. -/
theorem Calm.some_steps (h : Calm s) (hr : s.fsm.receiving = true → s.incoming ≠ [])
    (hu : step s.arrived = .next u) :
    ∃ n t, Run n s t ∧ Calm t ∧ t.arrived = u ∧ eventsAlong n s = u.chunkEvt.toList := by
  have last : ∀ {s t : State}, step s = .next t → Calm t → t.arrived = u → t.chunkEvt = u.chunkEvt →
      ∃ n t, Run n s t ∧ Calm t ∧ t.arrived = u ∧ eventsAlong n s = u.chunkEvt.toList :=
    fun h1 h2 h3 h4 => ⟨1, _, Run.one h1, h2, h3, by rw [eventsAlong_one h1, h4]⟩
  rcases hf : s.fsm.receiving
  · obtain ⟨t, h1, h2, h3, h4⟩ := h.step_free hf hu
    exact last h1 h2 h3 h4
  have hin := hr hf
  clear hr
  have hni : s.fsm ≠ .idle := by intro e; rw [e] at hf; cases hf
  generalize hn : s.script.length = n
  induction n generalizing s with
  | zero =>
    have hs : s.script = [] := List.length_eq_zero_iff.1 hn
    rcases hb : s.rx with _ | ⟨b, bs⟩
    · exact absurd (by rw [State.incoming, hb, hs]; rfl) hin
    · obtain ⟨t, h1, h2, h3, h4⟩ := h.step_take hb hf hu
      exact last h1 h2 h3 h4
  | succ n ih =>
    rcases hb : s.rx with _ | ⟨b, bs⟩
    · have hs : s.script ≠ [] := by intro e; rw [e] at hn; cases hn
      obtain ⟨i, hi⟩ : ∃ i, s.desc.instr? = some i := by
        rcases hi : s.desc.instr? with _ | i
        · exfalso
          have hq : Calm s.arrived := ⟨h.atRest, fun p hp => nomatch hp⟩
          rw [hq.step_eq, cycle, if_neg (show ¬ s.arrived.fsm = .idle from hni), runLatched,
            show s.arrived.desc.instr? = none from hi] at hu
          dsimp only at hu
          rw [if_neg (show ¬ s.arrived.fsm = .done by
            intro e; rw [show s.fsm = _ from e] at hf; cases hf)] at hu
          cases hu
        · exact ⟨i, rfl⟩
      have hw := h.step_wait hb hs hf hi
      have hc : Calm s.lowerPulse := h.of_pins rfl rfl rfl
      have harr : s.lowerPulse.advance.arrived = s.arrived.lowerPulse := hc.advance_arrived
      obtain ⟨m, t, h1, h2, h3, h4⟩ := ih (s := s.lowerPulse.advance) hc.advance_calm
        (by rw [harr, step_lowerPulse (show s.arrived.fsm ≠ .idle from hni)]; exact hu) hf
        (by
          have e : s.lowerPulse.advance.incoming = s.incoming := congrArg State.rx harr
          rw [e]; exact hin) hni
        (by show s.script.tail.length = n; rw [List.length_tail, hn]; rfl)
      exact ⟨m + 1, t, ⟨_, hw, h1⟩, h2, h3, by
        rw [← h4]; simp only [eventsAlong, hw]; rfl⟩
    · obtain ⟨t, h1, h2, h3, h4⟩ := h.step_take hb hf hu
      exact last h1 h2 h3 h4

/-- A fed run with quiet pins, from the state in which all bytes have arrived, is matched by a calm run
from the state in which they arrive by the script: same end, same events. -/
theorem Calm.fed {es : List ChunkEvent} (h : Calm s) (hf : Fed es s.arrived u) :
    ∃ n t, Run n s t ∧ Calm t ∧ t.arrived = u ∧ eventsAlong n s = es := by
  generalize hv : s.arrived = v at hf
  induction hf generalizing s with
  | refl v => exact ⟨0, s, rfl, h, hv, rfl⟩
  | step hs hr _ ih =>
    subst hv
    obtain ⟨m, t, h1, h2, h3, h4⟩ := h.some_steps hr hs
    obtain ⟨n, w, k1, k2, k3, k4⟩ := ih h2 h3
    exact ⟨m + n, w, h1.append k1, k2, k3, by rw [eventsAlong_append h1, h4, k4]⟩

/-- A target at a boundary is at one again when the link has taken one more whole frame. -/
theorem TargetAtBoundary.sent {p : List Byte} (h : TargetAtBoundary s) (hp : p.length ≤ Config.payloadMax)
    (hb : t.boundary = s.boundary) (ht : t.tx = s.tx ++ encodeFrame p) : TargetAtBoundary t := by
  obtain ⟨b, h1, h2, ps, h3, h4⟩ := h
  refine ⟨b, hb.trans h1, by rw [ht, List.length_append]; omega, ps ++ [p], fun q hq => ?_, ?_⟩
  · rcases List.mem_append.1 hq with hq | hq
    · exact h3 q hq
    · cases List.mem_singleton.1 hq
      exact hp
  · rw [ht, List.drop_append_of_le_length h2, h4]; simp

/-- While only bytes arrive, every command on the port stays there until it is accepted. -/
theorem Calm.cmdOffer_next (h : Calm s) : s.nextPins.cmdOffer = true := by
  unfold State.nextPins
  rcases hs : s.script.tail with _ | ⟨p, ps⟩
  · show s.restPins.cmdOffer = true
    rw [h.atRest]; rfl
  · show p.cmdOffer = true
    rw [(h.scripted p (List.mem_of_mem_tail (by rw [hs]; simp))).1]; rfl

/-- The host's duties, met when a command is presented, are met again when it has ended with nothing left to
arrive and the target at a boundary (70_reset_and_hazards.md R253). -/
theorem HostDuties.again {c : HostCommand} {cs : List HostCommand} (h : HostDuties s) (hs : Calm s)
    (ht : Calm t) (hf : s.fsm = .idle) (hc : s.host = c :: cs) (hh : t.host = cs) (hr : t.incoming = [])
    (hb : TargetAtBoundary s → TargetAtBoundary t) : HostDuties t where
  commands d hd := h.commands d (by rw [hc]; rw [hh] at hd; exact List.mem_cons_of_mem _ hd)
  images d hd := h.images d (by rw [hc]; rw [hh] at hd; exact List.mem_cons_of_mem _ hd)
  descriptorKept _ _ := ht.cmdOffer_next
  rxEmpty _ _ := (List.append_eq_nil_iff.1 hr).1
  targetReady _ _ := hb (h.targetReady hf (by rw [State.cmdValid, hs.now.1, hc]; rfl))

end Sys2Proof.Machine
end

