-- ==== Sys2Proof/Laws/PerInstr.lean ====
section
/-! SUPPORT. One statement per instruction as syntax: a descriptor that latches an instruction selects
that instruction, with its operands, whatever the fields it does not name hold (30_encoding.md R87,
42_command_protocol.md R158). -/

namespace Sys2Proof.Laws.LatchInstr

def Statement (i : Instr) : Prop := ∀ d : Machine.Descriptor, (i.latch d).instr? = some i

theorem getVersion : Statement .getVersion := fun _ => rfl

theorem getHelp : Statement .getHelp := fun _ => rfl

theorem getChipId : Statement .getChipId := fun _ => rfl

theorem getRdpStatus : Statement .getRdpStatus := fun _ => rfl

theorem goToAddress (addrLen : BitVec 4) (addr : AddrBytes) : Statement (.goToAddress addrLen addr) :=
  fun _ => rfl

theorem eraseFlash (page count : Byte) : Statement (.eraseFlash page count) := fun _ => rfl

theorem memWrite (page : Byte) (imgLen : BitVec 18) : Statement (.memWrite page imgLen) := fun _ => rfl

theorem memRead (addrLen : BitVec 4) (addr : AddrBytes) (rdLen : Word) :
    Statement (.memRead addrLen addr rdLen) := fun _ => rfl

theorem jumpToApp (page : Byte) : Statement (.jumpToApp page) := fun _ => rfl

theorem changeRdpLevel (level : BitVec 1) : Statement (.changeRdpLevel level) := fun _ => rfl

end Sys2Proof.Laws.LatchInstr
end

