-- ==== Sys2Proof/Laws/Transfer.lean ====
section
/-! SUPPORT. The fail map of a transfer and the arithmetic of its chunks (44_transfer_session.md R201, R203). -/

namespace Sys2Proof.Machine

/-- Bit `k` of the fail map is set, and no other bit changes (R203). -/
theorem getLsbD_setFailBit (m : BitVec 128) {k j : Nat} (hk : k < 128) :
    (setFailBit m k).getLsbD j = (m.getLsbD j || j == k) := by
  unfold setFailBit
  rw [BitVec.getLsbD_or, BitVec.getLsbD_shiftLeft, BitVec.getLsbD_one]
  congr 1
  by_cases h : j = k
  · subst h; simp [hk]
  · by_cases h1 : j < k
    · simp [h, h1]
    · have : j - k ≠ 0 := by omega
      simp [h, this]

/-- Setting a bit that is not set makes one more set bit. -/
theorem failBits_setFailBit (m : BitVec 128) {k : Nat} (hk : k < 128) (h : m.getLsbD k = false) :
    failBits (setFailBit m k) = failBits m + 1 := by
  have e : ∀ n, k < n →
      ((List.range n).filter (fun j => (setFailBit m k).getLsbD j)).length =
        ((List.range n).filter (fun j => m.getLsbD j)).length + 1 := by
    have low : ∀ n, n ≤ k →
        ((List.range n).filter (fun j => (setFailBit m k).getLsbD j)).length =
          ((List.range n).filter (fun j => m.getLsbD j)).length := by
      intro n hn
      congr 1
      apply List.filter_congr
      intro j hj
      rw [getLsbD_setFailBit m hk]
      have : j ≠ k := by have := List.mem_range.1 hj; omega
      simp [this]
    intro n hn
    induction n with
    | zero => omega
    | succ n ih =>
      rw [List.range_succ, List.filter_append, List.filter_append, List.length_append, List.length_append]
      by_cases hk' : n = k
      · subst hk'
        rw [low n (le_refl n)]
        simp [getLsbD_setFailBit m hk, h]
      · rw [ih (by omega)]
        have : (setFailBit m k).getLsbD n = m.getLsbD n := by
          rw [getLsbD_setFailBit m hk]; simp [hk']
        simp only [List.filter_cons, this, List.filter_nil]
        omega
  exact e 128 hk

theorem chunkCount_eq_zero {n : Nat} : chunkCount n = 0 ↔ n = 0 := by unfold chunkCount; omega

theorem chunkCount_le {n : Nat} (h : n ≤ Config.imageMax) : chunkCount n ≤ 128 := by
  unfold Config.imageMax at h; unfold chunkCount; omega

/-- A chunk of the image lies in the image, and is not empty. -/
theorem chunk_bounds {n j : Nat} (h : j < chunkCount n) :
    Config.chunkMax * j + chunkLength n j ≤ n ∧ 1 ≤ chunkLength n j := by
  unfold chunkCount at h; unfold chunkLength Config.chunkMax; omega

end Sys2Proof.Machine
end

