-- ==== Sys2Proof/Tests/Slice0.lean ====
section
/-! SUPPORT. Small tests, and for each obligation with premises a witness that meets them. Expected
values come from spec/95_test_vectors.md (its vector is named) or from the encodings of
spec/30_encoding.md written out by hand. -/

namespace Sys2Proof.Tests

open Sys2Proof.Machine

/-! ### Helpers -/

/-- A running engine in a state of the sequencer, with its descriptor. -/
def running (f : Fsm) (d : Descriptor) : State := { State.reset with fsm := f, busy := true, desc := d }

/-- The engine in `IDLE` with a command of the host's syntax on its port. -/
def offered (c : CommandLine) : State := { State.reset with host := [c.command] }

/-- The engine in `DECODE` after an acknowledged response with these data bytes. -/
def answered (i : Instr) (data : List Byte) : State :=
  { running .decode (i.latch Descriptor.zero) with
    ack := true, stByte := 0x01, dataLen := BitVec.ofNat 8 data.length,
    rxb := Memory.writeList [] 0 data }

/-- The next state, if there is one. -/
def nextOf : Result → Option State
  | .next t => some t
  | _ => none

/-- What `MARSHAL` builds: `plen`, `flen` and the payload. -/
def built (i : Instr) : Option (BitVec 11 × Half × List Byte) :=
  (nextOf (exec i (running .marshal (i.latch Descriptor.zero)))).map
    (fun t => (t.plen, t.flen, t.pb.readList 0 t.plen.toNat))

/-- How `DECODE` of an acknowledged response ends. -/
def ends (i : Instr) (data : List Byte) : Option (Status × Fsm) :=
  (nextOf (exec i (answered i data))).map (fun t => (t.status, t.fsm))

/-- The pins of a step in which the link fails. -/
def failing : Stim := { Stim.quiet with linkErr := true }

/-- The pins of a step in which the link neither takes nor offers a byte, and no time passes. -/
def silent : Stim := { Stim.quiet with txReady := false, rxOffer := false, timeUnit := false }

/-- The parameters of a run with `RX_TIMEOUT = 3`. -/
def timed : Params := { rxTimeout := some 3, xferFailStop := false }

/-- An address of the examples: `08 00 40 00`. -/
def addr1 : AddrBytes := ⟨0x08, 0x00, 0x40, 0x00⟩

/-! ### Well-formedness: an ill-formed term for each check -/

theorem test_wf_goToAddress : Instr.wf (.goToAddress 3 addr1) = false := by decide
theorem test_wf_memRead : Instr.wf (.memRead 5 addr1 4) = false := by decide
theorem test_wf_memWrite : Instr.wf (.memWrite 0 131073) = false := by decide
theorem test_wf_memWrite_max : Instr.wf (.memWrite 0 131072) = true := by decide
theorem test_carries_memWrite : Instr.carries (.memWrite 0 2) [0xAA] = false := by decide
theorem test_carries_none : Instr.carries .getVersion [0xAA] = false := by decide

/-! ### Decoding: a word of every constructor, written out from 30_encoding.md R76 to R85 -/

theorem test_decode_getVersion : decode [0b00010000] = .ok (.getVersion, []) := rfl
theorem test_decode_getHelp : decode [0b00010001] = .ok (.getHelp, []) := rfl
theorem test_decode_getChipId : decode [0b00010010] = .ok (.getChipId, []) := rfl
theorem test_decode_getRdpStatus : decode [0b00010011] = .ok (.getRdpStatus, []) := rfl
theorem test_decode_goToAddress :
    decode [0b00010100, 0x00, 0x40, 0x00, 0x08] = .ok (.goToAddress 4 addr1, []) := rfl
theorem test_decode_eraseFlash : decode [0b00010101, 0x05, 0x03] = .ok (.eraseFlash 5 3, []) := rfl
theorem test_decode_memWrite : decode [0b00010110, 0x02, 0x04, 0x00, 0xDE, 0xAD, 0xBE, 0xEF] =
    .ok (.memWrite 2 4, [0xDE, 0xAD, 0xBE, 0xEF]) := rfl
theorem test_decode_memRead : decode [0b00010111, 0x10, 0x00, 0x00, 0x20, 0x00, 0x01, 0x00, 0x00] =
    .ok (.memRead 4 ⟨0x20, 0x00, 0x00, 0x10⟩ 256, []) := rfl
theorem test_decode_jumpToApp : decode [0b00011000, 0x05] = .ok (.jumpToApp 5, []) := rfl
theorem test_decode_changeRdpLevel_0 : decode [0b00011001, 0xA5] = .ok (.changeRdpLevel 0, []) := rfl
theorem test_decode_changeRdpLevel_1 : decode [0b00011001, 0x00] = .ok (.changeRdpLevel 1, []) := rfl

/-! Words that are no payload (30_encoding.md R78, R80, R88). -/

theorem test_reject_empty : decode [] = .error .empty := rfl
theorem test_reject_low : decode [0x0F] = .error (.badOpcode 0x0F) := rfl
theorem test_reject_high : decode [0x1A] = .error (.badOpcode 0x1A) := rfl
theorem test_reject_truncated : decode [0x14, 0x00, 0x40] = .error (.truncated 0x14) := rfl
theorem test_reject_level : decode [0x19, 0x01] = .error (.badLevelByte 0x01) := rfl
theorem test_reject_long_chunk : decode [0x16, 0x00, 0x01, 0x04] = .error (.chunkTooLong 1025) := rfl
theorem test_reject_trailing : decode [0x10, 0x00] = .error (.trailingBytes 1) := rfl

/-! ### The CRC unit (95_test_vectors.md V-S1, V-S3, V-I2, V-A2, V10, V12) -/

theorem test_bitStep_set : crcShift crcParams 0xFFFFFFFF = 0xFB3EE249 := by decide
theorem test_bitStep_top : crcShift crcParams 0x80000000 = 0x04C11DB7 := by decide
theorem test_inject : crcInject crcParams 0xFFFFFFFF 0x80 = 0x7FFFFFFF := by decide
theorem test_absorb : crcAbsorb crcParams 0xFFFFFFFF 0x05 = 0x679C0BC9 := by decide +kernel
theorem test_crc_V10 : crc32 [0x05, 0x00, 0x10] = 0xE6A5169C := by decide +kernel
theorem test_crc_V9 : crc32 [0x02, 0x01] = 0x022A987A := by decide +kernel

/-! ### Frames and responses (V17, V18k, V18g, V37, V39) -/

theorem test_frame_V17 : encodeFrame (encode .getVersion []) =
    [0x05, 0x00, 0x10, 0x9C, 0x16, 0xA5, 0xE6] := by decide +kernel
theorem test_frame_V18k : encodeFrame (encode (.memRead 4 ⟨0x08, 0x00, 0x00, 0x00⟩ 4) []) =
    [0x0D, 0x00, 0x17, 0x00, 0x00, 0x00, 0x08, 0x04, 0x00, 0x00, 0x00, 0x4F, 0x14, 0xFA, 0xC2] := by
  decide +kernel
theorem test_frame_V18g : encodeFrame (chunkPayload 2 [0xDE, 0xAD, 0xBE, 0xEF]) =
    [0x0C, 0x00, 0x16, 0x02, 0x04, 0x00, 0xDE, 0xAD, 0xBE, 0xEF, 0x55, 0xAC, 0xEC, 0x58] := by decide +kernel
theorem test_response_V37 : decodeResponse [0x7F, 0x05, 0x11, 0x22] =
    some ({ ack := false, stByte := 0x7F, data := [] }, [0x05, 0x11, 0x22]) := by decide
theorem test_response_V39 : decodeResponse [0x01, 0x03, 0xAA] = none := by decide

/-! ### One step of each command -/

theorem test_getVersion_marshal : built .getVersion = some (1, 5, [0x10]) := by decide
/-- V40. -/
theorem test_getVersion_decode :
    (nextOf (exec .getVersion (answered .getVersion [0xAA, 1, 2, 3]))).map
      (fun t => (t.status, t.verVendor, t.verMajor, t.verMinor, t.verPatch)) =
    some (.ok, 0xAA, 1, 2, 3) := by decide
/-- V41. -/
theorem test_getVersion_short : ends .getVersion [0xAA, 1, 2] = some (.shortResponse, .done) := by decide

theorem test_getHelp_marshal : built .getHelp = some (1, 5, [0x11]) := by decide
/-- V46. -/
theorem test_getHelp_overflow : ends .getHelp
    [0x10, 0x11, 0x12, 0x13, 0x14, 0x15, 0x16, 0x17, 0x18, 0x19, 0x1A] =
    some (.helpOverflow, .done) := by decide

/-- V48. -/
theorem test_getChipId_decode : (nextOf (exec .getChipId (answered .getChipId [0x34, 0x12]))).map
    (fun t => (t.status, t.chipId)) = some (.ok, 0x1234) := by decide
/-- V48b. -/
theorem test_getChipId_short : ends .getChipId [0x34] = some (.shortResponse, .done) := by decide

/-- V49. -/
theorem test_getRdpStatus_zero : (nextOf (exec .getRdpStatus (answered .getRdpStatus [0x00]))).map
    (fun t => (t.status, t.rdpRep)) = some (.ok, 1) := by decide
/-- V49a. -/
theorem test_getRdpStatus_one : (nextOf (exec .getRdpStatus (answered .getRdpStatus [0x01]))).map
    (fun t => (t.status, t.rdpRep)) = some (.ok, 0) := by decide

/-- V18c. -/
theorem test_goToAddress_marshal : built (.goToAddress 4 addr1) =
    some (5, 9, [0x14, 0x00, 0x40, 0x00, 0x08]) := by decide
/-- V50. -/
theorem test_goToAddress_reject : (nextOf (step (offered (.goToAddress [0x08, 0x00, 0x40])))).map
    (fun t => (t.status, t.subcause, t.fsm, t.tx)) =
    some (.localValidation, .badAddrLen, .done, []) := by decide

/-- V18e. -/
theorem test_eraseFlash_marshal : built (.eraseFlash 5 3) = some (3, 7, [0x15, 0x05, 0x03]) := by decide
/-- V57. -/
theorem test_eraseFlash_bad : (nextOf (step (offered (.bad (.eraseFlash 5 3))))).map
    (fun t => (t.status, t.subcause)) = some (.localValidation, .badParam) := by decide

/-- V60. -/
theorem test_memWrite_empty : (nextOf (step (offered (.memWrite 9 [])))).map
    (fun t => (t.status, t.curPage, t.fsm)) = some (.ok, 9, .done) := by decide
/-- V18i, V61. -/
theorem test_memWrite_marshal :
    (nextOf (exec (.memWrite 0 1) { running .marshal ((Instr.memWrite 0 1).latch Descriptor.zero) with
      img := [(0, 0x5A)], nchunks := 1 })).map
      (fun t => (t.clen, t.pb.readList 0 t.plen.toNat)) =
    some (1, [0x16, 0x00, 0x01, 0x00, 0x5A]) := by decide

/-- V18l. -/
theorem test_memRead_marshal : built (.memRead 4 ⟨0x20, 0x00, 0x00, 0x10⟩ 256) =
    some (9, 13, [0x17, 0x10, 0x00, 0x00, 0x20, 0x00, 0x01, 0x00, 0x00]) := by decide
/-- V49d. -/
theorem test_memRead_view :
    (nextOf (exec (.memRead 4 addr1 4) (answered (.memRead 4 addr1 4) [0x78, 0x56, 0x34, 0x12]))).map
      readDataView = some [0x12, 0x34, 0x56, 0x78] := by decide

/-- V18m. -/
theorem test_jumpToApp_marshal : built (.jumpToApp 5) = some (2, 6, [0x18, 0x05]) := by decide

/-- V19, V20. -/
theorem test_changeRdpLevel_marshal : built (.changeRdpLevel 0) = some (2, 6, [0x19, 0xA5]) ∧
    built (.changeRdpLevel 1) = some (2, 6, [0x19, 0x00]) := by decide

/-- What does not fit the port does not pass as something shorter (log 20). -/
theorem test_commandLine_bounds :
    validate (CommandLine.goToAddress (List.replicate 20 0x08)).command.desc = some .badAddrLen ∧
    imageLength 262144 = 262143 ∧ imageLength 131072 = 131072 := by decide

/-- V54. -/
theorem test_select_0 : (nextOf (step (offered (.select 0)))).map
    (fun t => (t.status, t.subcause)) = some (.localValidation, .badSelector) := by decide

/-- 60_exceptions.md R221, R222. -/
theorem test_status_codes : [Status.ok, .nack, .localValidation, .transport, .noResponse, .shortResponse,
      .helpOverflow].map Status.code = [0, 1, 2, 3, 4, 5, 6] ∧
    [Subcause.none, .badSelector, .badParam, .badAddrLen].map Subcause.code = [0, 1, 2, 3] := by decide

/-- 10_state.md R24: a result outside its window is no value. -/
theorem test_ports :
    let s : State := { answered .getChipId [0x34, 0x12] with fsm := .idle, busy := false, resValid := true,
                                                             chipId := 0x1234 }
    s.statusOut = some .ok ∧ s.chipIdOut = some 0x1234 ∧ s.rdpRepOut = none ∧ s.subcauseOut = none ∧
    s.rxbOut 1 = some 0x12 ∧ s.rxbOut 2 = none ∧ State.reset.statusOut = none := by decide

/-- A row's word runs as the first instruction after reset. -/
theorem test_withFetchWord : (nextOf (step (State.reset.withFetchWord 24 0x030515))).map
    (fun t => (t.fsm, t.desc.sel, t.desc.page, t.desc.count)) = some (.marshal, 6, 5, 3) := by decide

/-! ### Witnesses: for each obligation with premises, values that meet them all, clause by clause -/

theorem witness_CrcAbsorbIsInjectAnd32Steps : 0 ≤ 32 ∧ 32 ≤ 32 := by decide

theorem witness_CrcDifferenceIsLinear : [0x01, 0x02, 0x03, 0x04].length = [0x10, 0x20, 0x30, 0x40].length := rfl

/-- In `MARSHAL`; in `TX_LEN` an inject; in `TX_PAYLOAD` a bit step; in `DONE`. -/
theorem witness_AccWrittenOnlyByCrcOperations :
    (∃ t, exec .getVersion (running .marshal (Instr.getVersion.latch Descriptor.zero)) = .next t) ∧
    (∃ t, exec .getVersion { running .txLen Descriptor.zero with plen := 1, flen := 5 } = .next t) ∧
    (∃ t, exec .getVersion
      { running .txPayload Descriptor.zero with plen := 1, flen := 5, bitcnt := 7 } = .next t) ∧
    (∃ t, exec .getVersion (running .done Descriptor.zero) = .next t) :=
  ⟨⟨_, rfl⟩, ⟨_, rfl⟩, ⟨_, rfl⟩, ⟨_, rfl⟩⟩

theorem witness_FrameLayout : ([] : List Byte).length ≤ Config.payloadMax ∧
    (List.replicate 1028 (0xFF : Byte)).length ≤ Config.payloadMax := by
  rw [List.length_replicate]; decide

theorem witness_FrameTellsItsLength : ([] : List Byte).length ≤ Config.payloadMax ∧
    (List.replicate 1028 (0xFF : Byte)).length ≤ Config.payloadMax := witness_FrameLayout

theorem witness_FrameFirstBytes : Instr.isTransfer .getVersion = false ∧ Instr.isTransfer .getHelp = false ∧
    Instr.isTransfer .getChipId = false ∧ Instr.isTransfer .getRdpStatus = false ∧
    Instr.isTransfer (.goToAddress 4 addr1) = false ∧ Instr.isTransfer (.eraseFlash 255 0) = false ∧
    Instr.isTransfer (.memRead 4 addr1 0) = false ∧ Instr.isTransfer (.jumpToApp 255) = false ∧
    Instr.isTransfer (.changeRdpLevel 1) = false ∧
    ([] : List Byte).length ≤ 1024 ∧ (List.replicate 1024 (0xFF : Byte)).length ≤ 1024 := by
  rw [List.length_replicate]; decide

theorem witness_DecodeOfEncode :
    (Instr.wf (.goToAddress 4 addr1) = true ∧ Instr.carries (.goToAddress 4 addr1) [] = true) ∧
    (Instr.wf (.memRead 4 addr1 0xFFFFFFFF) = true ∧ Instr.carries (.memRead 4 addr1 0xFFFFFFFF) [] = true) ∧
    (Instr.wf (.memWrite 255 0) = true ∧ Instr.carries (.memWrite 255 0) [] = true) ∧
    (Instr.wf (.memWrite 0 1024) = true ∧
      Instr.carries (.memWrite 0 1024) (List.replicate 1024 0xFF) = true) ∧
    (Instr.wf (.changeRdpLevel 1) = true ∧ Instr.carries (.changeRdpLevel 1) [] = true) := by
  simp only [Instr.carries, List.length_replicate]; decide

theorem witness_EncodeOfDecode :
    decode [0x16, 0x00, 0x01, 0x00, 0x5A] = .ok (.memWrite 0 1, [0x5A]) ∧
    decode [0x16, 0x07, 0x00, 0x00] = .ok (.memWrite 7 0, []) ∧
    decode [0x19, 0x00] = .ok (.changeRdpLevel 1, []) := ⟨rfl, rfl, rfl⟩

theorem witness_OpcodeTable : 0 < 10 ∧ 9 < 10 := by decide

theorem witness_ResponseRoundTrip : ([] : List Byte).length ≤ 255 ∧
    (List.replicate 255 (0x01 : Byte)).length ≤ 255 ∧ (0x00 : Byte) ≠ 0x01 ∧ (0xFF : Byte) ≠ 0x01 := by
  rw [List.length_replicate]; decide

theorem witness_DescriptorSelectsCommand :
    ({ Descriptor.zero with sel := 10, level := 1 } : Descriptor).instr? = some (.changeRdpLevel 1) ∧
    ({ Descriptor.zero with sel := 1, addrLen := 7 } : Descriptor).instr? = some .getVersion := ⟨rfl, rfl⟩

/-- One state for each sub-cause a command can meet, and the selectors 0, 11 and 15. -/
theorem witness_LocalValidation :
    ((offered (.bad .getVersion)).fsm = .idle ∧
      validate (Instr.getVersion.latch (offered (.bad .getVersion)).portDescriptor) = some .badParam) ∧
    ((offered (.memRead [] 4)).fsm = .idle ∧
      validate ((Instr.memRead 0 ⟨0, 0, 0, 0⟩ 4).latch (offered (.memRead [] 4)).portDescriptor) =
        some .badAddrLen) ∧
    (offered (.select 0)).portDescriptor.instr? = none ∧
    (offered (.select 11)).portDescriptor.instr? = none ∧
    (offered (.bad (.select 15))).portDescriptor.instr? = none := by decide

theorem witness_StepRunsTheCommand :
    (let s := offered (.eraseFlash 5 3)
     s.now.rst = false ∧ s.fsm = .idle ∧ s.cmdValid = true ∧
      s.portDescriptor.instr? = some (.eraseFlash 5 3)) ∧
    (let s := running .decode ((Instr.jumpToApp 5).latch Descriptor.zero)
     s.now.rst = false ∧ s.fsm ≠ .idle ∧ s.desc.instr? = some (.jumpToApp 5)) := by decide

/-- For the host's image: two bytes over an image that is there already, and a command without one. -/
theorem witness_StepRunsTheCommand_image :
    (let s : State := { offered (.memWrite 0 [0xAA, 0x00]) with img := [(1, 0x11), (2, 0x22)] }
     s.host = { desc := (offered (.memWrite 0 [0xAA, 0x00])).portDescriptor, image := some [0xAA, 0x00] } :: [] ∧
      Memory.wf s.img ∧ s.hostWritesImage.img = [(0, 0xAA), (2, 0x22)]) ∧
    (let s := offered .getVersion
     s.host = { desc := s.portDescriptor, image := none } :: []) ∧
    State.reset.host = [] := by decide

theorem witness_FetchWordRunsItsCommand : decodeTableWord 8 0x10 = some .getVersion ∧
    decodeTableWord 32 0x04000216 = some (.memWrite 2 1024) := by decide +kernel

theorem witness_AcceptInIdle :
    (let s := offered (.goToAddress [0x08, 0x00, 0x40, 0x00])
     s.fsm = .idle ∧ Instr.isTransfer (.goToAddress 4 addr1) = false ∧
      validate ((Instr.goToAddress 4 addr1).latch s.portDescriptor) = none) ∧
    (let s := offered (.memWrite 9 [])
     s.fsm = .idle ∧ (0 : BitVec 18).toNat ≤ Config.imageMax ∧ MemWriteAdmitted 9 0 ∧
      validate ((Instr.memWrite 9 0).latch s.portDescriptor) = none) ∧
    (let s := offered (.memWrite 0 [])
     s.fsm = .idle ∧ (131072 : BitVec 18).toNat ≤ Config.imageMax ∧ MemWriteAdmitted 0 131072 ∧
      validate ((Instr.memWrite 0 131072).latch s.portDescriptor) = none) ∧
    (let s := offered (.memWrite 1 [])
     s.fsm = .idle ∧ (131072 : BitVec 18).toNat ≤ 131072 ∧
      128 < (1 : Byte).toNat + ((131072 : BitVec 18).toNat + 1023) / 1024 ∧
      131072 < (131073 : BitVec 18).toNat ∧
      validate ((Instr.memWrite 1 131072).latch s.portDescriptor) = none ∧
      validate ((Instr.memWrite 1 131073).latch s.portDescriptor) = none) ∧
    (let s := offered (.bad (.jumpToApp 0))
     s.fsm = .idle ∧ validate ((Instr.jumpToApp 0).latch s.portDescriptor) = some .badParam) ∧
    (State.reset.fsm = .idle ∧ State.reset.cmdValid = false) := by decide

theorem witness_MarshalledPayloadIsInBuffer :
    (let s := running .marshal (Instr.getHelp.latch Descriptor.zero)
     Memory.wf s.pb ∧ s.fsm = .marshal ∧ Instr.isTransfer .getHelp = false) ∧
    (let s : State := { running .marshal ((Instr.memWrite 0 131072).latch Descriptor.zero) with
       k := 127, pb := [(1027, 0x5A)] }
     Memory.wf s.pb ∧ s.fsm = .marshal ∧ (131072 : BitVec 18).toNat ≤ Config.imageMax ∧
      1024 * s.k.toNat < (131072 : BitVec 18).toNat) ∧
    [(0x10 : Byte)].length ≤ Config.payloadMax ∧
    (List.replicate 1028 (0xFF : Byte)).length ≤ Config.payloadMax := by
  rw [List.length_replicate]; decide

/-- In `TX_LEN` at both indexes and in `TX_PAYLOAD` at the last byte of the longest payload: the byte to
inject, the 32nd and the last bit step, the byte taken, and the byte held. -/
theorem witness_CoveredByteSteps :
    (let s : State := { running .txLen Descriptor.zero with plen := 1, flen := 5 }
     s.now.linkErr = false ∧ s.fsm = .txLen ∧ s.idx.toNat < 1 ∧ s.bitcnt = 0 ∧ s.txOffer = none) ∧
    (let s : State := { running .txLen Descriptor.zero with plen := 1, flen := 5, idx := 1, bitcnt := 32 }
     s.now.linkErr = false ∧ s.fsm = .txLen ∧ ¬ s.idx.toNat < 1 ∧ 1 < s.bitcnt.toNat) ∧
    (let s : State :=
      { running .txPayload Descriptor.zero with plen := 1028, flen := 1032, idx := 1027, bitcnt := 1 }
     s.now.linkErr = false ∧ s.fsm = .txPayload ∧ s.idx < s.plen ∧
      s.idx.toNat < Config.payloadMax ∧ s.bitcnt = 1) ∧
    (let s : State :=
      { running .txPayload Descriptor.zero with plen := 1, flen := 5, txOffer := some 0x10 }
     s.now.linkErr = false ∧ s.fsm = .txPayload ∧ s.idx < s.plen ∧ s.idx.toNat < Config.payloadMax ∧
      s.bitcnt = 0 ∧ s.txOffer = some 0x10 ∧ s.now.txReady = true) ∧
    (let s : State :=
      { running .txLen Descriptor.zero with plen := 1, flen := 5, txOffer := some 5, script := [silent] }
     s.now.linkErr = false ∧ s.fsm = .txLen ∧ s.bitcnt = 0 ∧ s.txOffer = some 5 ∧
      s.now.txReady = false) := by decide

theorem witness_TrailerSteps :
    (let s : State := { running .txPayload Descriptor.zero with plen := 1, flen := 5, idx := 1 }
     s.now.linkErr = false ∧ s.fsm = .txPayload ∧ s.idx = s.plen ∧ s.bitcnt = 0) ∧
    (let s : State := { running .txCrc Descriptor.zero with plen := 1, flen := 5, idx := 3 }
     s.now.linkErr = false ∧ s.fsm = .txCrc ∧ s.txOffer = none) ∧
    (let s : State := { running .txCrc Descriptor.zero with idx := 2, txOffer := some 0xA5 }
     s.now.linkErr = false ∧ s.fsm = .txCrc ∧ s.txOffer = some 0xA5 ∧ s.now.txReady = true ∧
      s.idx.toNat < 3) ∧
    (let s : State := { running .txCrc Descriptor.zero with idx := 3, txOffer := some 0xE6 }
     s.now.linkErr = false ∧ s.fsm = .txCrc ∧ s.txOffer = some 0xE6 ∧ s.now.txReady = true ∧
      s.idx.toNat = 3) := by decide

theorem witness_StatusByteRead :
    (let s : State := { running .rxStatus Descriptor.zero with rx := [0x01, 0x00] }
     s.fsm = .rxStatus ∧ s.now.linkErr = false ∧ s.rxOffered = some 0x01) ∧
    (let s : State := { running .rxStatus Descriptor.zero with rx := [0x00] }
     s.fsm = .rxStatus ∧ s.now.linkErr = false ∧ s.rxOffered = some 0x00 ∧ (0x00 : Byte) ≠ 0x01) := by
  decide

theorem witness_LengthByteRead :
    (let s : State := { running .rxLen Descriptor.zero with rx := [0x00] }
     s.fsm = .rxLen ∧ s.now.linkErr = false ∧ s.rxOffered = some 0x00) ∧
    (let s : State := { running .rxLen Descriptor.zero with rx := [0xFF, 0x00] }
     s.fsm = .rxLen ∧ s.now.linkErr = false ∧ s.rxOffered = some 0xFF) := by decide

theorem witness_DataByteRead :
    (let s : State := { running .rxData Descriptor.zero with dataLen := 255, idx := 254, rx := [0x7F] }
     s.fsm = .rxData ∧ s.now.linkErr = false ∧ s.rxOffered = some 0x7F ∧
      s.idx.toNat < s.dataLen.toNat ∧ Memory.wf s.rxb) ∧
    (let s : State := { running .rxData Descriptor.zero with dataLen := 2, rx := [0x34, 0x12] }
     s.fsm = .rxData ∧ s.now.linkErr = false ∧ s.rxOffered = some 0x34 ∧
      s.idx.toNat < s.dataLen.toNat ∧ Memory.wf s.rxb) := by decide

/-- No timeout; a timeout of 3 with no unit passing, one unit to go, and reached; and a held byte in
each of the three sending states. -/
theorem witness_WaitingForTheLink :
    (let s := running .rxStatus Descriptor.zero
     s.now.linkErr = false ∧ s.fsm.receiving = true ∧ s.rxOffered = none ∧ s.params.rxTimeout = none) ∧
    (let s : State := { running .rxLen Descriptor.zero with script := [silent], params := timed }
     s.now.linkErr = false ∧ s.fsm.receiving = true ∧ s.rxOffered = none ∧ s.params.rxTimeout = some 3 ∧
      s.now.timeUnit = false) ∧
    (let s : State := { running .rxData Descriptor.zero with tmo := 1, params := timed }
     s.now.linkErr = false ∧ s.fsm.receiving = true ∧ s.rxOffered = none ∧ s.params.rxTimeout = some 3 ∧
      s.now.timeUnit = true ∧ s.tmo + 1 < 3) ∧
    (let s : State := { running .rxStatus Descriptor.zero with tmo := 2, params := timed }
     s.now.linkErr = false ∧ s.fsm.receiving = true ∧ s.rxOffered = none ∧ s.params.rxTimeout = some 3 ∧
      s.now.timeUnit = true ∧ 3 ≤ s.tmo + 1) ∧
    (let s : State := { running .txLen Descriptor.zero with txOffer := some 5, script := [silent] }
     s.now.linkErr = false ∧ s.fsm = .txLen ∧ s.bitcnt = 0 ∧ s.txOffer = some 5 ∧
      s.now.txReady = false) ∧
    (let s : State :=
      { running .txPayload Descriptor.zero with plen := 1, txOffer := some 0x10, script := [silent] }
     s.now.linkErr = false ∧ s.fsm = .txPayload ∧ s.idx < s.plen ∧ s.idx.toNat < Config.payloadMax ∧
      s.bitcnt = 0 ∧ s.txOffer = some 0x10 ∧ s.now.txReady = false) ∧
    (let s : State := { running .txCrc Descriptor.zero with txOffer := some 0x9C, script := [silent] }
     s.now.linkErr = false ∧ s.fsm = .txCrc ∧ s.txOffer = some 0x9C ∧ s.now.txReady = false) := by decide

theorem witness_LinkFailure :
    (let s : State := { running .txPayload Descriptor.zero with script := [failing] }
     s.now.linkErr = true ∧ s.fsm.sending = true) ∧
    (let s : State := { running .rxData Descriptor.zero with script := [failing], rx := [0x7F] }
     s.now.linkErr = true ∧ s.fsm.receiving = true) := by decide

/-- `link_err` differs, and is not looked at in `MARSHAL` and `IDLE`; `rx_valid` differs in `TX_CRC`. -/
theorem witness_InputsLookedAtOnlyWhereNamed :
    (samePins (running .marshal (Instr.getVersion.latch Descriptor.zero)).fsm Stim.quiet failing ∧
      ∃ t, exec .getVersion
        ((running .marshal (Instr.getVersion.latch Descriptor.zero)).withPins Stim.quiet) = .next t) ∧
    (samePins (offered .getVersion).fsm Stim.quiet failing ∧
      ∃ t, exec .getVersion ((offered .getVersion).withPins Stim.quiet) = .next t) ∧
    (samePins .txCrc Stim.quiet { Stim.quiet with rxOffer := false } ∧
      ∃ t, exec .getVersion ((running .txCrc Descriptor.zero).withPins Stim.quiet) = .next t) :=
  ⟨⟨by unfold samePins; decide, _, rfl⟩, ⟨by unfold samePins; decide, _, rfl⟩,
    ⟨by unfold samePins; decide, _, rfl⟩⟩

/-- The premises of the commands' rules: `MARSHAL`, and the kinds of response in `DECODE`. -/
def marshalling (i : Instr) : State := running .marshal (i.latch Descriptor.zero)

def refused (i : Instr) : State :=
  { running .decode (i.latch Descriptor.zero) with ack := false, stByte := 0x55 }

theorem witness_GetVersionRule :
    (marshalling .getVersion).fsm = .marshal ∧
    ((refused .getVersion).fsm = .decode ∧ (refused .getVersion).ack = false) ∧
    (let s := answered .getVersion [1, 2, 3]
     s.fsm = .decode ∧ s.ack = true ∧ s.dataLen.toNat < 4) ∧
    (let s := answered .getVersion [1, 2, 3, 4]
     s.fsm = .decode ∧ s.ack = true ∧ 4 ≤ s.dataLen.toNat) := by decide

theorem witness_GetHelpRule :
    (marshalling .getHelp).fsm = .marshal ∧
    ((refused .getHelp).fsm = .decode ∧ (refused .getHelp).ack = false) ∧
    (let s := answered .getHelp [0, 1, 2, 3, 4, 5, 6, 7, 8, 9, 10]
     s.fsm = .decode ∧ s.ack = true ∧ 10 < s.dataLen.toNat) ∧
    (let s := answered .getHelp [0, 1, 2, 3, 4, 5, 6, 7, 8, 9]
     s.fsm = .decode ∧ s.ack = true ∧ s.dataLen.toNat ≤ 10) ∧
    (let s : State := { answered .getHelp [0x10] with fsm := .idle, resValid := true, helpCount := 1 }
     s.resValid = true ∧ s.status = .ok ∧ s.desc.sel = 2) ∧
    ({ State.reset with status := .helpOverflow, resValid := true, helpCount := 3 } : State).status =
      .helpOverflow := by decide

theorem witness_GetChipIdRule :
    (marshalling .getChipId).fsm = .marshal ∧
    ((refused .getChipId).fsm = .decode ∧ (refused .getChipId).ack = false) ∧
    (let s := answered .getChipId [1]
     s.fsm = .decode ∧ s.ack = true ∧ s.dataLen.toNat < 2) ∧
    (let s := answered .getChipId [1, 2]
     s.fsm = .decode ∧ s.ack = true ∧ 2 ≤ s.dataLen.toNat) := by decide

theorem witness_GetRdpStatusRule :
    (marshalling .getRdpStatus).fsm = .marshal ∧
    ((refused .getRdpStatus).fsm = .decode ∧ (refused .getRdpStatus).ack = false) ∧
    (let s := answered .getRdpStatus []
     s.fsm = .decode ∧ s.ack = true ∧ s.dataLen.toNat < 1) ∧
    (let s := answered .getRdpStatus [0]
     s.fsm = .decode ∧ s.ack = true ∧ 1 ≤ s.dataLen.toNat) := by decide

/-- An address of 3 bytes is rejected, whether or not it stands on the port. -/
theorem witness_GoToAddressRule :
    (marshalling (.goToAddress 4 addr1)).fsm = .marshal ∧
    (let s := refused (.goToAddress 4 addr1)
     s.fsm = .decode ∧ s.ack = false) ∧
    (let s := answered (.goToAddress 4 addr1) []
     s.fsm = .decode ∧ s.ack = true) ∧
    (let s := offered (.goToAddress [0x08, 0x00, 0x40])
     (3 : BitVec 4) ≠ 4 ∧ s.fsm = .idle ∧ s.portDescriptor.paramBad = false) := by decide

theorem witness_EraseFlashRule :
    (marshalling (.eraseFlash 255 0)).fsm = .marshal ∧
    (let s := refused (.eraseFlash 255 0)
     s.fsm = .decode ∧ s.ack = false) ∧
    (let s := answered (.eraseFlash 255 0) [0xDE, 0xAD]
     s.fsm = .decode ∧ s.ack = true) := by decide

theorem witness_MemReadRule :
    (marshalling (.memRead 4 addr1 4)).fsm = .marshal ∧
    (let s := refused (.memRead 4 addr1 4)
     s.fsm = .decode ∧ s.ack = false) ∧
    (let s := answered (.memRead 4 addr1 4) [0x78, 0x56, 0x34, 0x12]
     s.fsm = .decode ∧ s.ack = true ∧ 0 < s.dataLen.toNat ∧ 3 < s.dataLen.toNat) ∧
    (let s := offered (.memRead [0, 8, 0, 0, 0, 0, 0, 0] 4)
     (8 : BitVec 4) ≠ 4 ∧ s.fsm = .idle ∧ s.portDescriptor.paramBad = false) := by decide

theorem witness_JumpToAppRule :
    (marshalling (.jumpToApp 255)).fsm = .marshal ∧
    (let s := refused (.jumpToApp 255)
     s.fsm = .decode ∧ s.ack = false) ∧
    (let s := answered (.jumpToApp 255) []
     s.fsm = .decode ∧ s.ack = true) := by decide

theorem witness_ChangeRdpLevelRule :
    (marshalling (.changeRdpLevel 0)).fsm = .marshal ∧ (marshalling (.changeRdpLevel 1)).fsm = .marshal ∧
    (let s := refused (.changeRdpLevel 1)
     s.fsm = .decode ∧ s.ack = false) ∧
    (let s := answered (.changeRdpLevel 1) []
     s.fsm = .decode ∧ s.ack = true) := by decide

/-- The last, full chunk of the longest image; a one-byte chunk; an answered chunk. -/
theorem witness_MemWriteChunkRule :
    (let s : State := { marshalling (.memWrite 0 131072) with k := 127, nchunks := 128, curPage := 127 }
     s.fsm = .marshal ∧ (131072 : BitVec 18).toNat ≤ Config.imageMax ∧
      1024 * s.k.toNat < (131072 : BitVec 18).toNat) ∧
    (let s := marshalling (.memWrite 0 1)
     s.fsm = .marshal ∧ (1 : BitVec 18).toNat ≤ Config.imageMax ∧
      1024 * s.k.toNat < (1 : BitVec 18).toNat) ∧
    (refused (.memWrite 0 1)).fsm = .decode := by decide

theorem witness_NextChunkRule :
    (let s : State := { running .nextChunk ((Instr.memWrite 0 1).latch Descriptor.zero) with nchunks := 1 }
     s.fsm = .nextChunk ∧ s.k.toNat < 128) ∧
    (let s : State :=
      { running .nextChunk ((Instr.memWrite 0 131072).latch Descriptor.zero) with nchunks := 128, k := 127 }
     s.fsm = .nextChunk ∧ s.k.toNat < 128) := by decide

theorem witness_ResultPresented :
    (running .done Descriptor.zero).fsm = .done ∧ (running .done Descriptor.zero).now.rst = false ∧
    State.reset.fsm = .idle ∧ State.reset.cmdValid = false ∧ State.reset.resValid = false := by decide

theorem witness_ChunksAreTheImage : 0 + 1 < chunkCount 1025 ∧ 0 < 1 ∧ 0 < 131072 ∧
    131072 ≤ Config.imageMax := by decide

theorem witness_ResetFromAnyState :
    ({ running .rxData Descriptor.zero with
        script := [{ Stim.quiet with rst := true, arrive := [0x0D], rxHolds := some [] }] } : State).now.rst =
      true := by decide

theorem witness_IdleDoesNothing :
    (let s := State.reset
     s.fsm = .idle ∧ s.now.rst = false ∧ s.cmdValid = false) ∧
    (let s : State :=
      { offered .getVersion with script := [{ silent with cmdOffer := false, arrive := [0x0D, 0x0A] }] }
     s.fsm = .idle ∧ s.now.rst = false ∧ s.cmdValid = false) := by decide

/-! Three states that meet the invariant: a command on the port in `IDLE`, a byte being sent, and a
transfer between its first and its second chunk, the first refused. -/

def sendingVersion : State :=
  { running .txPayload (Instr.getVersion.latch Descriptor.zero) with
    plen := 1, flen := 5, pb := [(0, 0x10)], bitcnt := 7, acc := 0x12345678 }

def betweenChunks : State :=
  { running .nextChunk ((Instr.memWrite 5 1025).latch Descriptor.zero) with
    nchunks := 2, curPage := 5, plen := 1028, flen := 1032, clen := 1024, stByte := 0x00 }

/-- The invariant does not look at what waits on the port and on the link. -/
theorem inv_with {s : State} (h : Inv s) (host : List HostCommand) (rx : List Byte) :
    Inv { s with host := host, rx := rx } := by
  obtain ⟨b, q, t⟩ := h
  exact ⟨⟨b.1, b.2, b.3, b.4, b.5, b.6⟩, ⟨q.1, q.2, q.3, q.4, q.5, q.6, q.7, q.8, q.9, q.10, q.11, q.12,
    q.13, q.14, q.15, q.16, q.17, q.18, q.19, q.20⟩, ⟨t.1, t.2, t.3, t.4, t.5⟩⟩

theorem offeredVersion_inv : Inv (offered .getVersion) where
  buffers := by constructor <;> decide
  sequencer := by constructor <;> decide
  transfer := by constructor <;> exact fun h => nomatch h

theorem offered_inv (c : CommandLine) (rx : List Byte) : Inv { offered c with rx := rx } :=
  inv_with offeredVersion_inv [c.command] rx

theorem sendingVersion_inv : Inv sendingVersion where
  buffers := by constructor <;> decide
  sequencer := by constructor <;> decide
  transfer := by constructor <;> exact fun _ h => absurd h (by decide)

theorem betweenChunks_inv : Inv betweenChunks where
  buffers := by constructor <;> first | exact Memory.wf_nil | exact fun _ h => nomatch h
  sequencer := by constructor <;> decide
  transfer := by
    constructor
    · decide
    · decide
    · decide
    · decide
    · intro _ _ j h
      exact absurd h (by simp [betweenChunks, running, State.reset])

/-- For the result port: a running command, an accept, and results presented, one after a link failure in
the second chunk of a transfer, one of a transfer with its chunks refused. -/
theorem witness_ResultPresented_port :
    (SequencerOk sendingVersion ∧ sendingVersion.fsm ≠ .idle) ∧
    (∃ t, (offered .getVersion).fsm = .idle ∧ exec .getVersion (offered .getVersion) = .next t) ∧
    (let s : State := { State.reset with
       resValid := true, status := .transport, xferAttempts := 1, ack := true,
       desc := (Instr.memWrite 0 1025).latch Descriptor.zero }
     s.resValid = true ∧ s.status = .transport ∧ s.ackOut = none ∧ s.reportOut.isSome) ∧
    (let s : State := { State.reset with
       resValid := true, status := .nack, xferAttempts := 2,
       desc := (Instr.memWrite 0 1025).latch Descriptor.zero }
     s.resValid = true ∧ s.status ≠ .localValidation ∧ s.status ≠ .transport ∧ s.status ≠ .noResponse ∧
      s.xferAttempts ≠ 0 ∧ s.ackOut = some false) :=
  ⟨⟨sendingVersion_inv.sequencer, by decide⟩, ⟨_, rfl, rfl⟩, by decide, by decide⟩

theorem witness_OnlyListedTransitions :
    (Inv (offered .getHelp) ∧ CommandsAdmitted (offered .getHelp) ∧ (offered .getHelp).now.rst = false) ∧
    (Inv sendingVersion ∧ CommandsAdmitted sendingVersion ∧ sendingVersion.now.rst = false) ∧
    (Inv betweenChunks ∧ CommandsAdmitted betweenChunks ∧ betweenChunks.now.rst = false) :=
  ⟨⟨offered_inv _ [], by unfold CommandsAdmitted; decide, rfl⟩, ⟨sendingVersion_inv, fun _ h => (nomatch h), rfl⟩,
    ⟨betweenChunks_inv, fun _ h => (nomatch h), rfl⟩⟩

/-- A byte on offer is sent; a byte waiting is taken; neither happens in `DECODE`. -/
theorem witness_HalfDuplex :
    (∃ t, exec .getVersion { running .txCrc Descriptor.zero with txOffer := some 0xE6 } = .next t) ∧
    (∃ t, exec .getVersion { running .rxData Descriptor.zero with dataLen := 255, rx := [0x7F] } = .next t) ∧
    (∃ t, exec .getVersion (answered .getVersion [1, 2, 3, 4]) = .next t) :=
  ⟨⟨_, rfl⟩, ⟨_, rfl⟩, ⟨_, rfl⟩⟩

/-- A next state in the states that write the registers the frame names, and in one that writes none. -/
theorem witness_CommandFrame :
    (∃ t, exec .getHelp (offered .getHelp) = .next t) ∧
    (∃ t, exec .getChipId (answered .getChipId [0x34, 0x12]) = .next t) ∧
    (∃ t, exec (.memWrite 5 1025) betweenChunks = .next t) ∧
    (∃ t, exec (.jumpToApp 5) (marshalling (.jumpToApp 5)) = .next t) ∧
    (∃ t, exec .getVersion { running .rxData Descriptor.zero with dataLen := 2, rx := [0x7F] } = .next t) ∧
    (0 : Nat) ≠ 254 :=
  ⟨⟨_, rfl⟩, ⟨_, rfl⟩, ⟨_, rfl⟩, ⟨_, rfl⟩, ⟨_, rfl⟩, by decide⟩

theorem witness_BuffersStayCanonical : BuffersOk sendingVersion ∧ ∃ t, step sendingVersion = .next t :=
  ⟨sendingVersion_inv.buffers, _, rfl⟩

theorem witness_CanonicalBuffersAreEqual :
    let m : Memory := [(0, 0x78), (3, 0x12)]
    Memory.wf m ∧ ∀ a, m.read a = m.read a := ⟨by decide, fun _ => rfl⟩

theorem witness_SequencerInvariant : (SequencerOk sendingVersion ∧ ∃ t, step sendingVersion = .next t) ∧
    (SequencerOk betweenChunks ∧ ∃ t, step betweenChunks = .next t) :=
  ⟨⟨sendingVersion_inv.sequencer, _, rfl⟩, ⟨betweenChunks_inv.sequencer, _, rfl⟩⟩

theorem witness_TransferInvariant :
    SequencerOk betweenChunks ∧ TransferOk betweenChunks ∧ ∃ t, step betweenChunks = .next t :=
  ⟨betweenChunks_inv.sequencer, betweenChunks_inv.transfer, _, rfl⟩

theorem witness_SafeRunNeverStops : Inv betweenChunks ∧ CommandsAdmitted betweenChunks :=
  ⟨betweenChunks_inv, fun _ h => (nomatch h)⟩

/-- A GetChipId frame about to be sent (V70), its response waiting; and a refused one (V71). -/
def sendingChipId (rx : List Byte) : State :=
  { running .txLen (Instr.getChipId.latch Descriptor.zero) with
    plen := 1, flen := 5, pb := [(0, 0x12)], rx := rx }

theorem sendingChipId_inv (rx : List Byte) : Inv (sendingChipId rx) := by
  have h : Inv (sendingChipId []) :=
    ⟨by constructor <;> decide, by constructor <;> decide,
      by constructor <;> exact fun _ h => absurd h (by decide)⟩
  exact inv_with h [] rx

theorem witness_StatesComputeExchange : ∀ rx ∈ [[0x01, 0x02, 0x34, 0x12], [(0x00 : Byte)]],
    SequencerOk (sendingChipId rx) ∧ Memory.wf (sendingChipId rx).rxb ∧ Quiet (sendingChipId rx) ∧
    (sendingChipId rx).desc.instr? = some .getChipId ∧ (sendingChipId rx).fsm = .txLen ∧
    (sendingChipId rx).idx = 0 ∧ (sendingChipId rx).bitcnt = 0 ∧ (sendingChipId rx).txOffer = none ∧
    (sendingChipId rx).acc = 0xFFFFFFFF ∧ (sendingChipId rx).plen.toNat = [(0x12 : Byte)].length ∧
    (sendingChipId rx).pb.readList 0 1 = [0x12] ∧
    ∃ x, exchange [0x12] (sendingChipId rx).rx = some x := by
  intro rx h
  simp only [List.mem_cons, List.not_mem_nil, or_false] at h
  rcases h with rfl | rfl <;>
    exact ⟨(sendingChipId_inv _).sequencer, Memory.wf_nil, ⟨rfl, rfl⟩, rfl, rfl, rfl, rfl, rfl, rfl, rfl, rfl, _, rfl⟩

/-- The target's answer, arriving in the steps after the accept. -/
def answering (bss : List (List Byte)) (s : State) : State :=
  { s with script := Stim.quiet :: bss.map (fun bs => { Stim.quiet with arrive := bs }) }

theorem answering_inv {s : State} (h : Inv s) (bss : List (List Byte)) : Inv (answering bss s) := by
  obtain ⟨b, q, t⟩ := h
  exact ⟨⟨b.1, b.2, b.3, b.4, b.5, b.6⟩, ⟨q.1, q.2, q.3, q.4, q.5, q.6, q.7, q.8, q.9, q.10, q.11, q.12,
    q.13, q.14, q.15, q.16, q.17, q.18, q.19, q.20⟩, ⟨t.1, t.2, t.3, t.4, t.5⟩⟩

theorem answering_calm {s : State} (h : s.restPins = Stim.quiet) (ht : s.params.rxTimeout = none)
    (bss : List (List Byte)) : Calm (answering bss s) where
  atRest := h
  scripted := by
    intro p hp
    rcases List.mem_cons.1 hp with rfl | hp
    · exact ⟨rfl, fun _ => ht⟩
    · obtain ⟨bs, -, rfl⟩ := List.mem_map.1 hp
      exact ⟨rfl, fun _ => ht⟩

/-- The host's duties with one command on the port of the engine as reset leaves it, its answer to come. -/
theorem answering_duties (c : CommandLine) (bss : List (List Byte)) (ha : CommandsAdmitted (offered c))
    (hi : c.command.desc.sel = 7 → c.command.imageWritten) : HostDuties (answering bss (offered c)) where
  commands := ha
  images := by
    intro d h h7
    cases List.mem_singleton.1 h
    exact hi h7
  descriptorKept _ h := absurd h (by simp [answering, offered, State.reset, State.now, Stim.quiet])
  rxEmpty _ _ := rfl
  targetReady _ _ := ⟨0, rfl, Nat.le_refl 0, [], fun _ h => (nomatch h), rfl⟩

/-- With the host's duties met: an acknowledgement that arrives by two steps' pins, one of them with no
byte in between, and nothing after it. -/
theorem witness_OneExchangeCommandRuns :
    let s : State := answering [[0x01], [], [0x00]] (offered (.eraseFlash 5 3))
    Inv s ∧ Calm s ∧ s.fsm = .idle ∧ s.host = (CommandLine.eraseFlash 5 3).command :: [] ∧
    (CommandLine.eraseFlash 5 3).command.desc.instr? = some (.eraseFlash 5 3) ∧
    Instr.isTransfer (.eraseFlash 5 3) = false ∧
    validate (CommandLine.eraseFlash 5 3).command.desc = none ∧
    (∃ x, exchange (encode (.eraseFlash 5 3) []) s.incoming = some x ∧ x.rest = []) ∧
    TargetAtBoundary s ∧ HostDuties s := by
  refine ⟨answering_inv (offered_inv _ []) _, answering_calm rfl rfl _, rfl, rfl, rfl, rfl, by decide, ⟨_, rfl, rfl⟩,
    ⟨0, rfl, Nat.le_refl 0, [], fun _ h => (nomatch h), rfl⟩,
    answering_duties _ _ (by unfold CommandsAdmitted; decide) (fun h => absurd h (by decide))⟩

/-- The host's duties, met with a MemWrite on the port; while a command runs a second one may be presented,
if it is kept. -/
theorem witness_HostDuties : HostDuties (answering [] (offered (.memWrite 0 [0x5A]))) ∧
    HostDuties { sendingVersion with host := [(CommandLine.eraseFlash 5 3).command] } := by
  refine ⟨answering_duties _ _ (by unfold CommandsAdmitted; decide) (fun _ => ⟨[0x5A], rfl, by decide⟩), ?_, ?_,
    fun _ _ => rfl, fun h => (nomatch h), fun h => (nomatch h)⟩
  · unfold CommandsAdmitted; decide
  · intro c h h7
    cases List.mem_singleton.1 h
    exact absurd h7 (by decide)

/-- After a reset in `RX_DATA` the target's place is unknown until it is restored. -/
theorem test_reset_breaks_off :
    (let s : State := { running .rxData Descriptor.zero with script := [{ Stim.quiet with rst := true }] }
     (nextOf (step s)).map State.boundary = some none) ∧
    (let s : State := { running .rxData Descriptor.zero with
       script := [{ Stim.quiet with rst := true, restored := true }] }
     (nextOf (step s)).map State.boundary = some (some 0)) := by decide

/-- 10_state.md R21: the report is cleared at accept, also of a MemWrite that is then rejected. -/
theorem test_memWrite_bad : (nextOf (step
      { offered (.bad (.memWrite 0 [0x5A])) with xferAttempts := 3, xferFailures := 1, xferFailMap := 2 })).map
      (fun t => (t.subcause, t.xferAttempts, t.xferFailures, t.xferFailMap)) =
    some (.badParam, 0, 0, 0) := by decide

/-- An image of two chunks at the last two pages, the first refused and the second acknowledged with one
data byte, the answers arriving by the pins; and an empty image. The host's duties are met. -/
theorem witness_TransferRuns : ∀ a ∈ [(List.replicate 1025 0x5A, [[0x00], [], [0x01, 0x01], [0x7F]]),
      (([] : List Byte), ([] : List (List Byte)))],
    let c := CommandLine.memWrite 126 a.1
    let n := imageLength a.1.length
    let s : State := answering a.2 (offered c)
    Inv s ∧ Calm s ∧ s.fsm = .idle ∧ s.host = c.command :: [] ∧
    c.command.desc.instr? = some (.memWrite 126 n) ∧
    validate c.command.desc = none ∧ n.toNat ≤ Config.imageMax ∧ MemWriteAdmitted 126 n.toNat ∧
    ((transfer s.hostWritesImage.img 126 n.toNat s.params.xferFailStop s.incoming).map
      TransferResult.rest = some []) ∧
    TargetAtBoundary s ∧ HostDuties s := by
  intro a h
  simp only [List.mem_cons, List.not_mem_nil, or_false] at h
  refine ⟨answering_inv (offered_inv _ []) _, answering_calm rfl rfl _, rfl, rfl, ?_⟩
  have e : (List.replicate 1025 (0x5A : Byte)).length = 1025 := List.length_replicate
  rcases h with rfl | rfl
  · refine ⟨?_, ?_, ?_, ?_, ?_, ⟨0, rfl, Nat.le_refl 0, [], fun _ h => (nomatch h), rfl⟩,
      answering_duties _ _ ?_ (fun _ => ⟨_, rfl, ?_⟩)⟩
    · simp only [CommandLine.command, e]; decide
    · simp only [CommandLine.command, e]; decide
    · simp only [e]; decide
    · simp only [e]; decide
    · simp only [e]
      decide +kernel
    · intro d h
      cases List.mem_singleton.1 h
      simp only [CommandLine.command, e]; decide
    · simp only [CommandLine.command, e]; decide
  · refine ⟨by decide, by decide, by decide, by decide, by decide,
      ⟨0, rfl, Nat.le_refl 0, [], fun _ h => (nomatch h), rfl⟩,
      answering_duties _ _ (by unfold CommandsAdmitted; decide) (fun _ => ⟨_, rfl, by decide⟩)⟩

/-- A link that delivers nothing, and a link that never takes the byte on offer. -/
theorem witness_WaitsForEver :
    (let s : State := { sendingVersion with fsm := .rxStatus, bitcnt := 0 }
     SequencerOk s ∧ s.script = [] ∧ s.restPins.rst = false ∧ s.restPins.linkErr = false ∧
      s.desc.instr? = some .getVersion ∧ s.fsm.receiving = true ∧ s.rx = [] ∧ s.restPins.arrive = [] ∧
      s.params.rxTimeout = none) ∧
    (let s : State := { sendingVersion with
       bitcnt := 0, txOffer := some 0x10, restPins := { silent with arrive := [0x0D] } }
     SequencerOk s ∧ s.script = [] ∧ s.restPins.rst = false ∧ s.restPins.linkErr = false ∧
      s.desc.instr? = some .getVersion ∧ s.txOffer = some 0x10 ∧ s.restPins.txReady = false) :=
  ⟨⟨by constructor <;> decide, rfl, rfl, rfl, rfl, rfl, rfl, rfl, rfl⟩,
    ⟨by constructor <;> decide, rfl, rfl, rfl, rfl, rfl, rfl⟩⟩

/-- The engine right after reset, and one that has other commands' bytes and values in it. -/
theorem witness_NothingPersists :
    let s := offered .getVersion
    let s' : State := { s with rxb := [(0, 0x7F)], acc := 0x01020304, chipId := 0x1234, resValid := true,
                               status := .nack, stByte := 0x55, desc := (Instr.jumpToApp 5).latch s.desc }
    Inv s ∧ Inv s' ∧ s.fsm = .idle ∧ s'.fsm = .idle ∧ SameSurroundings s s' ∧ ∃ t, Run 1 s t := by
  refine ⟨offeredVersion_inv, ?_, rfl, rfl, ⟨rfl, rfl, rfl, rfl, rfl, rfl, rfl, rfl⟩, _, _, rfl, rfl⟩
  exact ⟨by constructor <;> decide, by constructor <;> decide, by constructor <;> exact fun h => nomatch h⟩

end Sys2Proof.Tests
end

section
/-! Facts about the port and the command on it. -/
namespace Sys2Proof.Machine

theorem sel_latch (i : Instr) (d : Descriptor) : (i.latch d).sel = i.selector := by cases i <;> rfl

/-- A descriptor that latches a command selects it (30_encoding.md R87). -/
theorem instr?_latch (i : Instr) (d : Descriptor) : (i.latch d).instr? = some i := by cases i <;> rfl

end Sys2Proof.Machine
end

section
/-! What the decode of an acknowledged response leaves as it was. -/
namespace Sys2Proof.Machine

/-- `t` is `s` at the end of its command: in `DONE`, with the status and at most the typed results written. -/
structure DecodeEnds (s t : State) : Prop where
  fsm : t.fsm = .done
  busy : t.busy = s.busy
  resValid : t.resValid = s.resValid
  acc : t.acc = s.acc
  bitcnt : t.bitcnt = s.bitcnt
  plen : t.plen = s.plen
  pb : t.pb = s.pb
  rxb : t.rxb = s.rxb
  img : t.img = s.img
  noOffer : s.txOffer = none → t.txOffer = none
  noCause : s.subcause = .none → t.subcause = .none

variable {i : Instr} {s : State}

theorem raise_ends (st : Status) : DecodeEnds s (State.raise st .none s) :=
  ⟨rfl, rfl, rfl, rfl, rfl, rfl, rfl, rfl, rfl, fun _ => rfl, fun _ => by simp [State.raise]⟩

theorem needsData_ends {n : Nat} {use : State → State} (h : DecodeEnds s (use s).finish) :
    DecodeEnds s (needsData n use s) := by
  obtain ⟨-, e⟩ | ⟨-, e⟩ := needsData_cases n use s <;> rw [e]
  · exact raise_ends .shortResponse
  · exact h

theorem noDecode_ends : DecodeEnds s (noDecode s) :=
  ⟨rfl, rfl, rfl, rfl, rfl, rfl, rfl, rfl, rfl, id, id⟩

/-- Every decode but MemWrite's ends the command (R189). -/
theorem onAckOf_ends (ht : i.isTransfer = false) : DecodeEnds s (onAckOf i s) := by
  cases i with
  | getVersion => exact needsData_ends ⟨rfl, rfl, rfl, rfl, rfl, rfl, rfl, rfl, rfl, id, id⟩
  | getHelp =>
    simp only [onAckOf, decodeHelp]
    split
    · exact raise_ends .helpOverflow
    · exact ⟨rfl, rfl, rfl, rfl, rfl, rfl, rfl, rfl, rfl, id, id⟩
  | getChipId => exact needsData_ends ⟨rfl, rfl, rfl, rfl, rfl, rfl, rfl, rfl, rfl, id, id⟩
  | getRdpStatus => exact needsData_ends ⟨rfl, rfl, rfl, rfl, rfl, rfl, rfl, rfl, rfl, id, id⟩
  | memWrite => cases ht
  | _ => exact noDecode_ends

end Sys2Proof.Machine
end

section
/-! The sequencer's invariant: one lemma per kind of state says which clauses are left to show there. -/
namespace Sys2Proof.Machine

/-- What holds of a command from its validation to its end: the engine is busy with no result presented and
no failure, and the descriptor is one that was validated and not refused (R181, R209). It is said of the
registers and not of a state, so that it passes unchanged through every update of other registers. -/
structure CommandUnderway (busy resValid : Bool) (status : Status) (subcause : Subcause)
    (desc : Descriptor) : Prop where
  busy : busy = true
  noResult : resValid = false
  noFailure : status = .ok ∧ subcause = .none
  validated : validate desc = none
  imageFits : desc.sel = 7 → desc.imgLen.toNat ≤ Config.imageMax
  pagesFit : desc.sel = 7 → MemWriteAdmitted desc.page desc.imgLen.toNat

/-- `CommandUnderway` of a state's registers. -/
abbrev State.Underway (s : State) : Prop :=
  CommandUnderway s.busy s.resValid s.status s.subcause s.desc

variable {i : Instr} {s t : State}

theorem Fsm.running_of_sending {f : Fsm} (h : f.sending = true) : f.running = true := by
  revert h; cases f <;> decide

theorem Fsm.running_of_receiving {f : Fsm} (h : f.receiving = true) : f.running = true := by
  revert h; cases f <;> decide

theorem Fsm.not_sending_of_receiving {f : Fsm} (h : f.receiving = true) : f.sending = false := by
  revert h; cases f <;> decide

theorem Fsm.ne_idle_of_running {f : Fsm} (h : f.running = true) : f ≠ .idle := by
  rintro rfl; cases h

theorem SequencerOk.busy_of_ne_idle (h : SequencerOk s) (hf : s.fsm ≠ .idle) : s.busy = true :=
  h.busyIff.2 hf

theorem SequencerOk.noResult_of_ne_idle (h : SequencerOk s) (hf : s.fsm ≠ .idle) :
    s.resValid = false :=
  Bool.eq_false_iff.2 fun hr => hf (h.resultThenIdle hr)

theorem SequencerOk.underway (h : SequencerOk s) (hr : s.fsm.running = true) : s.Underway :=
  have hf := Fsm.ne_idle_of_running hr
  ⟨h.busy_of_ne_idle hf, h.noResult_of_ne_idle hf, h.cleanWhileRunning hr, h.validated hr,
    h.imageFits hr, h.pagesFit hr⟩

/-- No byte is on offer outside the `TX_*` states. -/
theorem SequencerOk.noOffer (h : SequencerOk s) (hs : s.fsm.sending = false) : s.txOffer = none := by
  rw [← Option.not_isSome_iff_eq_none]
  intro ho
  rw [h.offerWhileSending ho] at hs
  cases hs

/-- In `IDLE` every clause about a running command is vacuous. -/
theorem sequencerOk_of_idle (hf : t.fsm = .idle) (hb : t.busy = false)
    (hn : t.bitcnt.toNat ≤ crcParams.stepsPerByte) (hp : t.plen.toNat ≤ Config.payloadMax)
    (ho : t.txOffer = none) (he : t.chunkEvt = none)
    (hc : t.subcause ≠ .none → t.status = .localValidation) : SequencerOk t := by
  constructor <;> simp [hf, hb, hn, hp, ho, he, Fsm.sending, Fsm.running]
  exact hc

/-- In `DONE` the command has ended, and what is left of it is that the engine is busy. -/
theorem sequencerOk_of_done (hf : t.fsm = .done) (hb : t.busy = true) (hr : t.resValid = false)
    (hn : t.bitcnt.toNat ≤ crcParams.stepsPerByte) (hp : t.plen.toNat ≤ Config.payloadMax)
    (ho : t.txOffer = none) (hc : t.subcause ≠ .none → t.status = .localValidation) :
    SequencerOk t := by
  constructor <;> simp [hf, hb, hr, hn, hp, ho, Fsm.sending, Fsm.running]
  exact hc

/-- The states of a running command in which nothing is sent. -/
theorem sequencerOk_of_notSending (hr : t.fsm.running = true) (hs : t.fsm.sending = false)
    (hu : t.Underway)
    (hn : t.bitcnt.toNat ≤ crcParams.stepsPerByte) (hp : t.plen.toNat ≤ Config.payloadMax)
    (ho : t.txOffer = none) (hd : t.fsm = .rxData → t.idx.toNat < t.dataLen.toNat)
    (hk : t.fsm = .nextChunk → t.desc.sel = 7)
    (he : t.chunkEvt = none ∨ t.fsm = .marshal) : SequencerOk t := by
  have notSending : ∀ {f : Fsm} {P : Prop}, f.sending = true → t.fsm = f → P := by
    intro f P hf h; rw [h, hf] at hs; cases hs
  have noOffer : ∀ {P : Prop}, t.txOffer.isSome = true → P := by
    intro P h; rw [ho] at h; cases h
  exact {
    busyIff := ⟨fun _ => Fsm.ne_idle_of_running hr, fun _ => hu.busy⟩
    resultThenIdle := fun h => absurd h (by simp [hu.noResult])
    bitcntBound := hn
    plenBound := hp
    payloadThere := fun h => notSending h rfl
    lenIdx := notSending rfl
    payloadIdx := notSending rfl
    absorbedFirst := notSending rfl
    crcIdx := notSending rfl
    dataIdx := hd
    offerWhileSending := noOffer
    offerAfterAbsorb := noOffer
    offerInPayload := notSending rfl
    validated := fun _ => hu.validated
    imageFits := fun _ => hu.imageFits
    pagesFit := fun _ => hu.pagesFit
    chunkOfTransfer := hk
    pulseWhen := fun h => .inl (he.resolve_left (Option.isSome_iff_ne_none.1 h))
    cleanWhileRunning := fun _ => hu.noFailure
    causeOnlyLocal := fun h => absurd hu.noFailure.2 h }

/-- The frame being sent: its length, what is absorbed of it, and where its sending stands (R183 to R185). -/
structure FrameUnderway (s : State) : Prop where
  bitcntBound : s.bitcnt.toNat ≤ crcParams.stepsPerByte
  plenBound : s.plen.toNat ≤ Config.payloadMax
  payloadThere : 1 ≤ s.plen.toNat ∧ s.flen.toNat = s.plen.toNat + 4
  offered : s.txOffer.isSome = true → s.bitcnt = 0
  lenIdx : s.fsm = .txLen → s.idx.toNat < 2
  payloadIdx : s.fsm = .txPayload → s.idx.toNat < s.plen.toNat ∨
    s.idx.toNat = s.plen.toNat ∧ s.bitcnt = 0 ∧ s.txOffer = none
  crcIdx : s.fsm = .txCrc → s.idx.toNat < 4 ∧ s.bitcnt = 0

theorem SequencerOk.frameUnderway (h : SequencerOk s) (hs : s.fsm.sending = true) :
    FrameUnderway s where
  bitcntBound := h.bitcntBound
  plenBound := h.plenBound
  payloadThere := h.payloadThere hs
  offered := h.offerAfterAbsorb
  lenIdx := h.lenIdx
  payloadIdx hf := by
    rcases Nat.lt_or_eq_of_le (h.payloadIdx hf) with hlt | heq
    · exact .inl hlt
    · refine .inr ⟨heq, h.absorbedFirst hf heq, Option.not_isSome_iff_eq_none.1 fun ho => ?_⟩
      have := h.offerInPayload hf ho
      omega
  crcIdx := h.crcIdx

theorem sequencerOk_of_sending (hs : t.fsm.sending = true) (hu : t.Underway) (hw : FrameUnderway t)
    (he : t.chunkEvt = none) : SequencerOk t := by
  have isSending : ∀ {f : Fsm} {P : Prop}, f.sending = false → t.fsm = f → P := by
    intro f P hf h; rw [h, hf] at hs; cases hs
  exact {
    busyIff := ⟨fun _ => Fsm.ne_idle_of_running (Fsm.running_of_sending hs), fun _ => hu.busy⟩
    resultThenIdle := fun h => absurd h (by simp [hu.noResult])
    bitcntBound := hw.bitcntBound
    plenBound := hw.plenBound
    payloadThere := fun _ => hw.payloadThere
    lenIdx := hw.lenIdx
    payloadIdx := fun hf => by have := hw.payloadIdx hf; omega
    absorbedFirst := fun hf hidx => by
      obtain hlt | ⟨-, h0, -⟩ := hw.payloadIdx hf
      · omega
      · exact h0
    crcIdx := hw.crcIdx
    dataIdx := isSending rfl
    offerWhileSending := fun _ => hs
    offerAfterAbsorb := hw.offered
    offerInPayload := fun hf ho => by
      obtain hlt | ⟨-, -, hnone⟩ := hw.payloadIdx hf
      · exact hlt
      · simp [hnone] at ho
    validated := fun _ => hu.validated
    imageFits := fun _ => hu.imageFits
    pagesFit := fun _ => hu.pagesFit
    chunkOfTransfer := isSending rfl
    pulseWhen := fun h => absurd he (Option.isSome_iff_ne_none.1 h)
    cleanWhileRunning := fun _ => hu.noFailure
    causeOnlyLocal := fun h => absurd hu.noFailure.2 h }

/-! ### The moves keep it -/

/-- A command that fails after its accept is in `DONE` with a clean report of why. -/
theorem SequencerOk.raise (h : SequencerOk s) (hf : s.fsm ≠ .idle) (st : Status) (n : Nat) :
    SequencerOk (State.raise st .none { s.lowerPulse with tmo := n }) :=
  sequencerOk_of_done rfl (h.busy_of_ne_idle hf) (h.noResult_of_ne_idle hf) h.bitcntBound h.plenBound
    rfl (by simp [State.raise])

/-- A rejected descriptor ends in `DONE` with `LOCAL_VALIDATION` (R142). -/
theorem SequencerOk.reject (h : SequencerOk s) (d : Descriptor) (c : Subcause) :
    SequencerOk (State.raise .localValidation c (acceptDescriptor d s.lowerPulse)) :=
  sequencerOk_of_done rfl rfl rfl h.bitcntBound h.plenBound rfl fun _ => rfl

/-- `DONE` presents the result and comes to `IDLE` (R191). -/
theorem SequencerOk.presentResult (h : SequencerOk s) (hf : s.fsm = .done) :
    SequencerOk s.lowerPulse.presentResult :=
  sequencerOk_of_idle rfl rfl h.bitcntBound h.plenBound (h.noOffer (by rw [hf]; rfl)) rfl
    h.causeOnlyLocal

/-- A marshalled payload of 1 to 1028 bytes is a frame whose sending begins (R182). -/
theorem sequencerOk_loadPayload (p : List Byte) (hu : s.Underway) (h1 : 1 ≤ p.length)
    (hp : p.length ≤ Config.payloadMax) (ho : s.txOffer = none) (he : s.chunkEvt = none) :
    SequencerOk (loadPayload p s) := by
  have hp' : p.length ≤ 1028 := hp
  have hplen : (loadPayload p s).plen.toNat = p.length := by simp [loadPayload]; omega
  have hflen : (loadPayload p s).flen.toNat = p.length + 4 := by
    simp [loadPayload, frameLength]; omega
  refine sequencerOk_of_sending rfl hu ?_ he
  exact {
    bitcntBound := by simp [loadPayload]
    plenBound := by omega
    payloadThere := by omega
    offered := fun h => absurd ho (Option.isSome_iff_ne_none.1 h)
    lenIdx := fun _ => by simp [loadPayload]
    payloadIdx := nofun
    crcIdx := nofun }

theorem SequencerOk.decoded (h : SequencerOk s) (hf : s.fsm = .decode) (ht : i.isTransfer = false) :
    SequencerOk (onAckOf i s.lowerPulse) := by
  have hu := h.underway (by rw [hf]; rfl)
  have e : DecodeEnds s.lowerPulse (onAckOf i s.lowerPulse) := onAckOf_ends ht
  exact sequencerOk_of_done e.fsm (e.busy.trans hu.busy) (e.resValid.trans hu.noResult)
    (e.bitcnt ▸ h.bitcntBound) (e.plen ▸ h.plenBound) (e.noOffer (h.noOffer (by rw [hf]; rfl)))
    fun hne => absurd (e.noCause hu.noFailure.2) hne

/-- A step from one sending state to another or the same, with the frame's registers as `hw` says. -/
theorem SequencerOk.sends (h : SequencerOk s) (hs : s.fsm.sending = true) (ht : t.fsm.sending = true)
    (hu : t.Underway = s.Underway) (he : t.chunkEvt = none) (hw : FrameUnderway t) : SequencerOk t :=
  sequencerOk_of_sending ht (hu ▸ h.underway (Fsm.running_of_sending hs)) hw he

theorem Covered.sending {b : Byte} (h : Covered s b) : s.fsm.sending = true := by
  cases h <;> simp [*, Fsm.sending]

/-- A byte that is absorbed in `TX_PAYLOAD` is one of the payload (R184). -/
theorem Covered.idx_lt {b : Byte} (h : Covered s b) (hf : s.fsm = .txPayload) :
    s.idx.toNat < s.plen.toNat := by
  cases h with
  | len hl => rw [hl] at hf; cases hf
  | payload _ hp _ => exact hp

theorem Covered.ne_txCrc {b : Byte} (h : Covered s b) : s.fsm ≠ .txCrc := by
  cases h <;> simp [*]

/-- While a byte is absorbed the frame stays as it is but for `bitcnt` and the byte on offer (R124). -/
theorem SequencerOk.absorbs {b : Byte} (h : SequencerOk s) (hc : Covered s b) (a : Word) (n : BitVec 6)
    (o : Option Byte) (hn : n.toNat ≤ crcParams.stepsPerByte) (ho : o.isSome = true → n = 0) :
    SequencerOk { s.lowerPulse with acc := a, bitcnt := n, txOffer := o } := by
  have hw := h.frameUnderway hc.sending
  exact h.sends hc.sending hc.sending rfl rfl { hw with
    bitcntBound := hn
    offered := ho
    payloadIdx := fun hf => .inl (hc.idx_lt hf)
    crcIdx := fun hf => absurd hf hc.ne_txCrc }

theorem SequencerOk.prefixTaken (h : SequencerOk s) (hf : s.fsm = .txLen) (o : Byte) :
    SequencerOk (prefixTaken (s.lowerPulse.linkTakes o)) := by
  have hs : s.fsm.sending = true := by rw [hf]; rfl
  have hw := h.frameUnderway hs
  by_cases h1 : s.idx.toNat < 1
  · rw [prefixTaken_first (s := s.lowerPulse.linkTakes o) h1]
    exact h.sends hs hs rfl rfl { hw with
      offered := nofun
      lenIdx := fun _ => by simp; omega
      payloadIdx := fun hf' => nomatch hf.symm.trans hf'
      crcIdx := fun hf' => nomatch hf.symm.trans hf' }
  · rw [prefixTaken_last (s := s.lowerPulse.linkTakes o) h1]
    exact h.sends hs rfl rfl rfl { hw with
      offered := nofun
      lenIdx := nofun
      payloadIdx := fun _ => .inl hw.payloadThere.1
      crcIdx := nofun }

theorem SequencerOk.payloadTaken (h : SequencerOk s) (hf : s.fsm = .txPayload) (hp : s.idx < s.plen)
    (h0 : s.bitcnt = 0) (o : Byte) : SequencerOk (payloadTaken (s.lowerPulse.linkTakes o)) := by
  have hs : s.fsm.sending = true := by rw [hf]; rfl
  have hw := h.frameUnderway hs
  have hidx : (s.idx + 1).toNat = s.idx.toNat + 1 := by bv_omega
  have hle : s.idx.toNat + 1 < s.plen.toNat ∨ s.idx.toNat + 1 = s.plen.toNat :=
    Nat.lt_or_eq_of_le hp
  exact h.sends hs hs rfl rfl { hw with
    offered := nofun
    lenIdx := fun hf' => nomatch hf.symm.trans hf'
    payloadIdx := fun _ => hidx ▸ hle.imp_right fun e => ⟨e, h0, rfl⟩
    crcIdx := fun hf' => nomatch hf.symm.trans hf' }

theorem SequencerOk.trailerTaken (h : SequencerOk s) (hf : s.fsm = .txCrc) (o : Byte) :
    SequencerOk (trailerTaken (s.lowerPulse.linkTakes o)) := by
  have hs : s.fsm.sending = true := by rw [hf]; rfl
  have hw := h.frameUnderway hs
  by_cases h3 : s.idx.toNat < 3
  · rw [trailerTaken_first (s := s.lowerPulse.linkTakes o) h3]
    exact h.sends hs hs rfl rfl { hw with
      offered := nofun
      lenIdx := fun hf' => nomatch hf.symm.trans hf'
      payloadIdx := fun hf' => nomatch hf.symm.trans hf'
      crcIdx := fun _ => ⟨by simp; omega, (hw.crcIdx hf).2⟩ }
  · rw [trailerTaken_last (s := s.lowerPulse.linkTakes o) h3]
    exact sequencerOk_of_notSending rfl rfl (h.underway (by rw [hf]; rfl)) h.bitcntBound h.plenBound
      rfl nofun nofun (.inl rfl)

/-- Every move of the sequencer keeps its invariant. -/
theorem SequencerOk.move (h : SequencerOk s) (hi : s.fsm ≠ .idle → s.desc.instr? = some i)
    (hm : Move i s t) : SequencerOk t := by
  have running : ∀ {f : Fsm}, s.fsm = f → f.running = true → s.Underway :=
    fun hf hr => h.underway (hf ▸ hr)
  have noOffer : ∀ {f : Fsm}, s.fsm = f → f.sending = false → s.txOffer = none :=
    fun hf hs => h.noOffer (hf ▸ hs)
  cases hm with
  | reject c hf hv => exact h.reject _ c
  | accept hf hv ht =>
    have hsel : (i.latch s.portDescriptor).sel ≠ 7 := by
      rw [sel_latch, ne_eq, selector_eq_seven, ht]; decide
    exact sequencerOk_of_notSending rfl rfl
      ⟨rfl, rfl, ⟨rfl, rfl⟩, hv, fun h7 => absurd h7 hsel, fun h7 => absurd h7 hsel⟩
      h.bitcntBound h.plenBound (noOffer hf rfl) nofun nofun (.inl rfl)
  | acceptTransfer page len e hf hv hl hp =>
    subst e
    have ho := noOffer hf rfl
    by_cases h0 : chunkCount len.toNat = 0
    · exact sequencerOk_of_done (if_pos h0) rfl rfl h.bitcntBound h.plenBound ho (absurd rfl)
    · have hfsm : (if chunkCount len.toNat = 0 then Fsm.done else .marshal) = .marshal := if_neg h0
      rw [hfsm]
      exact sequencerOk_of_notSending rfl rfl
        ⟨rfl, rfl, ⟨rfl, rfl⟩, hv, fun _ => hl, fun _ => hp⟩
        h.bitcntBound h.plenBound ho nofun nofun (.inl rfl)
  | marshal hf ht =>
    exact sequencerOk_loadPayload _ (running hf rfl) (length_encode_pos [])
      ((length_encode_le ht).trans (by decide)) (noOffer hf rfl) rfl
  | marshalChunk page len e hf hb =>
    refine sequencerOk_loadPayload _ (running hf rfl) (by simp) ?_ (noOffer hf rfl) rfl
    rw [length_chunkPayload, length_chunkBytes]
    exact Nat.add_le_add_right (chunkLength_le _ _) 4
  | linkFails hf hl =>
    have hr : s.fsm.running = true := hf.elim Fsm.running_of_sending Fsm.running_of_receiving
    exact h.raise (Fsm.ne_idle_of_running hr) .transport s.tmo
  | inject b hc hl h0 ho => exact h.absorbs hc _ _ s.txOffer (by decide) (by simp [ho])
  | bitStep b hc hl h0 h1 =>
    refine h.absorbs hc _ (s.bitcnt - 1) s.txOffer ?_ fun ho => absurd (h.offerAfterAbsorb ho) h0
    have hb := h.bitcntBound
    bv_omega
  | lastBitStep b hc hl h1 =>
    have e : s.bitcnt - 1 = 0 := by rw [h1]; rfl
    exact h.absorbs hc _ (s.bitcnt - 1) (some b) (by rw [e]; decide) fun _ => e
  | lenTaken o hf hl h0 ho hr => exact h.prefixTaken hf o
  | payloadTaken o hf hp hl h0 ho hr => exact h.payloadTaken hf hp h0 o
  | held o hf hl h0 ho hr =>
    have hw := h.frameUnderway hf
    exact h.sends hf hf rfl rfl { hw with }
  | payloadEnd hf hl hp h0 =>
    have hs : s.fsm.sending = true := by rw [hf]; rfl
    have hw := h.frameUnderway hs
    exact h.sends hs rfl rfl rfl { hw with
      lenIdx := nofun
      payloadIdx := nofun
      crcIdx := fun _ => ⟨by simp, h0⟩ }
  | strayBitStep hf hl hp h0 =>
    obtain hlt | ⟨-, hz, -⟩ := (h.frameUnderway (by rw [hf]; rfl)).payloadIdx hf
    · exact absurd hlt hp
    · exact absurd hz h0
  | trailerOffered hf hl ho =>
    have hs : s.fsm.sending = true := by rw [hf]; rfl
    have hw := h.frameUnderway hs
    exact h.sends hs hs rfl rfl { hw with
      offered := fun _ => (hw.crcIdx hf).2
      payloadIdx := fun hf' => nomatch hf.symm.trans hf' }
  | trailerTaken o hf hl ho hr => exact h.trailerTaken hf o
  | ackRead b bs hf hl hx ho hb =>
    exact sequencerOk_of_notSending rfl rfl (running hf rfl) h.bitcntBound h.plenBound
      (noOffer hf rfl) nofun nofun (.inl rfl)
  | nackRead b bs hf hl hx ho hb =>
    exact sequencerOk_of_notSending rfl rfl (running hf rfl) h.bitcntBound h.plenBound
      (noOffer hf rfl) nofun nofun (.inl rfl)
  | lengthRead b bs hf hl hx hb =>
    have hu := running hf rfl
    by_cases hb : b = 0
    · subst hb
      exact sequencerOk_of_notSending rfl rfl hu h.bitcntBound h.plenBound (noOffer hf rfl)
        nofun nofun (.inl rfl)
    · rw [if_neg hb]
      have hpos : 0 < b.toNat := by bv_omega
      exact sequencerOk_of_notSending rfl rfl hu h.bitcntBound h.plenBound (noOffer hf rfl)
        (fun _ => hpos) nofun (.inl rfl)
  | dataRead b bs hf hl hx hb hd =>
    have hu := running hf rfl
    by_cases hmore : s.idx.toNat + 1 < s.dataLen.toNat
    · rw [if_pos hmore]
      have hidx : (s.idx + 1).toNat < s.dataLen.toNat := by bv_omega
      exact sequencerOk_of_notSending rfl rfl hu h.bitcntBound h.plenBound (noOffer hf rfl)
        (fun _ => hidx) nofun (.inl rfl)
    · rw [if_neg hmore]
      exact sequencerOk_of_notSending rfl rfl hu h.bitcntBound h.plenBound (noOffer hf rfl)
        nofun nofun (.inl rfl)
  | waits n hf hl ho hn =>
    have hr := Fsm.running_of_receiving hf
    have hs := Fsm.not_sending_of_receiving hf
    exact sequencerOk_of_notSending hr hs (h.underway hr) h.bitcntBound h.plenBound (h.noOffer hs)
      h.dataIdx h.chunkOfTransfer (.inl rfl)
  | noResponse n hf hl ho hn =>
    exact h.raise (Fsm.ne_idle_of_running (Fsm.running_of_receiving hf)) .noResponse n
  | refusedResponse hf ht ha => exact h.raise (by rw [hf]; decide) .nack s.tmo
  | decoded hf ht ha => exact h.decoded hf ht
  | chunkAnswered hf ht =>
    have h7 : s.desc.sel = 7 := by
      rw [selector_of_instr? (hi (by rw [hf]; decide)), selector_eq_seven, ht]
    exact sequencerOk_of_notSending rfl rfl (running hf rfl) h.bitcntBound h.plenBound
      (noOffer hf rfl) nofun (fun _ => h7) (.inl rfl)
  | nextChunk hf hm =>
    exact sequencerOk_of_notSending rfl rfl (running hf rfl) h.bitcntBound h.plenBound
      (noOffer hf rfl) nofun nofun (.inr rfl)
  | transferEnds hf hm =>
    have hu := running hf rfl
    exact sequencerOk_of_done rfl hu.busy hu.noResult h.bitcntBound h.plenBound
      (noOffer hf rfl) fun hne => absurd hu.noFailure.2 hne
  | present hf => exact h.presentResult hf

/-- None of the registers it speaks of moves with the pins. -/
theorem SequencerOk.advance (h : SequencerOk s) : SequencerOk s.advance := { h with }

/-- None of the registers it speaks of is the image. -/
theorem SequencerOk.hostWritesImage (h : SequencerOk s) : SequencerOk s.hostWritesImage := by
  rw [hostWritesImage_eq]; exact { h with }

theorem sequencerOk_resetEngine (s : State) : SequencerOk s.resetEngine :=
  sequencerOk_of_idle rfl rfl (Nat.zero_le _) (Nat.zero_le _) rfl rfl (absurd rfl)

theorem SequencerOk.of_step (h : SequencerOk s) (hst : step s = .next t) : SequencerOk t := by
  obtain ⟨-, rfl⟩ | ⟨-, -, -, rfl⟩ | ⟨i, u, -, hf, -, -, hm, rfl⟩ | ⟨-, -, -, -, rfl⟩ |
    ⟨i, u, -, -, hi, hm, rfl⟩ | ⟨-, hf, -, rfl⟩ := step_cases hst
  · exact (sequencerOk_resetEngine s).advance
  · exact h.advance
  · have hf' : s.hostWritesImage.fsm = .idle := by rw [hostWritesImage_eq]; exact hf
    exact (h.hostWritesImage.move (fun hne => absurd hf' hne) hm).advance
  · exact (h.hostWritesImage.reject _ _).advance
  · exact (h.move (fun _ => hi) hm).advance
  · exact (h.presentResult hf).advance

end Sys2Proof.Machine

/-- Settles O53, by cases on the moves of a step. -/
theorem sequencerInvariant : Obligations.SequencerInvariant :=
  fun _ _ h hst => h.of_step hst
end

section
/-! `OPROM` and the opcodes, where a step's command comes from, and what writes the CRC accumulator. -/
namespace Sys2Proof.Machine

variable {i : Instr} {s t : State}

/-- `OPROM`'s byte for a command is the first byte of its encoding, by the table of R85. -/
theorem head?_encode (i : Instr) (chunk : List Byte) :
    (encode i chunk).head? = some (opcodeOf i.selector) := by
  cases i <;> rfl

theorem selector_bounds (i : Instr) : 1 ≤ i.selector.toNat ∧ i.selector.toNat ≤ 10 := by
  cases i <;> simp [Instr.selector]

/-- The opcode of a selector 1 to 10, read from `OPROM` (R141). -/
theorem opcodeOf_toNat {sel : BitVec 4} (h : 1 ≤ sel.toNat ∧ sel.toNat ≤ 10) :
    (opcodeOf sel).toNat = 0x10 + (sel.toNat - 1) := by
  rw [opcodeOf, oprom_read _ (by omega), BitVec.toNat_ofNat]
  omega

/-- In `IDLE`, with no reset, the command on the port is run (R16, R181). -/
theorem step_of_port (hr : s.now.rst = false) (hf : s.fsm = .idle) (hc : s.cmdValid = true)
    (hi : s.portDescriptor.instr? = some i) : step s = thenAdvance (exec i s.hostWritesImage) := by
  simp [step, cycle, runPort, hr, hf, hc, hi]

/-- In every other state, with no reset, the latched command is run (R16). -/
theorem step_of_latched (hr : s.now.rst = false) (hf : s.fsm ≠ .idle) (hi : s.desc.instr? = some i) :
    step s = thenAdvance (exec i s) := by
  simp [step, cycle, runLatched, hr, hf, hi]

theorem hostWritesImage_of_image {d : Descriptor} {bs : List Byte} {cs : List HostCommand}
    (h : s.host = { desc := d, image := some bs } :: cs) :
    s.hostWritesImage = { s with img := s.img.writeList 0 (bs.take Config.imageMax) } := by
  simp [State.hostWritesImage, h]

/-- Where the host has no command, or one without an image, `IMG` is left alone (log 15). -/
theorem hostWritesImage_of_noImage (h : ∀ c ∈ s.host.head?, c.image = none) : s.hostWritesImage = s := by
  unfold State.hostWritesImage
  split
  · rename_i e; simp [e] at h
  · rfl

/-- A word that decodes is placed as the descriptor of its command. -/
theorem portDescriptor_withFetchWord {nbits w : Nat} (h : decodeTableWord nbits w = some i) :
    (s.withFetchWord nbits w).portDescriptor = i.latch Descriptor.zero := by
  unfold decodeTableWord at h
  split at h
  · rename_i d hd
    cases h
    simp [State.withFetchWord, State.presenting, State.portDescriptor, commandOfTableWord, hd]
  · cases h

/-- The moves that write `acc`, and in which states they are made (10_state.md R12). -/
theorem Move.acc_cases (h : Move i s t) :
    t.acc = s.acc ∨ (s.fsm = .marshal ∧ t.acc = 0xFFFFFFFF) ∨
    ((s.fsm = .txLen ∨ s.fsm = .txPayload) ∧
      ((∃ b, t.acc = crcInject crcParams s.acc b) ∨ t.acc = crcShift crcParams s.acc)) := by
  have covered : ∀ {b}, Covered s b → s.fsm = .txLen ∨ s.fsm = .txPayload
    | _, .len hf => .inl hf
    | _, .payload hf _ _ => .inr hf
  cases h with
  | marshal hf | marshalChunk _ _ _ hf => exact .inr (.inl ⟨hf, rfl⟩)
  | inject b hc => exact .inr (.inr ⟨covered hc, .inl ⟨b, rfl⟩⟩)
  | bitStep b hc | lastBitStep b hc => exact .inr (.inr ⟨covered hc, .inr rfl⟩)
  | strayBitStep hf => exact .inr (.inr ⟨.inr hf, .inr rfl⟩)
  | lenTaken o => left; unfold prefixTaken; split <;> rfl
  | trailerTaken o => left; unfold Machine.trailerTaken; split <;> rfl
  | decoded _ ht => exact .inl (onAckOf_ends ht).acc
  | _ => exact .inl rfl

end Sys2Proof.Machine

open Sys2Proof Sys2Proof.Machine

/-- Settles O7, by cases on the moves of `exec`. -/
theorem accWrittenOnlyByCrcOperations : Obligations.AccWrittenOnlyByCrcOperations :=
  fun _ _ _ h => (exec_move h).acc_cases

/-- Settles O20: the word's command is on the port, with quiet pins and the engine in `IDLE`. -/
theorem fetchWordRunsItsCommand : Obligations.FetchWordRunsItsCommand := by
  intro s nbits w i h
  refine step_of_port rfl rfl rfl ?_
  rw [portDescriptor_withFetchWord h, instr?_latch]

/-- Settles O14: `OPROM` is read at the selector less 1, and holds the encodings' first bytes. -/
theorem opcodeTable : Obligations.OpcodeTable := by
  refine ⟨fun j hj => ?_, fun i chunk => ?_⟩
  · rw [oprom_read j hj, BitVec.toNat_ofNat]
    omega
  · obtain ⟨hlow, hhigh⟩ := selector_bounds i
    exact ⟨head?_encode i chunk, hlow, hhigh, opcodeOf_toNat ⟨hlow, hhigh⟩⟩

/-- Settles O19: the step is `cycle`'s choice of command, and the image write is one `writeList`. -/
theorem stepRunsTheCommand : Obligations.StepRunsTheCommand := by
  refine ⟨fun s i => step_of_port, fun s i => step_of_latched, fun s d bs cs h hwf => ?_,
    fun s d cs h => hostWritesImage_of_noImage ?_⟩
  · have hlen : (bs.take Config.imageMax).length = min bs.length Config.imageMax := by
      rw [List.length_take, Nat.min_comm]
    refine ⟨_, hostWritesImage_of_image h, ?_, fun a ha => ?_⟩
    · rw [← hlen, Memory.readList_writeList hwf]
    · rw [Memory.read_writeList_other _ (by omega)]
  · obtain h | h := h <;> simp [h]

/-- Settles O44: every value stands in `State.reset`, and `OPROM`'s in `oprom_read`. -/
theorem resetValues : Obligations.ResetValues := by
  refine ⟨rfl, rfl, rfl, rfl, rfl, rfl, rfl, rfl, rfl, rfl, rfl, rfl, rfl, rfl, rfl, rfl, rfl, rfl,
    rfl, rfl, rfl, oprom_read, rfl, rfl, rfl, rfl⟩

/-- Settles O50: after reset the buffers and the host's list are empty and the engine is in `IDLE`. -/
theorem invariantAtReset : Obligations.InvariantAtReset where
  left := {
    buffers := ⟨Memory.wf_nil, Memory.wf_nil, Memory.wf_nil, nofun, nofun, nofun⟩
    sequencer := sequencerOk_of_idle rfl rfl (Nat.zero_le _) (Nat.zero_le _) rfl rfl (absurd rfl)
    transfer := ⟨nofun, nofun, nofun, nofun, nofun⟩ }
  right := ⟨nofun, nofun, nofun, fun _ _ => rfl, nofun⟩
end

section
/-! Every step keeps the buffers in their canonical form and within their sizes. -/
namespace Sys2Proof.Machine

variable {i : Instr} {s t : State}

/-- A write within a buffer's size leaves no entry past it. -/
theorem Memory.writeList_size {m : Memory} {n a : Nat} {bs : List Byte} (h : ∀ c ∈ m, c.1 < n)
    (hn : a + bs.length ≤ n) : ∀ c ∈ m.writeList a bs, c.1 < n := by
  intro c hc
  obtain hc | ⟨-, hlt⟩ := Memory.mem_writeList hc
  · exact h c hc
  · omega

theorem BuffersOk.loadPayload (h : BuffersOk s) {p : List Byte} (hp : p.length ≤ Config.payloadMax) :
    BuffersOk (loadPayload p s) :=
  { h with
    pbForm := Memory.writeList_wf h.pbForm 0 p
    pbSize := Memory.writeList_size h.pbSize (by omega) }

theorem BuffersOk.hostWritesImage (h : BuffersOk s) : BuffersOk s.hostWritesImage := by
  unfold State.hostWritesImage
  split
  · exact { h with
      imgForm := Memory.writeList_wf h.imgForm 0 _
      imgSize := Memory.writeList_size h.imgSize (by rw [List.length_take]; omega) }
  · exact h

theorem BuffersOk.move (h : BuffersOk s) (hm : Move i s t) : BuffersOk t := by
  cases hm with
  | marshal hf ht =>
    exact BuffersOk.loadPayload (s := s.lowerPulse) { h with } ((length_encode_le ht).trans (by decide))
  | marshalChunk page len e hf hb =>
    refine BuffersOk.loadPayload (s := { s.lowerPulse with clen := _ }) { h with } ?_
    rw [length_chunkPayload, length_chunkBytes]
    exact Nat.add_le_add_right (chunkLength_le _ _) 4
  | lenTaken o => unfold prefixTaken; split <;> exact { h with }
  | trailerTaken o => unfold Machine.trailerTaken; split <;> exact { h with }
  | dataRead b bs hf hl hx ho hi =>
    exact { h with
      rxbForm := Memory.write_wf h.rxbForm _ _
      rxbSize := Memory.writeList_size (bs := [b]) h.rxbSize hi }
  | decoded hf ht ha =>
    have e : DecodeEnds s.lowerPulse (onAckOf i s.lowerPulse) := onAckOf_ends ht
    constructor <;> simp only [e.pb, e.rxb, e.img]
    exacts [h.pbForm, h.rxbForm, h.imgForm, h.pbSize, h.rxbSize, h.imgSize]
  | _ => exact { h with }

theorem BuffersOk.of_step (h : BuffersOk s) (hst : step s = .next t) : BuffersOk t := by
  obtain ⟨-, rfl⟩ | ⟨-, -, -, rfl⟩ | ⟨i, u, -, -, -, -, hm, rfl⟩ | ⟨-, -, -, -, rfl⟩ |
    ⟨i, u, -, -, -, hm, rfl⟩ | ⟨-, -, -, rfl⟩ := step_cases hst
  · exact ⟨Memory.wf_nil, Memory.wf_nil, h.imgForm, nofun, nofun, h.imgSize⟩
  · exact { h with }
  · exact { h.hostWritesImage.move hm with }
  · exact { h.hostWritesImage with }
  · exact { h.move hm with }
  · exact { h with }

end Sys2Proof.Machine
end

section
/-! Buffers that read the same below an index. -/
namespace Sys2Proof.Machine

/-- Two buffers read the same below `n`. -/
def Memory.SameBelow (n : Nat) (m m' : Memory) : Prop := ∀ j < n, m.read j = m'.read j

variable {m m' : Memory} {n : Nat}

theorem Memory.SameBelow.mono {k : Nat} (h : Memory.SameBelow n m m') (hk : k ≤ n) :
    Memory.SameBelow k m m' :=
  fun j hj => h j (Nat.lt_of_lt_of_le hj hk)

theorem Memory.SameBelow.readList (h : Memory.SameBelow n m m') : m.readList 0 n = m'.readList 0 n := by
  refine List.ext_getElem (by simp) fun j h1 h2 => ?_
  rw [Memory.getElem_readList, Memory.getElem_readList, Nat.zero_add]
  exact h j (by simpa using h1)

/-- A byte written at `n` to both extends what they have in common. -/
theorem Memory.SameBelow.write (h : Memory.SameBelow n m m') (hm : Memory.wf m) (hm' : Memory.wf m')
    (b : Byte) : Memory.SameBelow (n + 1) (m.write n b) (m'.write n b) := by
  intro j hj
  obtain hlt | rfl := Nat.lt_or_eq_of_le (Nat.le_of_lt_succ hj)
  · rw [Memory.read_write_other b (by omega), Memory.read_write_other b (by omega), h j hlt]
  · rw [Memory.read_write_same hm, Memory.read_write_same hm']

/-- What is written to both from index 0 on, they have in common. -/
theorem Memory.sameBelow_writeList (hm : Memory.wf m) (hm' : Memory.wf m') (bs : List Byte) :
    Memory.SameBelow bs.length (m.writeList 0 bs) (m'.writeList 0 bs) := by
  intro j hj
  have h := Memory.read_writeList_at hm 0 bs j hj
  have h' := Memory.read_writeList_at hm' 0 bs j hj
  rw [Nat.zero_add] at h h'
  rw [h, h']

end Sys2Proof.Machine
end

section
/-! Two engines that earlier commands left differently, given the same from now on: for each state of the
sequencer, the registers that may still be read there before they are written. On these the two agree; in
`IDLE` there are none, which is why nothing persists (10_state.md R33, R35). -/
namespace Sys2Proof.Machine

/-- The registers of the command and its response (R15, R17, R18). -/
structure CommandRegs where
  desc : Descriptor
  ack : Bool
  stByte : Byte
  dataLen : Byte
  status : Status
  subcause : Subcause

def State.commandRegs (s : State) : CommandRegs :=
  { desc := s.desc, ack := s.ack, stByte := s.stByte, dataLen := s.dataLen, status := s.status,
    subcause := s.subcause }

/-- The registers of a transfer (R19 to R21). -/
structure TransferRegs where
  curPage : Byte
  k : Byte
  nchunks : Byte
  attempts : Byte
  failures : Byte
  failMap : BitVec 128

def State.transferRegs (s : State) : TransferRegs :=
  { curPage := s.curPage, k := s.k, nchunks := s.nchunks, attempts := s.xferAttempts,
    failures := s.xferFailures, failMap := s.xferFailMap }

/-- The registers of a frame being sent (R12 to R14). -/
structure FrameRegs where
  idx : BitVec 11
  acc : Word
  bitcnt : BitVec 6
  plen : BitVec 11
  flen : Half

def State.frameRegs (s : State) : FrameRegs :=
  { idx := s.idx, acc := s.acc, bitcnt := s.bitcnt, plen := s.plen, flen := s.flen }

/-- The same command, at the same place in its transfer if it is one. -/
def SameRun (s s' : State) : Prop :=
  s.commandRegs = s'.commandRegs ∧ (s.desc.sel = 7 → s.transferRegs = s'.transferRegs)

/-- The same frame, sent so far. -/
def SameFrame (s s' : State) : Prop :=
  s.frameRegs = s'.frameRegs ∧ Memory.SameBelow s.plen.toNat s.pb s'.pb

/-- The same data of an acknowledged response. -/
def SameResponse (s s' : State) : Prop :=
  s.ack = true → Memory.SameBelow s.dataLen.toNat s.rxb s'.rxb

/-- The same typed result of the latched command (R24). -/
def SameTyped (s s' : State) : Prop :=
  (s.desc.sel = 1 → (s.verVendor, s.verMajor, s.verMinor, s.verPatch) =
    (s'.verVendor, s'.verMajor, s'.verMinor, s'.verPatch)) ∧
  (s.desc.sel = 2 → s.helpCount = s'.helpCount) ∧
  (s.desc.sel = 3 → s.chipId = s'.chipId) ∧
  (s.desc.sel = 4 → s.rdpRep = s'.rdpRep) ∧
  (s.desc.sel = 8 → readDataView s = readDataView s')

/-- The same result, as far as it is presented (R24). -/
def SameEnd (s s' : State) : Prop :=
  s.commandRegs = s'.commandRegs ∧
  (s.desc.sel = 7 → s.status ≠ .localValidation → s.transferRegs = s'.transferRegs) ∧
  (s.responseHeld = true → SameResponse s s') ∧ (s.status = .ok → SameTyped s s')

/-- What agrees in each state of the sequencer. -/
abbrev LiveIn (f : Fsm) (s s' : State) : Prop :=
  match f with
  | .idle => True
  | .marshal => SameRun s s'
  | .txLen => SameRun s s' ∧ SameFrame s s'
  | .txPayload => SameRun s s' ∧ SameFrame s s'
  | .txCrc => SameRun s s' ∧ SameFrame s s'
  | .rxStatus => SameRun s s' ∧ s.tmo = s'.tmo
  | .rxLen => SameRun s s' ∧ s.tmo = s'.tmo
  | .rxData => SameRun s s' ∧ s.tmo = s'.tmo ∧ s.idx = s'.idx ∧
      Memory.SameBelow s.idx.toNat s.rxb s'.rxb
  | .decode => SameRun s s' ∧ SameResponse s s'
  | .nextChunk => SameRun s s' ∧ SameResponse s s'
  | .done => SameEnd s s'

/-- Two engines with the same surroundings, in the same state of the sequencer, that agree on what is live. -/
structure Agree (s s' : State) : Prop extends SameSurroundings s s' where
  fsm : s.fsm = s'.fsm
  busy : s.busy = s'.busy
  txOffer : s.txOffer = s'.txOffer
  chunkEvt : s.chunkEvt = s'.chunkEvt
  live : LiveIn s.fsm s s'

/-- Where the one engine comes to a next state, the other comes to one that agrees with it. -/
def Matches (r r' : Result) : Prop := ∀ t, r = .next t → ∃ t', r' = .next t' ∧ Agree t t'

variable {i : Instr} {s s' t t' : State} {r r' : Result} {f : Fsm}

theorem Agree.matches_next (h : Agree t t') : Matches (.next t) (.next t') :=
  fun _ e => ⟨t', rfl, Host.Outcome.next.inj e ▸ h⟩

theorem matches_fault (e : Fault) : Matches (.fault e) r' := by intro t h; cases h

theorem matches_refused (e : Refusal) : Matches (.refused e) r' := by intro t h; cases h

theorem Matches.ite {c c' : Prop} [Decidable c] [Decidable c'] {q q' : Result} (hc : c ↔ c')
    (hr : c → Matches r r') (hq : ¬ c → Matches q q') :
    Matches (if c then r else q) (if c' then r' else q') := by
  by_cases h : c
  · rw [if_pos h, if_pos (hc.1 h)]; exact hr h
  · rw [if_neg h, if_neg (hc.not.1 h)]; exact hq h

/-! ### Reading the registers that agree -/

theorem SameRun.desc (h : SameRun s s') : s.desc = s'.desc := congrArg CommandRegs.desc h.1
theorem SameRun.ack (h : SameRun s s') : s.ack = s'.ack := congrArg CommandRegs.ack h.1
theorem SameRun.dataLen (h : SameRun s s') : s.dataLen = s'.dataLen := congrArg CommandRegs.dataLen h.1

theorem SameFrame.idx (h : SameFrame s s') : s.idx = s'.idx := congrArg FrameRegs.idx h.1
theorem SameFrame.acc (h : SameFrame s s') : s.acc = s'.acc := congrArg FrameRegs.acc h.1
theorem SameFrame.bitcnt (h : SameFrame s s') : s.bitcnt = s'.bitcnt := congrArg FrameRegs.bitcnt h.1
theorem SameFrame.plen (h : SameFrame s s') : s.plen = s'.plen := congrArg FrameRegs.plen h.1
theorem SameFrame.flen (h : SameFrame s s') : s.flen = s'.flen := congrArg FrameRegs.flen h.1

theorem Agree.liveAt (h : Agree s s') (hf : s.fsm = f) : LiveIn f s s' := hf ▸ h.live

theorem liveIn_sameRun (hr : f.running = true) (hl : LiveIn f s s') : SameRun s s' := by
  cases f with
  | marshal => exact hl
  | idle | done => cases hr
  | _ => exact hl.1

theorem Agree.sameRun (h : Agree s s') (hr : s.fsm.running = true) : SameRun s s' :=
  liveIn_sameRun hr h.live

theorem liveIn_of_sending (hs : f.sending = true) : LiveIn f s s' ↔ SameRun s s' ∧ SameFrame s s' := by
  cases f with
  | txLen | txPayload | txCrc => rfl
  | _ => cases hs

theorem Agree.sameFrame (h : Agree s s') (hs : s.fsm.sending = true) : SameFrame s s' :=
  ((liveIn_of_sending hs).1 h.live).2

/-! ### The pins and the port -/

theorem Agree.now (h : Agree s s') : s.now = s'.now := by
  simp only [State.now, h.script, h.restPins]

theorem Agree.rxOffered (h : Agree s s') : s.rxOffered = s'.rxOffered := by
  simp only [State.rxOffered, h.now, h.rx]

theorem Agree.cmdValid (h : Agree s s') : s.cmdValid = s'.cmdValid := by
  simp only [State.cmdValid, h.now, h.host]

theorem Agree.portDescriptor (h : Agree s s') : s.portDescriptor = s'.portDescriptor := by
  simp only [State.portDescriptor, h.host]

theorem Agree.lowerPulse (h : Agree s s') : Agree s.lowerPulse s'.lowerPulse :=
  { h with chunkEvt := rfl }

theorem Agree.advance (h : Agree s s') : Agree s.advance s'.advance :=
  { h with
    rx := by simp only [State.advance_rx, State.rxKept, h.fsm, h.now, h.rx]
    boundary := by
      simp only [State.advance_boundary, State.boundaryKept, h.fsm, h.now, h.tx, h.boundary]
    script := congrArg List.tail h.script }

theorem Matches.thenAdvance (h : Matches r r') : Matches (thenAdvance r) (thenAdvance r') := by
  intro t ht
  obtain ⟨u, hu, rfl⟩ := thenAdvance_next ht
  obtain ⟨u', hu', ha⟩ := h u hu
  exact ⟨u'.advance, by rw [hu']; rfl, ha.advance⟩

theorem Agree.hostWritesImage (h : Agree s s') : Agree s.hostWritesImage s'.hostWritesImage := by
  have himg : s.hostWritesImage.img = s'.hostWritesImage.img := by
    unfold State.hostWritesImage
    rw [← h.host]
    split <;> simp only [h.img]
  rw [hostWritesImage_eq s, hostWritesImage_eq s']
  exact { h with img := himg }

theorem Agree.resetEngine (h : Agree s s') : Agree s.resetEngine s'.resetEngine :=
  { h with
    boundary := by simp only [State.resetEngine_boundary, h.fsm, h.boundary]
    fsm := rfl
    busy := rfl
    txOffer := rfl
    chunkEvt := rfl
    live := trivial }

end Sys2Proof.Machine
end

section
/-! The steps of a command keep two engines in agreement, one lemma for each of the sequencer's states. -/
namespace Sys2Proof.Machine

variable {i : Instr} {s s' : State} {f : Fsm}

/-! ### Endings -/

/-- An ending that broke an exchange off holds no response (log 19). -/
theorem responseHeld_of_breaksOff (h : s.status.breaksOff = true) : s.responseHeld = false := by
  unfold State.responseHeld
  cases hst : s.status <;> simp_all [Status.breaksOff]

/-- A failure of a running command ends both engines' commands alike; the response is presented only where
the failure did not break the exchange off. -/
theorem Agree.raise (h : Agree s s') (hr : SameRun s s') {st : Status} (hst : st ≠ .ok)
    (hresp : st.breaksOff = true ∨ SameResponse s s') :
    Agree (State.raise st .none s) (State.raise st .none s') := by
  have held : (State.raise st .none s).responseHeld = true → SameResponse s s' := by
    intro hheld
    refine hresp.resolve_left fun hb => ?_
    rw [responseHeld_of_breaksOff hb] at hheld
    cases hheld
  exact { h with
    boundary := by simp only [State.raise, h.boundary]
    fsm := rfl
    txOffer := rfl
    live := ⟨congrArg (fun r => { r with
      status := st
      subcause := if st = Status.localValidation then Subcause.none else Subcause.none }) hr.1,
      fun h7 _ => hr.2 h7, held, fun hok => absurd hok hst⟩ }

/-- A command that runs to its end presents the same typed result. -/
theorem sameEnd_finish (hrun : SameRun s s') (hresp : SameResponse s s') (ht : SameTyped s s') :
    SameEnd s.finish s'.finish :=
  ⟨congrArg (fun r => { r with status := .ok }) hrun.1, fun h7 _ => hrun.2 h7, fun _ => hresp,
    fun _ => ht⟩

/-- A rejected descriptor, of which nothing but the descriptor and the cause is presented. -/
theorem Agree.reject (h : Agree s s') (d : Descriptor) (c : Subcause) :
    Agree (State.raise .localValidation c (acceptDescriptor d s))
      (State.raise .localValidation c (acceptDescriptor d s')) :=
  { h with
    host := congrArg List.tail h.host
    fsm := rfl
    busy := rfl
    txOffer := rfl
    live := ⟨rfl, fun _ hst => absurd rfl hst, nofun, nofun⟩ }

theorem Agree.presentResult (h : Agree s s') : Agree s.presentResult s'.presentResult :=
  { h with fsm := rfl, busy := rfl, live := trivial }

/-! ### IDLE -/

theorem Agree.accept (h : Agree s s') {latch : Descriptor → Descriptor} {setUp : State → Result}
    (hset : validate (latch s.portDescriptor) = none →
      Matches (setUp (acceptDescriptor (latch s.portDescriptor) s))
        (setUp (acceptDescriptor (latch s.portDescriptor) s'))) :
    Matches (accept latch setUp s) (accept latch setUp s') := by
  obtain ⟨c, hv, e⟩ | ⟨hv, e⟩ := accept_cases latch setUp s <;>
    obtain ⟨c', hv', e'⟩ | ⟨hv', e'⟩ := accept_cases latch setUp s' <;>
    rw [← h.portDescriptor, hv] at hv' <;> rw [e, e', ← h.portDescriptor]
  · cases hv'; exact (h.reject _ c).matches_next
  · cases hv'
  · cases hv'
  · exact hset hv

/-- A command that is one exchange goes to `MARSHAL`. -/
theorem Agree.toMarshal (h : Agree s s') {d : Descriptor} (hd : d.sel ≠ 7) :
    Matches (toMarshal (acceptDescriptor d s)) (toMarshal (acceptDescriptor d s')) :=
  Agree.matches_next { h with
    host := congrArg List.tail h.host
    fsm := rfl
    busy := rfl
    live := ⟨rfl, fun h7 => absurd h7 hd⟩ }

/-- A transfer is set up alike, or refused alike. -/
theorem Agree.transferSetUp (h : Agree s s') {d : Descriptor} (hd : d.sel = 7) (page : Byte)
    (len : BitVec 18) :
    Matches (transferSetUp page len (acceptDescriptor d s))
      (transferSetUp page len (acceptDescriptor d s')) := by
  unfold Machine.transferSetUp
  refine .ite Iff.rfl (fun _ => matches_refused _) fun _ => .ite Iff.rfl (fun _ => matches_refused _) ?_
  intro _
  refine Agree.matches_next { h with
    host := congrArg List.tail h.host
    fsm := rfl
    busy := rfl
    live := ?_ }
  have typed : ∀ sel, sel ≠ 7 → ∀ {P : Prop}, d.sel = sel → P :=
    fun sel hne _ he => absurd (he.symm.trans hd) hne
  by_cases h0 : chunkCount len.toNat = 0
  · simp only [if_pos h0]
    exact ⟨rfl, fun _ _ => rfl, fun _ => nofun, fun _ =>
      ⟨typed 1 (by decide), typed 2 (by decide), typed 3 (by decide), typed 4 (by decide),
        typed 8 (by decide)⟩⟩
  · simp only [if_neg h0]
    exact ⟨rfl, fun _ => rfl⟩

theorem Agree.exec_idle (h : Agree s s') (hf : s.fsm = .idle) : Matches (exec i s) (exec i s') := by
  rw [Machine.exec_idle hf, Machine.exec_idle (h.fsm ▸ hf)]
  refine h.lowerPulse.accept fun _ => ?_
  rcases ht : i.isTransfer
  · rw [commandOf_oneExchange ht]
    exact h.lowerPulse.toMarshal (by rw [sel_latch, ne_eq, selector_eq_seven, ht]; decide)
  · cases i <;> cases ht
    exact h.lowerPulse.transferSetUp (sel_latch _ _) _ _

theorem Agree.acceptNoCommand (h : Agree s s') (hi : s.portDescriptor.instr? = none) :
    Matches (acceptNoCommand s) (acceptNoCommand s') := by
  refine h.lowerPulse.accept fun hv => ?_
  obtain ⟨i, hi'⟩ := instr?_of_validate hv
  cases hi.symm.trans hi'

/-! ### MARSHAL -/

theorem Agree.loadPayload (h : Agree s s') (hr : SameRun s s') (hb : Memory.wf s.pb)
    (hb' : Memory.wf s'.pb) {p p' : List Byte} (hp : p = p') :
    Agree (loadPayload p s) (loadPayload p' s') := by
  subst hp
  have hlen : (BitVec.ofNat 11 p.length).toNat ≤ p.length := by
    rw [BitVec.toNat_ofNat]; exact Nat.mod_le _ _
  exact { h with
    fsm := rfl
    live := ⟨hr, rfl, (Memory.sameBelow_writeList hb hb' p).mono hlen⟩ }

theorem Agree.exec_marshal (h : Agree s s') (hf : s.fsm = .marshal) (hi : s.desc.instr? = some i)
    (hb : Memory.wf s.pb) (hb' : Memory.wf s'.pb) : Matches (exec i s) (exec i s') := by
  have hr : SameRun s s' := h.liveAt hf
  rw [Machine.exec_marshal hf, Machine.exec_marshal (h.fsm ▸ hf)]
  rcases ht : i.isTransfer
  · rw [commandOf_oneExchange ht]
    exact (h.lowerPulse.loadPayload hr hb hb' rfl).matches_next
  · have h7 := hr.2 (by rw [selector_of_instr? hi, selector_eq_seven, ht])
    have hk : s.k = s'.k := congrArg TransferRegs.k h7
    have hpage : s.curPage = s'.curPage := congrArg TransferRegs.curPage h7
    cases i <;> cases ht
    refine .ite (by simp only [State.lowerPulse_k, hk]) (fun _ => ?_) fun _ => matches_fault _
    refine (Agree.loadPayload (s := { s.lowerPulse with clen := _ })
      (s' := { s'.lowerPulse with clen := _ }) ?_ hr hb hb' ?_).matches_next
    · exact { h with chunkEvt := rfl }
    · simp only [State.lowerPulse_k, State.lowerPulse_curPage, State.lowerPulse_img, hk, hpage, h.img]

/-! ### TX_LEN, TX_PAYLOAD, TX_CRC -/

theorem Agree.linkGuard (h : Agree s s') (hr : s.fsm.running = true) {k : State → Result}
    (hk : Matches (k s) (k s')) : Matches (linkGuard k s) (linkGuard k s') := by
  unfold Machine.linkGuard
  rw [← h.now]
  split
  · exact (h.raise (h.sameRun hr) (by decide) (.inl rfl)).matches_next
  · exact hk

theorem Agree.crcInject (h : Agree s s') (hs : s.fsm.sending = true) (b : Byte) :
    Agree (s.crcInject b) (s'.crcInject b) :=
  have hw := h.sameFrame hs
  { h with
    live := (liveIn_of_sending hs).2 ⟨h.sameRun (Fsm.running_of_sending hs),
      congrArg (fun r => { r with acc := Machine.crcInject crcParams r.acc b, bitcnt := 32 }) hw.1,
      hw.2⟩ }

theorem Agree.crcBitStep (h : Agree s s') (hs : s.fsm.sending = true) :
    Agree s.crcBitStep s'.crcBitStep :=
  have hw := h.sameFrame hs
  { h with
    live := (liveIn_of_sending hs).2 ⟨h.sameRun (Fsm.running_of_sending hs),
      congrArg (fun r => { r with acc := crcShift crcParams r.acc, bitcnt := r.bitcnt - 1 }) hw.1,
      hw.2⟩ }

theorem Agree.linkTakes (h : Agree s s') (o : Byte) : Agree (s.linkTakes o) (s'.linkTakes o) :=
  { h with tx := congrArg (· ++ [o]) h.tx, txOffer := rfl }

theorem Agree.absorbAndSend (h : Agree s s') (hs : s.fsm.sending = true) {b b' : Byte} (hb : b = b')
    {taken : State → State} (ht : ∀ o, Agree (taken (s.linkTakes o)) (taken (s'.linkTakes o))) :
    Agree (absorbAndSend b taken s) (absorbAndSend b' taken s') := by
  subst hb
  have hw := h.sameFrame hs
  unfold Machine.absorbAndSend
  rw [← hw.bitcnt, ← h.txOffer, ← h.now]
  by_cases h0 : s.bitcnt = 0
  · rw [if_neg (not_not.2 h0), if_neg (not_not.2 h0)]
    cases s.txOffer with
    | none => exact h.crcInject hs b
    | some o =>
      cases s.now.txReady with
      | false => exact h
      | true => exact ht o
  · rw [if_pos h0, if_pos h0]
    split
    · exact { h.crcBitStep hs with txOffer := rfl }
    · exact h.crcBitStep hs

theorem Agree.sendOnly (h : Agree s s') {b b' : Byte} (hb : b = b') {taken : State → State}
    (ht : ∀ o, Agree (taken (s.linkTakes o)) (taken (s'.linkTakes o))) :
    Agree (sendOnly b taken s) (sendOnly b' taken s') := by
  subst hb
  unfold Machine.sendOnly
  rw [← h.txOffer, ← h.now]
  cases s.txOffer with
  | none => exact { h with txOffer := rfl }
  | some o =>
    cases s.now.txReady with
    | false => exact h
    | true => exact ht o

/-- Setting the index of a frame, and going on to another of its states, or staying. -/
theorem Agree.withIdx (h : Agree s s') (hs : s.fsm.sending = true) {f f' : Fsm} (hf : f.sending = true)
    {x x' : BitVec 11} (hx : x = x') (hff : f = f') :
    Agree { s with idx := x, fsm := f } { s' with idx := x', fsm := f' } := by
  subst hx hff
  have hw := h.sameFrame hs
  exact { h with
    fsm := rfl
    live := (liveIn_of_sending hf).2 ⟨h.sameRun (Fsm.running_of_sending hs),
      congrArg (fun r => { r with idx := x }) hw.1, hw.2⟩ }

theorem Agree.prefixTaken (h : Agree s s') (hs : s.fsm.sending = true) :
    Agree (prefixTaken s) (prefixTaken s') := by
  have hidx := (h.sameFrame hs).idx
  by_cases h1 : s.idx.toNat < 1
  · rw [prefixTaken_first h1, prefixTaken_first (hidx ▸ h1)]
    exact h.withIdx hs hs (by rw [hidx]) h.fsm
  · rw [prefixTaken_last h1, prefixTaken_last (hidx ▸ h1)]
    exact h.withIdx hs rfl rfl rfl

theorem Agree.trailerTaken (h : Agree s s') (hs : s.fsm.sending = true) :
    Agree (trailerTaken s) (trailerTaken s') := by
  have hidx := (h.sameFrame hs).idx
  by_cases h3 : s.idx.toNat < 3
  · rw [trailerTaken_first h3, trailerTaken_first (hidx ▸ h3)]
    exact h.withIdx hs hs (by rw [hidx]) h.fsm
  · rw [trailerTaken_last h3, trailerTaken_last (hidx ▸ h3)]
    exact { h with fsm := rfl, live := ⟨h.sameRun (Fsm.running_of_sending hs), rfl⟩ }

theorem Agree.exec_txLen (h : Agree s s') (hf : s.fsm = .txLen) : Matches (exec i s) (exec i s') := by
  have hs : s.fsm.sending = true := by rw [hf]; rfl
  have hw := h.sameFrame hs
  rw [Machine.exec_txLen hf, Machine.exec_txLen (h.fsm ▸ hf)]
  refine h.lowerPulse.linkGuard (Fsm.running_of_sending hs) ?_
  refine (h.lowerPulse.absorbAndSend hs ?_ fun o => (h.lowerPulse.linkTakes o).prefixTaken hs).matches_next
  simp only [State.lowerPulse_flen, State.lowerPulse_idx, hw.flen, hw.idx]

theorem Agree.exec_txPayload (h : Agree s s') (hf : s.fsm = .txPayload) :
    Matches (exec i s) (exec i s') := by
  have hs : s.fsm.sending = true := by rw [hf]; rfl
  have hw := h.sameFrame hs
  have hlow := h.lowerPulse
  rw [Machine.exec_txPayload hf, Machine.exec_txPayload (h.fsm ▸ hf)]
  refine hlow.linkGuard (Fsm.running_of_sending hs) ?_
  refine .ite (by simp only [State.lowerPulse_idx, State.lowerPulse_plen, hw.idx, hw.plen])
    (fun hlt => ?_) fun _ => ?_
  · refine .ite (by simp only [State.lowerPulse_idx, hw.idx]) (fun _ => ?_) fun _ => matches_fault _
    have hread : s.pb.read s.idx.toNat = s'.pb.read s'.idx.toNat := by
      rw [← hw.idx]; exact hw.2 _ hlt
    refine (hlow.absorbAndSend hs hread fun o => ?_).matches_next
    exact (hlow.linkTakes o).withIdx hs hs (congrArg (· + 1) hw.idx) h.fsm
  · refine .ite (by simp only [State.lowerPulse_bitcnt, hw.bitcnt]) (fun _ => ?_) fun _ => ?_
    · exact (hlow.withIdx hs rfl rfl rfl).matches_next
    · exact (hlow.crcBitStep hs).matches_next

theorem Agree.exec_txCrc (h : Agree s s') (hf : s.fsm = .txCrc) : Matches (exec i s) (exec i s') := by
  have hs : s.fsm.sending = true := by rw [hf]; rfl
  have hw := h.sameFrame hs
  rw [Machine.exec_txCrc hf, Machine.exec_txCrc (h.fsm ▸ hf)]
  refine h.lowerPulse.linkGuard (Fsm.running_of_sending hs) ?_
  refine (h.lowerPulse.sendOnly ?_ fun o => (h.lowerPulse.linkTakes o).trailerTaken hs).matches_next
  simp only [State.lowerPulse_acc, State.lowerPulse_idx, hw.acc, hw.idx]

/-! ### RX_STATUS, RX_LEN, RX_DATA -/

/-- What agrees in a state in which a byte is awaited does so with the timer set alike. -/
theorem liveIn_withTmo (hr : f.receiving = true) (hl : LiveIn f s s') (n : Nat) :
    LiveIn f { s with tmo := n } { s' with tmo := n } := by
  cases f with
  | rxStatus | rxLen => exact ⟨hl.1, rfl⟩
  | rxData => exact ⟨hl.1, rfl, hl.2.2⟩
  | _ => cases hr

theorem Agree.withTmo (h : Agree s s') (hr : s.fsm.receiving = true) (n : Nat) :
    Agree { s with tmo := n } { s' with tmo := n } :=
  { h with live := liveIn_withTmo hr h.live n }

theorem liveIn_tmo (hr : f.receiving = true) (hl : LiveIn f s s') : s.tmo = s'.tmo := by
  cases f with
  | rxStatus | rxLen => exact hl.2
  | rxData => exact hl.2.1
  | _ => cases hr

theorem Agree.tmo (h : Agree s s') (hr : s.fsm.receiving = true) : s.tmo = s'.tmo :=
  liveIn_tmo hr h.live

theorem Agree.waitForByte (h : Agree s s') (hr : s.fsm.receiving = true) :
    Agree s.waitForByte s'.waitForByte := by
  have hrun := h.sameRun (Fsm.running_of_receiving hr)
  cases hT : s.params.rxTimeout with
  | none =>
    have hT' : s'.params.rxTimeout = none := h.params ▸ hT
    simpa only [State.waitForByte, hT, hT'] using h
  | some T =>
    have hT' : s'.params.rxTimeout = some T := h.params ▸ hT
    simp only [State.waitForByte, hT, hT', ← h.now, ← h.tmo hr]
    split_ifs
    · exact (h.withTmo hr (s.tmo + 1)).raise (st := .noResponse) hrun (by decide) (.inl rfl)
    · exact h.withTmo hr _
    · exact h

/-- A step that awaits a byte: with the same byte offered, `got` is what is left to compare. -/
theorem Agree.receive (h : Agree s s') (hr : s.fsm.receiving = true)
    {got : Byte → State → Result} (hg : ∀ b, Matches (got b s.takeByte) (got b s'.takeByte)) :
    Matches (Machine.linkGuard (Machine.receive got) s) (Machine.linkGuard (Machine.receive got) s') := by
  refine h.linkGuard (Fsm.running_of_receiving hr) ?_
  unfold Machine.receive
  rw [← h.rxOffered]
  split
  · exact hg _
  · exact (h.waitForByte hr).matches_next

theorem Agree.takeByte (h : Agree s s') (hr : s.fsm.receiving = true) :
    Agree s.takeByte s'.takeByte :=
  { h.withTmo hr 0 with rx := congrArg List.tail h.rx }

theorem Agree.gotStatus (h : Agree s s') (hf : s.fsm = .rxStatus) (b : Byte) :
    Matches (gotStatus b s) (gotStatus b s') := by
  obtain ⟨hrun, ht⟩ := h.liveAt hf
  refine .ite Iff.rfl (fun _ => Agree.matches_next ?_) fun _ => Agree.matches_next ?_
  · exact { h with
      fsm := rfl
      live := ⟨⟨congrArg (fun r => { r with stByte := b }) hrun.1, hrun.2⟩, ht⟩ }
  · exact { h with
      fsm := rfl
      live := ⟨⟨congrArg (fun r => { r with stByte := b, ack := false, dataLen := 0 }) hrun.1, hrun.2⟩,
        nofun⟩ }

theorem Agree.gotLength (h : Agree s s') (hf : s.fsm = .rxLen) (b : Byte) :
    Matches (gotLength b s) (gotLength b s') := by
  obtain ⟨hrun, ht⟩ := h.liveAt hf
  have hregs := congrArg (fun r => { r with dataLen := b, ack := true }) hrun.1
  refine Agree.matches_next { h with fsm := rfl, live := ?_ }
  by_cases hb : b = 0
  · rw [if_pos hb]
    exact ⟨⟨hregs, hrun.2⟩, fun _ j hj => absurd hj (by simp [hb])⟩
  · rw [if_neg hb]
    exact ⟨⟨hregs, hrun.2⟩, ht, rfl, fun j hj => absurd hj (by simp)⟩

theorem Agree.gotData (h : Agree s s') (hf : s.fsm = .rxData) (hb : Memory.wf s.rxb)
    (hb' : Memory.wf s'.rxb) (b : Byte) : Matches (gotData b s) (gotData b s') := by
  obtain ⟨hrun, ht, hidx, hsame⟩ := h.liveAt hf
  have hlen := hrun.dataLen
  have hwritten : Memory.SameBelow (s.idx.toNat + 1) (s.rxb.write s.idx.toNat b)
      (s'.rxb.write s'.idx.toNat b) := by
    rw [← hidx]; exact hsame.write hb hb' b
  have hmore : s.idx.toNat + 1 < s.dataLen.toNat ↔ s'.idx.toNat + 1 < s'.dataLen.toNat := by
    rw [hidx, hlen]
  refine .ite (by rw [hidx]) (fun hlt => Agree.matches_next ?_) fun _ => matches_fault _
  have hnext : (s.idx + 1).toNat = s.idx.toNat + 1 := by
    have hlt : s.idx.toNat < 255 := hlt
    bv_omega
  by_cases hm : s.idx.toNat + 1 < s.dataLen.toNat
  · rw [if_pos hm, if_pos (hmore.1 hm)]
    exact { h with
      fsm := rfl
      live := ⟨hrun, ht, congrArg (· + 1) hidx, by simpa only [hnext] using hwritten⟩ }
  · rw [if_neg hm, if_neg (hmore.not.1 hm)]
    exact { h with
      fsm := rfl
      live := ⟨hrun, fun _ => hwritten.mono (Nat.le_of_not_lt hm)⟩ }

theorem Agree.exec_rxStatus (h : Agree s s') (hf : s.fsm = .rxStatus) :
    Matches (exec i s) (exec i s') := by
  have hr : s.fsm.receiving = true := by rw [hf]; rfl
  rw [Machine.exec_rxStatus hf, Machine.exec_rxStatus (h.fsm ▸ hf)]
  exact h.lowerPulse.receive hr fun b => (h.lowerPulse.takeByte hr).gotStatus hf b

theorem Agree.exec_rxLen (h : Agree s s') (hf : s.fsm = .rxLen) : Matches (exec i s) (exec i s') := by
  have hr : s.fsm.receiving = true := by rw [hf]; rfl
  rw [Machine.exec_rxLen hf, Machine.exec_rxLen (h.fsm ▸ hf)]
  exact h.lowerPulse.receive hr fun b => (h.lowerPulse.takeByte hr).gotLength hf b

theorem Agree.exec_rxData (h : Agree s s') (hf : s.fsm = .rxData) (hb : Memory.wf s.rxb)
    (hb' : Memory.wf s'.rxb) : Matches (exec i s) (exec i s') := by
  have hr : s.fsm.receiving = true := by rw [hf]; rfl
  rw [Machine.exec_rxData hf, Machine.exec_rxData (h.fsm ▸ hf)]
  exact h.lowerPulse.receive hr fun b => (h.lowerPulse.takeByte hr).gotData hf hb hb' b

/-! ### DECODE -/

/-- A decode that uses `n` data bytes uses only bytes that agree. -/
theorem Agree.needsData (h : Agree s s') (hrun : SameRun s s') (hresp : SameResponse s s')
    {n : Nat} {use : State → State}
    (huse : n ≤ s.dataLen.toNat → Agree (use s).finish (use s').finish) :
    Agree (needsData n use s) (needsData n use s') := by
  unfold Machine.needsData
  rw [← hrun.dataLen]
  split
  · exact h.raise (st := .shortResponse) hrun (by decide) (.inr hresp)
  · exact huse (by omega)

/-- The typed result of a selector is compared only where that selector is latched. -/
theorem sameTyped_of_sel {sel : BitVec 4} (hsel : s.desc.sel = sel)
    (h1 : sel = 1 → (s.verVendor, s.verMajor, s.verMinor, s.verPatch) =
      (s'.verVendor, s'.verMajor, s'.verMinor, s'.verPatch))
    (h2 : sel = 2 → s.helpCount = s'.helpCount) (h3 : sel = 3 → s.chipId = s'.chipId)
    (h4 : sel = 4 → s.rdpRep = s'.rdpRep) (h8 : sel = 8 → readDataView s = readDataView s') :
    SameTyped s s' := by
  subst hsel; exact ⟨h1, h2, h3, h4, h8⟩

theorem Agree.onAckOf (h : Agree s s') (hf : s.fsm = .decode) (hi : s.desc.instr? = some i)
    (ht : i.isTransfer = false) (ha : s.ack = true) : Agree (onAckOf i s) (onAckOf i s') := by
  obtain ⟨hrun, hresp⟩ := h.liveAt hf
  have hsame := hresp ha
  have hsel := selector_of_instr? hi
  cases i with
  | getVersion =>
    refine h.needsData hrun hresp fun hn => { h with
      fsm := rfl
      live := sameEnd_finish (s := takeVersion s) (s' := takeVersion s') hrun hresp
        (sameTyped_of_sel hsel (fun _ => ?_) nofun nofun nofun nofun) }
    simp only [takeVersion, hsame 0 (by omega), hsame 1 (by omega), hsame 2 (by omega),
      hsame 3 (by omega)]
  | getHelp =>
    have hlen := hrun.dataLen
    simp only [Machine.onAckOf, decodeHelp]
    by_cases hover : 10 < s.dataLen.toNat
    · rw [if_pos hover, if_pos (hlen ▸ hover)]
      exact h.raise (st := .helpOverflow) hrun (by decide) (.inr hresp)
    · rw [if_neg hover, if_neg (hlen ▸ hover)]
      exact { h with
        fsm := rfl
        live := sameEnd_finish (s := { s with helpCount := _ }) (s' := { s' with helpCount := _ })
          hrun hresp (sameTyped_of_sel hsel nofun (fun _ => by rw [hlen]) nofun nofun nofun) }
  | getChipId =>
    refine h.needsData hrun hresp fun hn => { h with
      fsm := rfl
      live := sameEnd_finish (s := takeChipId s) (s' := takeChipId s') hrun hresp
        (sameTyped_of_sel hsel nofun nofun (fun _ => ?_) nofun nofun) }
    simp only [takeChipId, hsame 0 (by omega), hsame 1 (by omega)]
  | getRdpStatus =>
    refine h.needsData hrun hresp fun hn => { h with
      fsm := rfl
      live := sameEnd_finish (s := takeRdpStatus s) (s' := takeRdpStatus s') hrun hresp
        (sameTyped_of_sel hsel nofun nofun nofun (fun _ => ?_) nofun) }
    simp only [takeRdpStatus, hsame 0 (by omega)]
  | memWrite => cases ht
  | memRead =>
    refine { h with
      fsm := rfl
      live := sameEnd_finish hrun hresp (sameTyped_of_sel hsel nofun nofun nofun nofun fun _ => ?_) }
    rw [readDataView, readDataView, hsame.readList, hrun.dataLen]
  | goToAddress | eraseFlash | jumpToApp | changeRdpLevel =>
    exact { h with
      fsm := rfl
      live := sameEnd_finish hrun hresp (sameTyped_of_sel hsel nofun nofun nofun nofun nofun) }

theorem Agree.decodeWith (h : Agree s s') (hf : s.fsm = .decode) {onAck : State → State}
    (hon : s.ack = true → Agree (onAck s) (onAck s')) :
    Agree (decodeWith onAck s) (decodeWith onAck s') := by
  obtain ⟨hrun, hresp⟩ := h.liveAt hf
  unfold Machine.decodeWith
  rw [← hrun.ack]
  split
  · exact hon (by assumption)
  · exact h.raise (st := .nack) hrun (by decide) (.inr hresp)

theorem Agree.exec_decode (h : Agree s s') (hf : s.fsm = .decode) (hi : s.desc.instr? = some i) :
    Matches (exec i s) (exec i s') := by
  obtain ⟨hrun, hresp⟩ := h.liveAt hf
  rw [Machine.exec_decode hf, Machine.exec_decode (h.fsm ▸ hf)]
  refine Agree.matches_next ?_
  rcases ht : i.isTransfer
  · rw [commandOf_oneExchange ht]
    exact h.lowerPulse.decodeWith hf (h.lowerPulse.onAckOf hf hi ht)
  · cases i <;> cases ht
    exact { h.lowerPulse with fsm := rfl, live := ⟨hrun, hresp⟩ }

/-! ### NEXT_CHUNK -/

/-- The outcome of a chunk is recorded alike. -/
theorem sameRun_recordChunk (hrun : SameRun s s') (h7 : s.desc.sel = 7) :
    SameRun (recordChunk s) (recordChunk s') := by
  have hregs := hrun.2 h7
  have hack := hrun.ack
  refine ⟨hrun.1, fun _ => ?_⟩
  simp only [State.transferRegs, TransferRegs.mk.injEq] at hregs
  simp [State.transferRegs, recordChunk, hack, hregs]

theorem moreChunks_eq (hrun : SameRun s s') (h7 : s.desc.sel = 7) (hp : s.params = s'.params) :
    moreChunks s = moreChunks s' := by
  have hk : (recordChunk s).k = (recordChunk s').k :=
    congrArg TransferRegs.k ((sameRun_recordChunk hrun h7).2 h7)
  have hn : s.nchunks = s'.nchunks := congrArg TransferRegs.nchunks (hrun.2 h7)
  simp only [moreChunks, hk, hn, hp, hrun.ack]

theorem Agree.exec_nextChunk (h : Agree s s') (hf : s.fsm = .nextChunk) (h7 : s.desc.sel = 7) :
    Matches (exec i s) (exec i s') := by
  obtain ⟨hrun, hresp⟩ := h.liveAt hf
  have hrec : SameRun (recordChunk s.lowerPulse) (recordChunk s'.lowerPulse) :=
    sameRun_recordChunk (s := s.lowerPulse) (s' := s'.lowerPulse) hrun h7
  have hregs := hrec.2 h7
  have hevt : (recordChunk s.lowerPulse).chunkEvt = (recordChunk s'.lowerPulse).chunkEvt := by
    have hk := congrArg TransferRegs.k (hrun.2 h7)
    have hpage := congrArg TransferRegs.curPage (hrun.2 h7)
    simp only [State.transferRegs] at hk hpage
    simp [recordChunk, hk, hpage, hrun.ack]
  rw [Machine.exec_nextChunk hf, Machine.exec_nextChunk (h.fsm ▸ hf)]
  refine Agree.matches_next ?_
  unfold nextChunkStep
  rw [← moreChunks_eq (s := s.lowerPulse) (s' := s'.lowerPulse) hrun h7 h.params]
  split
  · exact { h with fsm := rfl, chunkEvt := hevt, live := hrec }
  · refine { h with
      fsm := rfl
      chunkEvt := hevt
      live := ⟨?_, fun _ _ => hregs, fun _ => hresp, fun _ => ?_⟩ }
    · exact congrArg₂ (fun r n => { r with status := transferStatus n }) hrec.1
        (congrArg TransferRegs.failures hregs)
    · exact sameTyped_of_sel h7 nofun nofun nofun nofun nofun

/-! ### A whole command, a step, a run -/

/-- Whatever the command, its step keeps two engines in agreement. -/
theorem Agree.exec (h : Agree s s') (hq : SequencerOk s) (hb : BuffersOk s) (hb' : BuffersOk s')
    (hi : s.fsm ≠ .idle → s.desc.instr? = some i) : Matches (exec i s) (exec i s') := by
  cases hf : s.fsm with
  | idle => exact h.exec_idle hf
  | marshal => exact h.exec_marshal hf (hi (by rw [hf]; decide)) hb.pbForm hb'.pbForm
  | txLen => exact h.exec_txLen hf
  | txPayload => exact h.exec_txPayload hf
  | txCrc => exact h.exec_txCrc hf
  | rxStatus => exact h.exec_rxStatus hf
  | rxLen => exact h.exec_rxLen hf
  | rxData => exact h.exec_rxData hf hb.rxbForm hb'.rxbForm
  | decode => exact h.exec_decode hf (hi (by rw [hf]; decide))
  | nextChunk => exact h.exec_nextChunk hf (hq.chunkOfTransfer hf)
  | done =>
    rw [exec_done hf, exec_done (h.fsm ▸ hf)]
    exact h.lowerPulse.presentResult.matches_next

end Sys2Proof.Machine
end

section
/-! Two engines that agree run alike, and present the same result. -/
namespace Sys2Proof.Machine

variable {s s' t : State} {n : Nat}

theorem Agree.runPort (h : Agree s s') (hf : s.fsm = .idle) (hq : SequencerOk s) (hb : BuffersOk s)
    (hb' : BuffersOk s') : Matches (runPort s) (runPort s') := by
  unfold Machine.runPort
  rw [← h.portDescriptor]
  split
  · exact h.exec hq hb hb' (absurd hf)
  · exact h.acceptNoCommand (by assumption)

theorem Agree.desc (h : Agree s s') (hf : s.fsm ≠ .idle) : s.desc = s'.desc := by
  by_cases hr : s.fsm.running = true
  · exact (h.sameRun hr).desc
  · have hdone : s.fsm = .done := by
      cases hs : s.fsm <;> simp_all [Fsm.running]
    exact congrArg CommandRegs.desc (h.liveAt hdone).1

theorem Agree.runLatched (h : Agree s s') (hf : s.fsm ≠ .idle) (hq : SequencerOk s) (hb : BuffersOk s)
    (hb' : BuffersOk s') : Matches (runLatched s) (runLatched s') := by
  unfold Machine.runLatched
  rw [← h.desc hf, ← h.fsm]
  split
  · exact h.exec hq hb hb' fun _ => by assumption
  · exact .ite Iff.rfl (fun _ => h.lowerPulse.presentResult.matches_next) fun _ => matches_fault _

theorem Agree.step (h : Agree s s') (hq : SequencerOk s) (hb : BuffersOk s) (hb' : BuffersOk s') :
    Matches (step s) (step s') := by
  unfold Machine.step cycle
  refine .ite (by rw [h.now]) (fun _ => h.resetEngine.advance.matches_next) fun _ => .thenAdvance ?_
  refine .ite (by rw [h.fsm]) (fun hf => ?_) fun hf => h.runLatched hf hq hb hb'
  refine .ite (by rw [h.cmdValid]) (fun _ => ?_) fun _ => h.matches_next
  exact h.hostWritesImage.runPort (by rw [hostWritesImage_eq]; exact hf) hq.hostWritesImage
    hb.hostWritesImage hb'.hostWritesImage

/-- Two engines that agree and meet the invariant make the same run. -/
theorem Agree.run (h : Agree s s') (hq : SequencerOk s) (hb : BuffersOk s) (hb' : BuffersOk s')
    (hrun : Run n s t) : ∃ t', Run n s' t' ∧ Agree t t' := by
  induction n generalizing s s' with
  | zero => cases hrun; exact ⟨s', rfl, h⟩
  | succ n ih =>
    obtain ⟨u, hu, hrest⟩ := hrun
    obtain ⟨u', hu', hagree⟩ := h.step hq hb hb' u hu
    obtain ⟨t', ht', hend⟩ := ih hagree (hq.of_step hu) (hb.of_step hu) (hb'.of_step hu') hrest
    exact ⟨t', ⟨u', hu', ht'⟩, hend⟩

theorem SequencerOk.idle_busy (h : SequencerOk s) (hf : s.fsm = .idle) : s.busy = false :=
  Bool.eq_false_iff.2 fun hb => h.busyIff.1 hb hf

theorem SequencerOk.idle_noPulse (h : SequencerOk s) (hf : s.fsm = .idle) : s.chunkEvt = none := by
  rw [← Option.not_isSome_iff_eq_none]
  intro he
  obtain hm | hd := h.pulseWhen he
  · cases hf.symm.trans hm
  · cases hf.symm.trans hd

/-- In `IDLE` nothing is live: the same surroundings are enough (10_state.md R33, R35). -/
theorem agree_of_idle (hq : SequencerOk s) (hq' : SequencerOk s') (hf : s.fsm = .idle)
    (hf' : s'.fsm = .idle) (h : SameSurroundings s s') : Agree s s' where
  toSameSurroundings := h
  fsm := hf.trans hf'.symm
  busy := by rw [hq.idle_busy hf, hq'.idle_busy hf']
  txOffer := by rw [hq.noOffer (by rw [hf]; rfl), hq'.noOffer (by rw [hf']; rfl)]
  chunkEvt := by rw [hq.idle_noPulse hf, hq'.idle_noPulse hf']
  live := by rw [hf]; trivial

/-! ### The result port -/

theorem ite_some_congr {α : Type} {c c' : Bool} {a a' : α} (hc : c = c') (ha : c = true → a = a') :
    (if c then some a else none) = if c' then some a' else none := by
  subst hc
  split
  · exact congrArg some (ha (by assumption))
  · rfl

theorem SameEnd.regs (h : SameEnd s s') : s.desc = s'.desc ∧ s.ack = s'.ack ∧ s.stByte = s'.stByte ∧
    s.dataLen = s'.dataLen ∧ s.status = s'.status ∧ s.subcause = s'.subcause := by
  have hregs := h.1
  simpa only [State.commandRegs, CommandRegs.mk.injEq] using hregs

theorem SameEnd.responseHeld (h : SameEnd s s') : s.responseHeld = s'.responseHeld := by
  obtain ⟨hdesc, -, -, -, hstatus, -⟩ := h.regs
  have made : s.status ≠ .localValidation → (s.desc.sel != 7 || s.xferAttempts != 0) =
      (s'.desc.sel != 7 || s'.xferAttempts != 0) := by
    intro hne
    rw [← hdesc]
    by_cases h7 : s.desc.sel = 7
    · have hattempts : s.xferAttempts = s'.xferAttempts := congrArg TransferRegs.attempts (h.2.1 h7 hne)
      rw [hattempts]
    · rw [bne_iff_ne.2 h7, Bool.true_or, Bool.true_or]
  unfold State.responseHeld
  rw [← hstatus]
  cases hs : s.status with
  | localValidation | transport | noResponse => rfl
  | ok | nack | shortResponse | helpOverflow => exact made (by rw [hs]; decide)

theorem SameEnd.resultPort (h : SameEnd s s') :
    s.presentResult.resultPort = s'.presentResult.resultPort := by
  have hheld : s.presentResult.responseHeld = s'.presentResult.responseHeld := h.responseHeld
  obtain ⟨hdesc, hack, hst, hlen, hstatus, hcause⟩ := h.regs
  obtain ⟨-, htransfer, hdata, htyped⟩ := h
  have ready : ∀ sel, s.presentResult.typedReady sel = s'.presentResult.typedReady sel := by
    simp [State.typedReady, hstatus, hdesc]
  have typed : ∀ {sel}, s.presentResult.typedReady sel = true → SameTyped s s' ∧ s.desc.sel = sel := by
    simp only [State.typedReady, Bool.and_eq_true, beq_iff_eq]
    exact fun ⟨⟨_, hok⟩, hsel⟩ => ⟨htyped hok, hsel⟩
  simp only [State.resultPort, ResultPort.mk.injEq]
  refine ⟨?status, ?subcause, ?ack, ?stByte, ?dataLen, ?data, ?version, ?helpCount, ?chipId, ?rdpRep,
    ?readData, ?report⟩
  case status => simp [State.statusOut, hstatus]
  case subcause => simp [State.subcauseOut, hstatus, hcause]
  case ack => simp [State.ackOut, hheld, hack]
  case stByte => simp [State.stByteOut, hheld, hst]
  case dataLen => simp [State.dataLenOut, hheld, hlen]
  case data =>
    refine ite_some_congr (by simp [hheld, hack]) fun hc => ?_
    simp only [Bool.and_eq_true] at hc
    obtain ⟨⟨-, hh⟩, ha⟩ := hc
    show s.rxb.readList 0 s.dataLen.toNat = s'.rxb.readList 0 s'.dataLen.toNat
    rw [(hdata hh ha).readList, hlen]
  case version =>
    refine ite_some_congr (ready 1) fun hc => ?_
    obtain ⟨⟨hversion, -⟩, hsel⟩ := typed hc
    exact hversion hsel
  case helpCount =>
    refine ite_some_congr (ready 2) fun hc => ?_
    obtain ⟨⟨-, hcount, -⟩, hsel⟩ := typed hc
    exact hcount hsel
  case chipId =>
    refine ite_some_congr (ready 3) fun hc => ?_
    obtain ⟨⟨-, -, hchip, -⟩, hsel⟩ := typed hc
    exact hchip hsel
  case rdpRep =>
    refine ite_some_congr (ready 4) fun hc => ?_
    obtain ⟨⟨-, -, -, hrdp, -⟩, hsel⟩ := typed hc
    exact hrdp hsel
  case readData =>
    refine ite_some_congr (ready 8) fun hc => ?_
    obtain ⟨⟨-, -, -, -, hread⟩, hsel⟩ := typed hc
    exact hread hsel
  case report =>
    refine ite_some_congr (by simp [hdesc, hstatus]) fun hc => ?_
    simp only [Bool.and_eq_true, beq_iff_eq, bne_iff_ne] at hc
    obtain ⟨⟨-, h7⟩, hne⟩ := hc
    have hregs := htransfer h7 hne
    simp only [State.transferRegs, TransferRegs.mk.injEq] at hregs
    simp [hregs]

end Sys2Proof.Machine

open Sys2Proof Sys2Proof.Machine

/-- Settles O60: in `IDLE` no register is live, so the two engines agree on all that are, and every step
keeps them in agreement. -/
theorem nothingPersists : Obligations.NothingPersists := by
  intro s s' t n hs hs' hf hf' hsame hrun
  obtain ⟨t', hrun', h⟩ := (agree_of_idle hs.sequencer hs'.sequencer hf hf' hsame).run hs.sequencer
    hs.buffers hs'.buffers hrun
  refine ⟨t', hrun', h.toSameSurroundings, h.fsm.symm, h.busy.symm, h.txOffer.symm, h.chunkEvt.symm,
    fun hdone => ?_⟩
  have hend : SameEnd t t' := h.liveAt hdone
  obtain ⟨-, hack, hst, hlen, hstatus, hcause⟩ := hend.regs
  exact ⟨hstatus.symm, hcause.symm, hack.symm, hst.symm, hlen.symm, hend.resultPort.symm⟩
end

section
/-! The canonical form of a buffer is determined by what the buffer reads as. -/
namespace Sys2Proof.Machine

variable {m m' : Memory}

/-- An index that does not read as `fill` has an entry, which holds what is read. -/
theorem Memory.mem_of_read_ne_fill {a : Nat} (h : m.read a ≠ Memory.fill) : (a, m.read a) ∈ m := by
  induction m with
  | nil => exact absurd rfl h
  | cons c m ih =>
    simp only [Memory.read] at h ⊢
    split_ifs at h ⊢ with hc
    · exact hc ▸ List.mem_cons_self
    · exact List.mem_cons_of_mem c (ih h)

theorem Memory.read_of_mem {c : Host.Cell} (hm : Memory.wf m) (hc : c ∈ m) : m.read c.1 = c.2 := by
  induction m with
  | nil => cases hc
  | cons d m ih =>
    obtain ⟨hlt, -, hm⟩ := Memory.wf_cons.1 hm
    obtain rfl | hc := List.mem_cons.1 hc
    · exact if_pos rfl
    · exact (if_neg (Nat.ne_of_lt (hlt c hc))).trans (ih hm hc)

/-- The entries of a canonical buffer are its bytes other than `fill`. -/
theorem Memory.mem_iff_read (hm : Memory.wf m) (c : Host.Cell) :
    c ∈ m ↔ c.2 ≠ Memory.fill ∧ m.read c.1 = c.2 := by
  constructor
  · exact fun hc => ⟨hm.2 c hc, Memory.read_of_mem hm hc⟩
  · rintro ⟨hne, hr⟩
    have hc := Memory.mem_of_read_ne_fill (hr ▸ hne : m.read c.1 ≠ Memory.fill)
    rwa [hr] at hc

/-- Canonical buffers that read the same have the same entries, and both list them in rising order. -/
theorem Memory.ext_read (hm : Memory.wf m) (hm' : Memory.wf m') (h : ∀ a, m.read a = m'.read a) :
    m = m' := by
  have : Std.Irrefl fun c d : Host.Cell => c.1 < d.1 := ⟨fun c => Nat.lt_irrefl c.1⟩
  have : Std.Antisymm fun c d : Host.Cell => c.1 < d.1 :=
    ⟨fun _ _ hcd hdc => absurd hdc (Nat.lt_asymm hcd)⟩
  refine hm.1.eq_of_mem_iff hm'.1 fun c => ?_
  rw [Memory.mem_iff_read hm, Memory.mem_iff_read hm', h]

end Sys2Proof.Machine
end

section
/-! What a step does to the link's two streams (20_memory.md R44, R45). -/
namespace Sys2Proof.Machine

variable {i : Instr} {s t : State}

/-- `t` has sent and taken nothing that `s` had not. -/
structure SameStreams (s t : State) : Prop where
  tx : t.tx = s.tx
  rx : t.rx = s.rx

theorem needsData_sameStreams {n : Nat} {use : State → State} (h : SameStreams s (use s).finish) :
    SameStreams s (needsData n use s) := by
  obtain ⟨-, e⟩ | ⟨-, e⟩ := needsData_cases n use s <;> rw [e]
  · exact ⟨rfl, rfl⟩
  · exact h

/-- No decode sends or takes a byte. -/
theorem onAckOf_sameStreams (i : Instr) (s : State) : SameStreams s (onAckOf i s) := by
  cases i with
  | getVersion | getChipId | getRdpStatus => exact needsData_sameStreams ⟨rfl, rfl⟩
  | getHelp =>
    simp only [onAckOf, decodeHelp]
    split <;> exact ⟨rfl, rfl⟩
  | _ => exact ⟨rfl, rfl⟩

theorem prefixTaken_sameStreams (s : State) : SameStreams s (prefixTaken s) := by
  unfold prefixTaken; split <;> exact ⟨rfl, rfl⟩

theorem trailerTaken_sameStreams (s : State) : SameStreams s (trailerTaken s) := by
  unfold trailerTaken; split <;> exact ⟨rfl, rfl⟩

/-- The link takes the byte on offer in a `TX_*` state (R44). -/
structure Sends (s t : State) (b : Byte) : Prop where
  sending : s.fsm.sending = true
  offered : s.txOffer = some b
  ready : s.now.txReady = true
  tx : t.tx = s.tx ++ [b]
  rx : t.rx = s.rx

/-- The engine takes the first waiting byte in an `RX_*` state (R45). -/
structure Takes (s t : State) (b : Byte) : Prop where
  receiving : s.fsm.receiving = true
  offered : s.rxOffered = some b
  rx : s.rx = b :: t.rx
  tx : t.tx = s.tx

theorem SameStreams.sends {b : Byte} (h : SameStreams (s.lowerPulse.linkTakes b) t)
    (hf : s.fsm.sending = true) (ho : s.txOffer = some b) (hr : s.now.txReady = true) : Sends s t b :=
  ⟨hf, ho, hr, h.tx, h.rx⟩

theorem SameStreams.takes {b : Byte} {bs : List Byte} (h : SameStreams s.lowerPulse.takeByte t)
    (hf : s.fsm.receiving = true) (hx : s.rx = b :: bs) (ho : s.rxOffered = some b) : Takes s t b := by
  refine ⟨hf, ho, ?_, h.tx⟩
  rw [h.rx, State.takeByte_rx, State.lowerPulse_rx, hx, List.tail_cons]

/-- Every move leaves both streams alone, sends one byte, or takes one. -/
theorem Move.halfDuplex (h : Move i s t) :
    SameStreams s t ∨ (∃ b, Sends s t b) ∨ ∃ b, Takes s t b := by
  have inState : ∀ {f : Fsm} {p : Fsm → Bool}, s.fsm = f → p f = true → p s.fsm = true :=
    fun hf hp => hf ▸ hp
  cases h with
  | lenTaken o hf hl h0 ho hr =>
    exact .inr (.inl ⟨o, (prefixTaken_sameStreams _).sends (inState hf rfl) ho hr⟩)
  | payloadTaken o hf hp hl h0 ho hr =>
    exact .inr (.inl ⟨o, SameStreams.sends ⟨rfl, rfl⟩ (inState hf rfl) ho hr⟩)
  | trailerTaken o hf hl ho hr =>
    exact .inr (.inl ⟨o, (trailerTaken_sameStreams _).sends (inState hf rfl) ho hr⟩)
  | ackRead b bs hf hl hx ho | nackRead b bs hf hl hx ho | lengthRead b bs hf hl hx ho
  | dataRead b bs hf hl hx ho =>
    exact .inr (.inr ⟨b, SameStreams.takes ⟨rfl, rfl⟩ (inState hf rfl) hx ho⟩)
  | decoded =>
    have e := onAckOf_sameStreams i s.lowerPulse
    exact .inl ⟨e.tx, e.rx⟩
  | _ => exact .inl ⟨rfl, rfl⟩

end Sys2Proof.Machine

open Sys2Proof Sys2Proof.Machine

/-- Settles O51, by cases on the moves of a step: `PB` and `RXB` are written within their sizes, and the
host's image is cut at `IMAGE_MAX`. -/
theorem buffersStayCanonical : Obligations.BuffersStayCanonical :=
  fun _ _ h hst => h.of_step hst

/-- Settles O52: the entries of a canonical buffer are its bytes other than `fill`. -/
theorem canonicalBuffersAreEqual : Obligations.CanonicalBuffersAreEqual :=
  fun _ _ => Memory.ext_read

/-- Settles O48, by cases on the moves of `exec`. -/
theorem halfDuplex : Obligations.HalfDuplex := by
  intro i s t h
  obtain e | ⟨b, e⟩ | ⟨b, e⟩ := (exec_move h).halfDuplex
  · exact .inl ⟨e.tx, e.rx⟩
  · exact .inr (.inl ⟨e.sending, e.rx, b, e.offered, e.ready, e.tx⟩)
  · exact .inr (.inr ⟨e.receiving, e.tx, b, e.offered, e.rx⟩)
end

section
/-! The request frame: its fields, its size, and reading it back. -/
namespace Sys2Proof.Machine

/-- The length field of a frame, low byte first (30_encoding.md R70, R75: the addition does not wrap). -/
theorem le16_frameLength {p : List Byte} (h : p.length ≤ Config.payloadMax) :
    le16 (frameLength p) = [BitVec.ofNat 8 (p.length + 4), BitVec.ofNat 8 ((p.length + 4) / 256)] := by
  have hlt : p.length + 4 < 65536 := by simp only [Config.payloadMax] at h; omega
  rw [le16, frameLength, byteOfHalf_ofNat_zero, byteOfHalf_ofNat_one hlt]

/-- A frame begins with the two bytes of its length. -/
theorem encodeFrame_eq_cons (p : List Byte) :
    encodeFrame p = byteOfHalf (frameLength p) 0 :: byteOfHalf (frameLength p) 1 ::
      (p ++ le32 (crc32 (coveredBytes p))) := rfl

@[simp] theorem length_encodeFrame (p : List Byte) : (encodeFrame p).length = p.length + 6 := by
  simp [encodeFrame_eq_cons]

/-- `le32` picks the four bytes of a word from the lowest up. -/
theorem le32_eq_extract (v : Word) :
    le32 v = [v.extractLsb' 0 8, v.extractLsb' 8 8, v.extractLsb' 16 8, v.extractLsb' 24 8] := by
  simp only [le32, byteOfWord_eq_extract, Nat.mul_zero, Nat.mul_one, Nat.reduceMul]

/-- A receiver that goes by the length field finds the payload and the end of the frame (R74). -/
theorem parseFrame_encodeFrame_append {p : List Byte} (rest : List Byte)
    (h : p.length ≤ Config.payloadMax) : parseFrame (encodeFrame p ++ rest) = some (p, rest) := by
  have hpre := half16_frameLength h
  have hcrc : crc32 (byteOfHalf (frameLength p) 0 :: byteOfHalf (frameLength p) 1 :: p) =
      crc32 (coveredBytes p) := rfl
  rw [encodeFrame_eq_cons, List.cons_append, List.cons_append, parseFrame]
  generalize ht : le32 (crc32 (coveredBytes p)) = trailer
  have hlen : trailer.length = 4 := by rw [← ht, length_le32]
  have hframe : (p ++ trailer).length = p.length + 4 := by rw [List.length_append, hlen]
  have hfits : 4 ≤ p.length + 4 ∧ p.length + 4 ≤ ((p ++ trailer) ++ rest).length := by
    rw [List.length_append, hframe]; omega
  have htake : ((p ++ trailer) ++ rest).take (p.length + 4) = p ++ trailer :=
    List.take_left' hframe
  have hdrop : ((p ++ trailer) ++ rest).drop (p.length + 4) = rest :=
    List.drop_left' hframe
  have hpayload : ((p ++ trailer) ++ rest).take p.length = p := by
    rw [List.append_assoc, List.take_left]
  simp only [hpre, if_pos hfits, Nat.add_sub_cancel, htake, hdrop, hpayload, List.drop_left, hcrc, ht,
    if_true]

/-- Decoding a frame is decoding the payload in it. -/
theorem decodeFrame_encodeFrame {p : List Byte} (h : p.length ≤ Config.payloadMax) :
    decodeFrame (encodeFrame p) = decode p := by
  have hparse := parseFrame_encodeFrame_append [] h
  rw [List.append_nil] at hparse
  rw [decodeFrame, hparse]

/-- The first three bytes and the size of a frame whose payload has `n` bytes after its opcode (R86). -/
theorem encodeFrame_firstBytes {op : Byte} {fields : List Byte} {n : Nat} (hn : fields.length = n)
    (hmax : n + 1 ≤ Config.payloadMax) :
    (encodeFrame (op :: fields)).take 3 =
        [BitVec.ofNat 8 (n + 5), BitVec.ofNat 8 ((n + 5) / 256), op] ∧
      (encodeFrame (op :: fields)).length = n + 7 := by
  have hlen : (op :: fields).length = n + 1 := by rw [List.length_cons, hn]
  constructor
  · calc (encodeFrame (op :: fields)).take 3
        = le16 (frameLength (op :: fields)) ++ [op] := rfl
      _ = _ := by rw [le16_frameLength (by rw [hlen]; exact hmax), hlen]; rfl
  · rw [length_encodeFrame, hlen]

end Sys2Proof.Machine
end

section
/-! Payloads read back: decoding undoes encoding, format by format. -/
namespace Sys2Proof.Machine

variable {i : Instr} {chunk : List Byte}

theorem half16_byteOfHalf (v : Half) : half16 (byteOfHalf v 0) (byteOfHalf v 1) = v := by
  apply BitVec.eq_of_toNat_eq
  rw [half16_toNat]
  simp [byteOfHalf, Nat.shiftRight_eq_div_pow]
  omega

/-- A byte sequence is one payload when nothing follows the payload at its front (R72). -/
theorem decode_of_decodeFront {bs : List Byte}
    (h : decodeFront bs = .ok { instr := i, chunk := chunk, rest := [] }) :
    decode bs = .ok (i, chunk) := by
  rw [decode, h]
  rfl

/-- Format `W` (R78): the chunk length, sent in 16 bits, says how many raw bytes follow. -/
theorem decodeFront_encode_memWrite (page : Byte) {imgLen : BitVec 18}
    (hlen : chunk.length = imgLen.toNat) (hmax : imgLen.toNat ≤ Config.chunkMax) :
    decodeFront (encode (.memWrite page imgLen) chunk) =
      .ok { instr := .memWrite page imgLen, chunk := chunk, rest := [] } := by
  have hnum : (imgLen.setWidth 16).toNat = chunk.length := by
    simp only [Config.chunkMax] at hmax
    rw [BitVec.toNat_setWidth, hlen]; omega
  have himg : BitVec.ofNat 18 chunk.length = imgLen := by rw [hlen, BitVec.ofNat_toNat, BitVec.setWidth_eq]
  have hraw : splitRaw chunk.length chunk = some (chunk, []) := by simp [splitRaw_eq]
  simp [encode, le16, decodeFront, decodeFields, half16_byteOfHalf, hnum, hlen ▸ hmax, hraw, himg]

/-- ChangeRdpLevel's byte tells the level (R80, R152). -/
theorem decodeFront_encode_changeRdpLevel (level : BitVec 1) :
    decodeFront (encode (.changeRdpLevel level) []) =
      .ok { instr := .changeRdpLevel level, chunk := [], rest := [] } := by
  obtain rfl | rfl := BitVec.eq_zero_or_eq_one level <;> rfl

/-- A MemWrite payload carries one chunk, as long as the operand says; no other carries raw bytes. -/
theorem carries_cases (h : i.carries chunk = true) :
    (i.isTransfer = false ∧ chunk = []) ∨
    ∃ page imgLen, i = .memWrite page imgLen ∧ chunk.length = imgLen.toNat ∧
      imgLen.toNat ≤ Config.chunkMax := by
  cases i with
  | memWrite page imgLen =>
    simp only [Instr.carries, Bool.and_eq_true, beq_iff_eq, decide_eq_true_eq] at h
    exact .inr ⟨page, imgLen, rfl, h⟩
  | _ => exact .inl ⟨rfl, List.isEmpty_iff.1 h⟩

/-- A payload that is known from the operands is read back, with nothing after it (R76 to R81). -/
theorem decodeFront_encode (ht : i.isTransfer = false) (hwf : i.wf = true) :
    decodeFront (encode i []) = .ok { instr := i, chunk := [], rest := [] } := by
  cases i with
  | getVersion | getHelp | getChipId | getRdpStatus | eraseFlash | jumpToApp => rfl
  | goToAddress addrLen a =>
    obtain rfl : addrLen = 4 := beq_iff_eq.1 hwf
    rfl
  | memRead addrLen a rdLen =>
    obtain rfl : addrLen = 4 := beq_iff_eq.1 hwf
    simp [encode, addrField, le32, decodeFront, decodeFields, addrOfField, word32_le32]
  | changeRdpLevel level => exact decodeFront_encode_changeRdpLevel level
  | memWrite => cases ht

/-- Decoding the payload of a well-formed command gives the command and its raw bytes back. -/
theorem decode_encode (hwf : i.wf = true) (h : i.carries chunk = true) :
    decode (encode i chunk) = .ok (i, chunk) := by
  apply decode_of_decodeFront
  obtain ⟨ht, rfl⟩ | ⟨page, imgLen, rfl, hlen, hmax⟩ := carries_cases h
  · exact decodeFront_encode ht hwf
  · exact decodeFront_encode_memWrite page hlen hmax

/-- No payload is longer than `PAYLOAD_MAX` (00_scope.md R7). -/
theorem length_encode_le_payloadMax (h : i.carries chunk = true) :
    (encode i chunk).length ≤ Config.payloadMax := by
  obtain ⟨ht, rfl⟩ | ⟨page, imgLen, rfl, hlen, hmax⟩ := carries_cases h
  · exact (length_encode_le ht).trans (by decide)
  · simp only [Config.chunkMax] at hmax
    simp only [encode, List.length_cons, List.length_append, length_le16, hlen, Config.payloadMax]
    omega

end Sys2Proof.Machine
end

section
/-! Addresses as numbers, and what a descriptor latches. -/
namespace Sys2Proof.Machine

variable {i : Instr}

theorem byteOfWord_ofNat {n : Nat} (h : n < 2 ^ 32) (j : Nat) :
    byteOfWord (BitVec.ofNat 32 n) j = BitVec.ofNat 8 (n / 2 ^ (8 * j)) := by
  apply BitVec.eq_of_toNat_eq
  rw [byteOfWord, BitVec.toNat_setWidth, BitVec.toNat_ushiftRight, BitVec.toNat_ofNat,
    Nat.mod_eq_of_lt h, Nat.shiftRight_eq_div_pow, BitVec.toNat_ofNat]

/-- `le32` of a number given by its four bytes, most significant first, is those bytes in reverse. -/
theorem le32_ofNat_bytes (b0 b1 b2 b3 : Byte) :
    le32 (BitVec.ofNat 32
      (b0.toNat * 2 ^ 24 + b1.toNat * 2 ^ 16 + b2.toNat * 2 ^ 8 + b3.toNat)) = [b3, b2, b1, b0] := by
  have byte : ∀ {m : Nat} {b : Byte}, m % 256 = b.toNat → BitVec.ofNat 8 m = b :=
    fun h => BitVec.eq_of_toNat_eq h
  have hlt : b0.toNat * 2 ^ 24 + b1.toNat * 2 ^ 16 + b2.toNat * 2 ^ 8 + b3.toNat < 2 ^ 32 := by omega
  simp only [le32, byteOfWord_ofNat hlt, List.cons.injEq, and_true]
  refine ⟨byte ?_, byte ?_, byte ?_, byte ?_⟩ <;> omega

/-- A descriptor's own command latches into it what it holds: for each selector, `latch` writes just the
fields that `instr?` reads (42_command_protocol.md R158). -/
theorem latch_of_instr? {d : Descriptor} (h : d.instr? = some i) : i.latch d = d := by
  have hsel := selector_of_instr? h
  obtain ⟨sel, paramBad, addrLen, addr, addrRest, page, count, rdLen, level, imgLen⟩ := d
  cases i <;> obtain rfl : sel = _ := hsel <;>
    simp_all [Descriptor.instr?, Instr.selector, Instr.latch]

end Sys2Proof.Machine

open Sys2Proof Sys2Proof.Machine

/-- Settles O11: format by format for the payload; its frame is parsed to that payload. -/
theorem decodeOfEncode : Obligations.DecodeOfEncode := by
  intro i chunk hwf hcarries
  have hpayload := decode_encode hwf hcarries
  exact ⟨hpayload, (decodeFrame_encodeFrame (length_encode_le_payloadMax hcarries)).trans hpayload⟩

/-- Settles O8: the length field and the CRC, each written out by its bytes. -/
theorem frameLayout : Obligations.FrameLayout := by
  intro p hp lenBytes c
  have hcovered : coveredBytes p = lenBytes ++ p := by rw [coveredBytes, le16_frameLength hp]
  refine ⟨?_, length_encodeFrame p⟩
  rw [encodeFrame, hcovered, le32_eq_extract]

/-- Settles O9: the length field counts the payload and the trailer. -/
theorem frameTellsItsLength : Obligations.FrameTellsItsLength :=
  fun _ rest hp => parseFrame_encodeFrame_append rest hp

/-- Settles O10: the size of each command's fields gives its frame's length field and size. -/
theorem frameFirstBytes : Obligations.FrameFirstBytes := by
  constructor
  · intro i ht
    cases i with
    | getVersion | getHelp | getChipId | getRdpStatus =>
      exact encodeFrame_firstBytes (n := 0) rfl (by decide)
    | goToAddress => exact encodeFrame_firstBytes (n := 4) rfl (by decide)
    | eraseFlash => exact encodeFrame_firstBytes (n := 2) rfl (by decide)
    | memWrite => cases ht
    | memRead => exact encodeFrame_firstBytes (n := 8) rfl (by decide)
    | jumpToApp | changeRdpLevel => exact encodeFrame_firstBytes (n := 1) rfl (by decide)
  · intro page chunk hmax
    have hn : (page :: (le16 (BitVec.ofNat 16 chunk.length) ++ chunk)).length = chunk.length + 3 := by
      rw [List.length_cons, List.length_append, length_le16]; omega
    exact encodeFrame_firstBytes hn (by simp only [Config.payloadMax]; omega)

/-- Settles O15: the address field is `le32` of the address. -/
theorem addressIsSentReversed : Obligations.AddressIsSentReversed :=
  fun _ a _ => ⟨rfl, rfl, (le32_ofNat_bytes a.b0 a.b1 a.b2 a.b3).symm⟩

/-- Settles O17: the command selected reads its operands from the fields it latches. -/
theorem descriptorSelectsCommand : Obligations.DescriptorSelectsCommand := by
  intro d
  refine ⟨?_, fun i h => ⟨latch_of_instr? h, (selector_of_instr? h).symm⟩⟩
  rw [instr?_eq_none, ← BitVec.toNat_inj]
  rfl

/-- Settles O13: the words are the encodings of these commands. -/
theorem wordsDecode : Obligations.WordsDecode :=
  ⟨decode_encode (i := .getVersion) rfl rfl,
    decode_encode (i := .goToAddress 4 ⟨0x08, 0x00, 0x40, 0x00⟩) rfl rfl,
    decode_encode (i := .eraseFlash 5 3) rfl rfl,
    decode_encode (i := .memWrite 2 4) rfl rfl,
    decode_encode (i := .changeRdpLevel 0) rfl rfl⟩
end

section
/-! The CRC32Engine (40_crc32_engine.md): the registers' bit steps counted by `bitcnt`, the unbounded
accumulator of R106, the expanded sequence of R111, and the linearity of R112. -/

namespace Sys2Proof.Machine

variable {p : CrcParams}

/-! ### The registers: inject and bit steps (R102 to R104) -/

/-- Bit `j` of the accumulator after an inject: the byte lies at bits 31:24 (R102). -/
theorem getLsbD_crcInject (acc : Word) (b : Byte) (j : Nat) :
    (crcInject crcParams acc b).getLsbD j =
      if 24 ≤ j ∧ j < 32 then acc.getLsbD j ^^ b.getLsbD (j - 24) else acc.getLsbD j := by
  rw [crcInject, BitVec.getLsbD_xor, BitVec.getLsbD_shiftLeft, BitVec.getLsbD_setWidth,
    show crcParams.injectShift = 24 from rfl]
  by_cases hin : 24 ≤ j ∧ j < 32
  · have hsub : j - 24 < 32 := by omega
    simp [hin, hsub, Nat.not_lt.2 hin.1]
  · have hout : j < 24 ∨ ¬ j < 32 := by omega
    rw [if_neg hin]
    rcases hout with hlow | hhigh
    · simp [hlow]
    · simp [hhigh]

/-- `n` bit steps touch `acc` and `bitcnt` only, and `bitcnt` counts each (R103). -/
theorem iterate_crcBitStep (n : Nat) (s : State) :
    State.crcBitStep^[n] s =
      { s with acc := crcShifts crcParams n s.acc, bitcnt := s.bitcnt - BitVec.ofNat 6 n } := by
  induction n generalizing s with
  | zero => simp [crcShifts]
  | succ n ih =>
    have hcount : s.bitcnt - 1 - BitVec.ofNat 6 n = s.bitcnt - BitVec.ofNat 6 (n + 1) := by
      rw [BitVec.sub_sub, BitVec.ofNat_add, BitVec.add_comm]
      rfl
    rw [Function.iterate_succ_apply, ih]
    simp only [State.crcBitStep, hcount, crcShifts]

/-- After an inject, `bitcnt` holds what is left of the 32 steps (R104). -/
theorem iterate_crcBitStep_crcInject {n : Nat} (hn : n ≤ 32) (b : Byte) (s : State) :
    State.crcBitStep^[n] (s.crcInject b) =
      { s with acc := crcShifts crcParams n (crcInject crcParams s.acc b),
               bitcnt := BitVec.ofNat 6 (32 - n) } := by
  have hcount : BitVec.ofNat 6 32 - BitVec.ofNat 6 n = BitVec.ofNat 6 (32 - n) :=
    BitVec.ofNat_sub_ofNat_of_le 32 n (by omega) hn
  rw [iterate_crcBitStep, ← hcount]
  rfl

/-! ### The unbounded accumulator: its low word is the 32-bit register (R106) -/

theorem ofNat_shiftLeft (a n : Nat) : BitVec.ofNat 32 (a <<< n) = BitVec.ofNat 32 a <<< n := by
  apply BitVec.eq_of_toNat_eq
  simp [Nat.shiftLeft_eq]

theorem ofNat_crcShiftNat (a : Nat) :
    BitVec.ofNat 32 (crcShiftNat p a) = crcShift p (BitVec.ofNat 32 a) := by
  have htop : (BitVec.ofNat 32 a).getLsbD 31 = a.testBit 31 := BitVec.getLsbD_ofNat 32 a 31
  rw [crcShiftNat, crcShift, htop]
  split
  · rw [BitVec.ofNat_xor, ofNat_shiftLeft, BitVec.ofNat_toNat, BitVec.setWidth_eq]
  · exact ofNat_shiftLeft a 1

theorem ofNat_crcShiftsNat (n a : Nat) :
    BitVec.ofNat 32 (crcShiftsNat p n a) = crcShifts p n (BitVec.ofNat 32 a) := by
  induction n generalizing a with
  | zero => rfl
  | succ n ih => rw [crcShiftsNat, crcShifts, ih, ofNat_crcShiftNat]

theorem ofNat_crcAbsorbNat (a : Nat) (b : Byte) :
    BitVec.ofNat 32 (crcAbsorbNat p a b) = crcAbsorb p (BitVec.ofNat 32 a) b := by
  rw [crcAbsorbNat, crcAbsorb, crcInject, ofNat_crcShiftsNat, BitVec.ofNat_xor, ofNat_shiftLeft,
    BitVec.ofNat_toNat]

theorem ofNat_foldl_crcAbsorbNat (a : Nat) (bs : List Byte) :
    BitVec.ofNat 32 (bs.foldl (crcAbsorbNat p) a) = crcAbsorbAll p (BitVec.ofNat 32 a) bs :=
  (List.foldl_hom (BitVec.ofNat 32) fun a b => (ofNat_crcAbsorbNat a b).symm).symm

/-! ### Fewer steps per byte over the expanded sequence (R111) -/

/-- Bit steps do not read the number of steps per byte. -/
theorem crcShifts_stepsPerByte (m n : Nat) (a : Word) :
    crcShifts { p with stepsPerByte := m } n a = crcShifts p n a := by
  induction n generalizing a with
  | zero => rfl
  | succ n ih => exact ih (crcShift p a)

/-- A byte followed by three zero bytes is absorbed in four rounds of `n` steps, as the byte alone is
in `n + n + n + n`: a zero byte's inject changes nothing. -/
theorem crcAbsorbAll_expandedByte (n : Nat) (a : Word) (b : Byte) :
    crcAbsorbAll { p with stepsPerByte := n } a [b, 0, 0, 0] =
      crcAbsorb { p with stepsPerByte := n + n + n + n } a b := by
  simp only [crcAbsorbAll_cons, crcAbsorbAll_nil, crcAbsorb, crcInject_zero, crcShifts_stepsPerByte,
    crcShifts_add]
  rfl

theorem crcAbsorbAll_crcExpand (n : Nat) (a : Word) (bs : List Byte) :
    crcAbsorbAll { p with stepsPerByte := n } a (crcExpand bs) =
      crcAbsorbAll { p with stepsPerByte := n + n + n + n } a bs := by
  induction bs generalizing a with
  | nil => rfl
  | cons b bs ih =>
    rw [show crcExpand (b :: bs) = [b, 0, 0, 0] ++ crcExpand bs from rfl, crcAbsorbAll_append,
      crcAbsorbAll_expandedByte, ih, crcAbsorbAll_cons]

/-! ### Linearity over GF(2) (R112) -/

theorem crcInject_xor (a a' : Word) (b b' : Byte) :
    crcInject p (a ^^^ a') (b ^^^ b') = crcInject p a b ^^^ crcInject p a' b' := by
  simp only [crcInject, BitVec.setWidth_xor, BitVec.shiftLeft_xor_distrib]
  ac_rfl

theorem crcAbsorb_xor (a a' : Word) (b b' : Byte) :
    crcAbsorb p (a ^^^ a') (b ^^^ b') = crcAbsorb p a b ^^^ crcAbsorb p a' b' := by
  simp only [crcAbsorb, crcInject_xor, crcShifts_xor]

theorem crcAbsorbAll_xor (a a' : Word) {xs ys : List Byte} (hlen : xs.length = ys.length) :
    crcAbsorbAll p (a ^^^ a') (List.zipWith (· ^^^ ·) xs ys) =
      crcAbsorbAll p a xs ^^^ crcAbsorbAll p a' ys := by
  induction xs generalizing a a' ys with
  | nil => obtain rfl := List.length_eq_zero_iff.1 hlen.symm; rfl
  | cons x xs ih =>
    obtain ⟨y, ys, rfl⟩ := List.exists_cons_of_length_eq_add_one hlen.symm
    have htail : xs.length = ys.length := Nat.succ.inj hlen
    simp only [List.zipWith_cons_cons, crcAbsorbAll_cons, crcAbsorb_xor, ih _ _ htail]

/-- The seeds cancel: the XOR of two CRCs absorbs the XOR of the inputs from 0. -/
theorem crcOf_xor_crcOf {xs ys : List Byte} (hlen : xs.length = ys.length) :
    crcOf p xs ^^^ crcOf p ys = crcAbsorbAll p 0 (List.zipWith (· ^^^ ·) xs ys) := by
  rw [crcOf, crcOf, ← crcAbsorbAll_xor _ _ hlen, BitVec.xor_self]
  rfl

theorem zipWith_xor_replicate_zero (xs : List Byte) :
    List.zipWith (· ^^^ ·) xs (List.replicate xs.length 0) = xs := by
  induction xs with
  | nil => rfl
  | cons x xs ih => rw [List.length_cons, List.replicate_succ, List.zipWith_cons_cons, ih]; simp

/-- Against the CRC of all zeros only the seed drops out. -/
theorem crcOf_xor_crcOf_replicate_zero (xs : List Byte) :
    crcOf p xs ^^^ crcOf p (List.replicate xs.length 0) = crcAbsorbAll p 0 xs := by
  rw [crcOf_xor_crcOf List.length_replicate.symm, zipWith_xor_replicate_zero]

end Sys2Proof.Machine

open Sys2Proof Sys2Proof.Machine

/-- Settles O2: the bit steps are counted from the 32 that the inject puts into `bitcnt`. -/
theorem crcAbsorbIsInjectAnd32Steps : Obligations.CrcAbsorbIsInjectAnd32Steps :=
  fun s b => ⟨fun _ hn => iterate_crcBitStep_crcInject hn b s, iterate_crcBitStep_crcInject le_rfl b s⟩

/-- Settles O3: taking the low word commutes with every absorbed byte. -/
theorem crcMaskAtTheEnd : Obligations.CrcMaskAtTheEnd := by
  intro bs
  have hlow := ofNat_foldl_crcAbsorbNat (p := crcParams) crcParams.seed.toNat bs
  rw [BitVec.ofNat_toNat, BitVec.setWidth_eq] at hlow
  exact (BitVec.toNat_ofNat _ 32).symm.trans (congrArg BitVec.toNat hlow)

/-- Settles O4: 32 is four rounds of 8 steps. -/
theorem crcIsEightStepsOverExpanded : Obligations.CrcIsEightStepsOverExpanded :=
  fun bs => (crcAbsorbAll_crcExpand (p := crcParams) 8 crcParams.seed bs).symm

/-- Settles O5: both sides absorb `S XOR T` from 0. -/
theorem crcDifferenceIsLinear : Obligations.CrcDifferenceIsLinear := by
  intro xs ys hlen
  have hzip : (List.zipWith (· ^^^ ·) xs ys).length = xs.length := by simp [hlen]
  rw [← hzip]
  exact (crcOf_xor_crcOf hlen).trans (crcOf_xor_crcOf_replicate_zero _).symm

/-- Settles O1: the operations as R101 to R103 give them, with the constants of R6, and the inject bit by
bit. -/
theorem crcUnitOperations : Obligations.CrcUnitOperations :=
  ⟨fun _ => rfl, fun _ _ => rfl, fun b s j => getLsbD_crcInject s.acc b j, fun _ => rfl⟩

/-- Settles O6: the empty input leaves the seed; the one-byte vectors are evaluated. -/
theorem crcRegressionVectors : Obligations.CrcRegressionVectors :=
  ⟨rfl, by decide +kernel, by decide +kernel⟩
end

section
/-! The response: what `decode_response()` takes for each status byte (41_frame_codec.md R126, R127), and
reading it back (R130). -/

namespace Sys2Proof.Machine

/-- A refusal is its status byte alone. -/
theorem decodeResponse_of_ne_ackByte {b : Byte} (h : b ≠ ackByte) (rest : List Byte) :
    decodeResponse (b :: rest) = some ({ ack := false, stByte := b, data := [] }, rest) :=
  if_neg h

/-- An acknowledgement takes the data its length byte counts, once they have all come. -/
theorem decodeResponse_ackByte_of_le {n : Byte} {more : List Byte} (h : n.toNat ≤ more.length) :
    decodeResponse (ackByte :: n :: more) =
      some ({ ack := true, stByte := ackByte, data := more.take n.toNat }, more.drop n.toNat) := by
  rw [decodeResponse, if_pos rfl]
  exact if_pos h

theorem decodeResponse_ackByte_append {n : Byte} {data : List Byte} (hn : n.toNat = data.length)
    (rest : List Byte) :
    decodeResponse (ackByte :: n :: (data ++ rest)) =
      some ({ ack := true, stByte := ackByte, data := data }, rest) := by
  have hcame : n.toNat ≤ (data ++ rest).length := by rw [List.length_append]; omega
  rw [decodeResponse_ackByte_of_le hcame, List.take_left' hn.symm, List.drop_left' hn.symm]

end Sys2Proof.Machine

open Sys2Proof Sys2Proof.Machine

/-- Settles O16: a length of at most 255 stands whole in the length byte, which so counts the data. -/
theorem responseRoundTrip : Obligations.ResponseRoundTrip := by
  refine ⟨fun data rest hlen => ?_, fun _ rest hb => decodeResponse_of_ne_ackByte hb rest⟩
  have hn : (BitVec.ofNat 8 data.length).toNat = data.length :=
    Nat.mod_eq_of_lt (Nat.lt_succ_of_le hlen)
  exact decodeResponse_ackByte_append hn rest
end

section
/-! What is common to the commands that are one exchange: the payload built in `MARSHAL`, and the endings
of `DECODE` (43_protocol_sequencer.md R182, R189). -/
namespace Sys2Proof.Machine

variable {i : Instr} {s : State}

theorem loadPayload_lowerPulse (payload : List Byte) (s : State) :
    loadPayload payload s.lowerPulse = marshalled payload s := rfl

theorem finish_lowerPulse (s : State) : s.lowerPulse.finish = succeeded s := rfl

/-- Taking a failure after the accept leaves the state the claims call `failed` (60_exceptions.md R226). -/
theorem raise_lowerPulse (st : Status) (s : State) :
    State.raise st .none s.lowerPulse = failed st s := by
  cases st <;> rfl

/-- A command that is one exchange sends the encoding of its operands (42_command_protocol.md R140). -/
theorem sendsPayload_encode (ht : i.isTransfer = false) : SendsPayload i (encode i []) := by
  intro s hf
  rw [exec_marshal hf, commandOf_oneExchange ht]
  exact congrArg _ (loadPayload_lowerPulse _ s)

theorem exec_decode_oneExchange (ht : i.isTransfer = false) (hf : s.fsm = .decode) :
    exec i s = .next (if s.ack then onAckOf i s.lowerPulse else State.raise .nack .none s.lowerPulse) := by
  rw [exec_decode hf, commandOf_oneExchange ht]
  rfl

theorem exec_decode_acked (ht : i.isTransfer = false) (hf : s.fsm = .decode) (ha : s.ack = true) :
    exec i s = .next (onAckOf i s.lowerPulse) := by
  rw [exec_decode_oneExchange ht hf, if_pos ha]

theorem nackOnRefusal_of_oneExchange (ht : i.isTransfer = false) : NackOnRefusal i := by
  intro s hf ha
  rw [exec_decode_oneExchange ht hf, ha, if_neg Bool.false_ne_true, raise_lowerPulse]

/-- A command with "none beyond ack" ends with `OK` on every acknowledgement (R156). -/
theorem okOnAck_of_noDecode (ht : i.isTransfer = false) (hd : onAckOf i = noDecode) : OkOnAck i := by
  intro s hf ha
  rw [exec_decode_acked ht hf ha, hd]
  exact congrArg _ (finish_lowerPulse s)

/-! ### Decodes that use `n` data bytes -/

theorem shortBelow_of_needsData {n : Nat} {use : State → State} (ht : i.isTransfer = false)
    (hd : onAckOf i = needsData n use) : ShortBelow n i := by
  intro s hf ha hlen
  have hshort : s.lowerPulse.dataLen.toNat < n := hlen
  rw [exec_decode_acked ht hf ha, hd, needsData, if_pos hshort, raise_lowerPulse]

theorem exec_decode_enough {n : Nat} {use : State → State} (ht : i.isTransfer = false)
    (hd : onAckOf i = needsData n use) (hf : s.fsm = .decode) (ha : s.ack = true)
    (hlen : n ≤ s.dataLen.toNat) : exec i s = .next (use s.lowerPulse).finish := by
  have henough : ¬ s.lowerPulse.dataLen.toNat < n := Nat.not_lt.2 hlen
  rw [exec_decode_acked ht hf ha, hd, needsData, if_neg henough]

/-- `byte0 | (byte1 << 8)` as the 16-bit number `byte0 + 256 * byte1`. -/
theorem half16_eq_ofNat (lo hi : Byte) : half16 lo hi = BitVec.ofNat 16 (lo.toNat + 256 * hi.toNat) := by
  rw [← half16_toNat, BitVec.ofNat_toNat, BitVec.setWidth_eq]

end Sys2Proof.Machine
end

section
/-! Local validation and its rejections (42_command_protocol.md R142). -/
namespace Sys2Proof.Machine

variable {i : Instr} {s : State} {c : Subcause}

/-- The two commands with an address are rejected when it has not four bytes, once the tests before this
one have passed. -/
theorem validate_of_addrLen {d : Descriptor} (hsel : d.sel = 5 ∨ d.sel = 8) (hp : d.paramBad = false)
    (hlen : d.addrLen ≠ 4) : validate d = some .badAddrLen := by
  have hs : ¬ (d.sel = 0 ∨ 10 < d.sel.toNat) := by
    obtain h | h := hsel <;> rw [h] <;> decide
  rw [validate, if_neg hs, hp, if_neg Bool.false_ne_true, if_pos ⟨hsel, hlen⟩]

theorem accept_of_validate {latch : Descriptor → Descriptor} {setUp : State → Result}
    (hv : validate (latch s.portDescriptor) = some c) :
    accept latch setUp s =
      .next (State.raise .localValidation c (acceptDescriptor (latch s.portDescriptor) s)) := by
  obtain ⟨c', hv', e⟩ | ⟨hv', -⟩ := accept_cases latch setUp s <;> rw [hv] at hv' <;> cases hv'
  exact e

theorem exec_idle_of_validate (hf : s.fsm = .idle) (hv : validate (i.latch s.portDescriptor) = some c) :
    exec i s = .next (State.raise .localValidation c
      (acceptDescriptor (i.latch s.portDescriptor) s.lowerPulse)) := by
  rw [exec_idle hf]
  exact accept_of_validate hv

/-- A command's rejection of a wrong address length, from what its descriptor latches. -/
theorem rejectsAddrLen_of_latch
    (hsel : i.selector = 5 ∨ i.selector = 8) (hp : ∀ d, (i.latch d).paramBad = d.paramBad)
    (hlen : ∀ d, (i.latch d).addrLen ≠ 4) : RejectsAddrLen i := fun s hf hb =>
  exec_idle_of_validate hf
    (validate_of_addrLen (by rwa [sel_latch]) ((hp s.portDescriptor).trans hb) (hlen s.portDescriptor))

/-- What a rejection leaves of `s` when the descriptor `d` selects MemWrite exactly when `p` holds: the
accept's registers with the sub-cause, nothing sent or taken (43_protocol_sequencer.md R181). -/
theorem raise_acceptDescriptor {d : Descriptor} {p : Prop} [Decidable p] (h7 : d.sel = 7 ↔ p)
    (c : Subcause) (s : State) :
    State.raise .localValidation c (acceptDescriptor d s.lowerPulse) = { s with
      desc := d, busy := true, resValid := false,
      status := .localValidation, subcause := c, ack := false, stByte := 0x00, dataLen := 0,
      xferAttempts := if p then 0 else s.xferAttempts,
      xferFailures := if p then 0 else s.xferFailures,
      xferFailMap := if p then 0 else s.xferFailMap,
      host := s.host.tail, txOffer := none, chunkEvt := none, fsm := .done } := by
  simp only [← h7]
  rfl

/-- A descriptor that selects no command fails the first test. -/
theorem validate_of_instr?_none {d : Descriptor} (h : d.instr? = none) :
    validate d = some .badSelector := if_pos (instr?_eq_none.1 h)

/-- The port's descriptor selects no command: it is rejected like any other that fails (30_encoding.md R87). -/
theorem runPort_of_instr?_none (h : s.portDescriptor.instr? = none) :
    runPort s = .next (State.raise .localValidation .badSelector
      (acceptDescriptor s.portDescriptor s.lowerPulse)) := by
  rw [runPort, h]
  exact accept_of_validate (latch := id) (validate_of_instr?_none h)

end Sys2Proof.Machine

open Sys2Proof Sys2Proof.Machine

/-- Settles O18: a failing test raises `LOCAL_VALIDATION` on the accepted descriptor. -/
theorem localValidation : Obligations.LocalValidation := by
  refine ⟨fun d => ?_, fun i s c hf hv => ?_, fun s hi => ?_⟩
  · simp only [validate, ← BitVec.toNat_inj, ne_eq]
    rfl
  · have h7 : (i.latch s.portDescriptor).sel = 7 ↔ i.isTransfer = true := by
      rw [sel_latch, selector_eq_seven]
    rw [exec_idle_of_validate hf hv, raise_acceptDescriptor h7]
  · have h7 : s.portDescriptor.sel = 7 ↔ False := by
      refine iff_false_intro fun h => ?_
      rw [Descriptor.instr?, h] at hi
      cases hi
    rw [runPort_of_instr?_none hi, raise_acceptDescriptor h7]
    rfl
end

section
/-! The ten commands, one by one (42_command_protocol.md R143 to R152). -/
namespace Sys2Proof.Machine

variable {s : State}

/-! ### GetHelp (R144) -/

theorem decodeHelp_overflow (h : 10 < s.dataLen.toNat) :
    decodeHelp s = State.raise .helpOverflow .none s := if_pos h

theorem decodeHelp_fits (h : s.dataLen.toNat ≤ 10) :
    decodeHelp s = State.finish { s with helpCount := s.dataLen.setWidth 4 } :=
  if_neg (Nat.not_lt.2 h)

theorem typedReady_of_status_ne_ok (h : s.status ≠ .ok) (sel : BitVec 4) :
    s.typedReady sel = false := by
  simp [State.typedReady, h]

/-! ### MemRead (R150) -/

theorem natOfBe_reverse (bs : List Byte) : natOfBe bs.reverse = natOfLe bs := by
  induction bs with
  | nil => rfl
  | cons b bs ih =>
    calc natOfBe (b :: bs).reverse
        = 256 * natOfBe bs.reverse + b.toNat := by simp [natOfBe]
      _ = natOfLe (b :: bs) := by rw [ih, natOfLe]; omega

theorem getElem?_readDataView {j : Nat} (h : j < s.dataLen.toNat) :
    (readDataView s)[j]? = some (s.rxb.read (s.dataLen.toNat - 1 - j)) := by
  have hlen := Memory.length_readList s.rxb 0 s.dataLen.toNat
  rw [readDataView, List.getElem?_reverse (by rwa [hlen]), hlen,
    List.getElem?_eq_getElem (by rw [hlen]; omega), Memory.getElem_readList, Nat.zero_add]

/-! ### MemWrite (R149) -/

/-- The chunk's payload with its length field written out, low byte first. -/
theorem chunkPayload_eq_cons {n : Nat} (page : Byte) {chunk : List Byte} (hlen : chunk.length = n)
    (hn : n < 65536) :
    chunkPayload page chunk = 0x16 :: page :: BitVec.ofNat 8 n :: BitVec.ofNat 8 (n / 256) :: chunk := by
  rw [chunkPayload, hlen, le16, byteOfHalf_ofNat_zero, byteOfHalf_ofNat_one hn]
  rfl

/-- `MARSHAL` of MemWrite with chunk `k` in the image: its payload is built and its length kept. -/
theorem exec_marshal_memWrite (page : Byte) {imgLen : BitVec 18} (hf : s.fsm = .marshal)
    (hmax : imgLen.toNat ≤ Config.imageMax) (hk : 1024 * s.k.toNat < imgLen.toNat) :
    exec (.memWrite page imgLen) s = .next (marshalled
      (chunkPayload s.curPage (chunkBytes s.img imgLen.toNat s.k.toNat))
      { s with clen := BitVec.ofNat 11 (chunkLength imgLen.toNat s.k.toNat) }) := by
  have hin : s.k.toNat < chunkCount imgLen.toNat := by unfold chunkCount; omega
  rw [exec_marshal hf]
  exact if_pos ((chunk_bounds hin).1.trans hmax)

end Sys2Proof.Machine

open Sys2Proof Sys2Proof.Machine

/-- Settles O31: GetVersion's decode uses four data bytes. -/
theorem getVersionRule : Obligations.GetVersionRule :=
  ⟨sendsPayload_encode rfl, nackOnRefusal_of_oneExchange rfl, shortBelow_of_needsData rfl rfl,
    fun _ hf ha hlen => exec_decode_enough (i := .getVersion) (use := takeVersion) rfl rfl hf ha hlen⟩

/-- Settles O32: GetHelp's decode splits at ten entries; the ports answer by the status. -/
theorem getHelpRule : Obligations.GetHelpRule := by
  refine ⟨sendsPayload_encode rfl, nackOnRefusal_of_oneExchange rfl, fun s hf ha hlen => ?_,
    fun s hf ha hlen => ⟨s.dataLen.setWidth 4, ?_, ?_⟩, fun s j hv hst hsel => ?_, fun s j hst => ?_⟩
  · rw [exec_decode_acked rfl hf ha, ← raise_lowerPulse]
    exact congrArg _ (decodeHelp_overflow (s := s.lowerPulse) hlen)
  · rw [BitVec.toNat_setWidth]
    omega
  · rw [exec_decode_acked rfl hf ha]
    exact congrArg _ (decodeHelp_fits (s := s.lowerPulse) hlen)
  · simp [State.helpEntry, State.typedReady, hv, hst, hsel]
  · have hready : s.typedReady 2 = false := typedReady_of_status_ne_ok (by simp [hst]) 2
    rw [State.helpCountOut, State.helpEntry, hready]
    exact ⟨rfl, rfl⟩

/-- Settles O33: GetChipId's decode uses two data bytes. -/
theorem getChipIdRule : Obligations.GetChipIdRule := by
  refine ⟨sendsPayload_encode rfl, nackOnRefusal_of_oneExchange rfl, shortBelow_of_needsData rfl rfl,
    fun s hf ha hlen => ?_⟩
  rw [← half16_eq_ofNat]
  exact exec_decode_enough (i := .getChipId) (use := takeChipId) rfl rfl hf ha hlen

/-- Settles O34: GetRdpStatus's decode uses one data byte. -/
theorem getRdpStatusRule : Obligations.GetRdpStatusRule :=
  ⟨sendsPayload_encode rfl, nackOnRefusal_of_oneExchange rfl, shortBelow_of_needsData rfl rfl,
    fun _ hf ha hlen => exec_decode_enough (i := .getRdpStatus) (use := takeRdpStatus) rfl rfl hf ha hlen⟩

/-- Settles O35: GoToAddress decodes nothing, and its descriptor latches the address length. -/
theorem goToAddressRule : Obligations.GoToAddressRule := fun _ _ =>
  ⟨sendsPayload_encode rfl, nackOnRefusal_of_oneExchange rfl, okOnAck_of_noDecode rfl rfl,
    fun hne => rejectsAddrLen_of_latch (.inl rfl) (fun _ => rfl) (fun _ => hne)⟩

/-- Settles O36: EraseFlash decodes nothing. -/
theorem eraseFlashRule : Obligations.EraseFlashRule := fun _ _ =>
  ⟨sendsPayload_encode rfl, nackOnRefusal_of_oneExchange rfl, okOnAck_of_noDecode rfl rfl⟩

/-- Settles O37: MemRead decodes nothing, and its result reads the received bytes backwards. -/
theorem memReadRule : Obligations.MemReadRule := by
  intro addrLen a n
  have hpayload : encode (.memRead addrLen a n) [] = [0x17, a.b3, a.b2, a.b1, a.b0,
      n.extractLsb' 0 8, n.extractLsb' 8 8, n.extractLsb' 16 8, n.extractLsb' 24 8] := by
    rw [encode, le32_eq_extract]
    rfl
  refine ⟨?_, nackOnRefusal_of_oneExchange rfl, okOnAck_of_noDecode rfl rfl,
    fun hne => rejectsAddrLen_of_latch (.inr rfl) (fun _ => rfl) (fun _ => hne),
    fun _ _ hj => getElem?_readDataView hj, fun _ => natOfBe_reverse _⟩
  rw [← hpayload]
  exact sendsPayload_encode rfl

/-- Settles O38: JumpToApp decodes nothing. -/
theorem jumpToAppRule : Obligations.JumpToAppRule := fun _ =>
  ⟨sendsPayload_encode rfl, nackOnRefusal_of_oneExchange rfl, okOnAck_of_noDecode rfl rfl⟩

/-- Settles O39: ChangeRdpLevel decodes nothing. -/
theorem changeRdpLevelRule : Obligations.ChangeRdpLevelRule :=
  ⟨sendsPayload_encode rfl, sendsPayload_encode rfl,
    fun _ => ⟨nackOnRefusal_of_oneExchange rfl, okOnAck_of_noDecode rfl rfl⟩⟩

/-- Settles O40: a chunk in the image lies within `IMG`; its length is at most 1024. -/
theorem memWriteChunkRule : Obligations.MemWriteChunkRule := by
  intro page imgLen s
  refine ⟨fun hf hmax hk => ?_, fun hf => exec_decode hf⟩
  intro n
  have hn : n < 65536 := (chunkLength_le imgLen.toNat s.k.toNat).trans_lt (by decide)
  rw [exec_marshal_memWrite page hf hmax hk,
    chunkPayload_eq_cons s.curPage (length_chunkBytes s.img imgLen.toNat s.k.toNat) hn]
  rfl
end

section
/-! What the decode of an acknowledged response may write: the status and the typed results, and no other
register (42_command_protocol.md R143 to R156). -/
namespace Sys2Proof.Machine

/-- `s` with the registers that a decode may write taken from `t`. -/
def State.withDecoded (s t : State) : State :=
  { s with fsm := t.fsm, status := t.status, subcause := t.subcause, txOffer := t.txOffer,
           verVendor := t.verVendor, verMajor := t.verMajor, verMinor := t.verMinor,
           verPatch := t.verPatch, helpCount := t.helpCount, chipId := t.chipId, rdpRep := t.rdpRep }

variable {i : Instr} {s : State}

theorem needsData_frame {n : Nat} {use : State → State}
    (h : (use s).finish = s.withDecoded (use s).finish) :
    needsData n use s = s.withDecoded (needsData n use s) := by
  obtain ⟨-, e⟩ | ⟨-, e⟩ := needsData_cases n use s <;> rw [e]
  · rfl
  · exact h

theorem onAckOf_frame (i : Instr) (s : State) : onAckOf i s = s.withDecoded (onAckOf i s) := by
  cases i with
  | getVersion | getChipId | getRdpStatus => exact needsData_frame rfl
  | getHelp =>
    simp only [onAckOf, decodeHelp]
    split <;> rfl
  | _ => rfl

end Sys2Proof.Machine
end

section
/-! A transfer while it runs (44_transfer_session.md R212): what its registers hold, and that every step
keeps it. -/
namespace Sys2Proof.Machine

/-- What the registers of a running transfer hold, for the descriptor `d` that was latched. -/
structure TransferUnderway (d : Descriptor) (r : TransferRegs) : Prop where
  chunks : r.nchunks.toNat = chunkCount d.imgLen.toNat ∧ r.k.toNat < r.nchunks.toNat
  page : r.curPage = d.page + r.k
  attempts : r.attempts = r.k
  failures : r.failures.toNat = failBits r.failMap
  failBelow : ∀ j, r.failMap.getLsbD j = true → j < r.k.toNat

variable {i : Instr} {s t : State}

theorem transferOk_iff : TransferOk s ↔
    (s.fsm.running = true → s.desc.sel = 7 → TransferUnderway s.desc s.transferRegs) :=
  ⟨fun h hr h7 => ⟨h.chunks hr h7, h.page hr h7, h.attempts hr h7, h.failures hr h7, h.failBelow hr h7⟩,
    fun h => ⟨fun hr h7 => (h hr h7).chunks, fun hr h7 => (h hr h7).page,
      fun hr h7 => (h hr h7).attempts, fun hr h7 => (h hr h7).failures,
      fun hr h7 => (h hr h7).failBelow⟩⟩

theorem transferOk_of_notRunning (hr : t.fsm.running = false) : TransferOk t :=
  transferOk_iff.2 fun h => absurd h (by simp [hr])

theorem transferOk_of_sel (h7 : t.desc.sel ≠ 7) : TransferOk t :=
  transferOk_iff.2 fun _ h => absurd h h7

/-- What happens to other registers than the transfer's leaves a running transfer as it is. -/
theorem TransferOk.keeps (h : TransferOk s) (hr : s.fsm.running = true) (hd : t.desc = s.desc)
    (hx : t.transferRegs = s.transferRegs) : TransferOk t := by
  rw [transferOk_iff, hd, hx]
  exact fun _ => transferOk_iff.1 h hr

theorem failBits_le (m : BitVec 128) : failBits m ≤ 128 :=
  (List.length_filter_le _ _).trans_eq List.length_range

@[simp] theorem failBits_zero : failBits 0#128 = 0 := by simp [failBits]

/-- The set-up of a transfer that has a chunk (R200). -/
theorem transferUnderway_start {d : Descriptor} (hn : chunkCount d.imgLen.toNat ≤ 128)
    (h0 : chunkCount d.imgLen.toNat ≠ 0) :
    TransferUnderway d { curPage := d.page, k := 0, nchunks := BitVec.ofNat 8 (chunkCount d.imgLen.toNat),
                         attempts := 0, failures := 0, failMap := 0 } := by
  have hcount : (BitVec.ofNat 8 (chunkCount d.imgLen.toNat)).toNat = chunkCount d.imgLen.toNat :=
    Nat.mod_eq_of_lt (by omega)
  exact ⟨⟨hcount, (Nat.pos_of_ne_zero h0).trans_eq hcount.symm⟩, by simp, rfl, by simp, by simp⟩

/-- Recording a chunk that is not the last one leaves a transfer that runs on with the next one (R203). -/
theorem TransferUnderway.recordChunk (h : TransferUnderway s.desc s.transferRegs)
    (hn : s.nchunks.toNat ≤ 128) (hmore : s.k.toNat + 1 < s.nchunks.toNat) :
    TransferUnderway s.desc (recordChunk s).transferRegs := by
  obtain ⟨⟨hcount, -⟩, hpage, hattempts, hfailures, hbelow⟩ := h
  have hk : (s.k + 1).toNat = s.k.toNat + 1 := by bv_omega
  have hlater : ∀ j, s.xferFailMap.getLsbD j = true → j < (s.k + 1).toNat := by
    intro j hj
    have : j < s.k.toNat := hbelow j hj
    omega
  refine ⟨⟨hcount, hk ▸ hmore⟩, ?_, congrArg (· + 1) hattempts, ?_, ?_⟩
  · show s.curPage + 1 = s.desc.page + (s.k + 1)
    rw [show s.curPage = s.desc.page + s.k from hpage, BitVec.add_assoc]
  all_goals
    simp only [State.transferRegs, Machine.recordChunk]
    cases s.ack
  · have hunset : s.xferFailMap.getLsbD s.k.toNat = false :=
      Bool.eq_false_iff.2 fun hset => Nat.lt_irrefl _ (hbelow _ hset)
    have hbits : s.xferFailures.toNat = failBits s.xferFailMap := hfailures
    have hle := failBits_le s.xferFailMap
    rw [if_neg Bool.false_ne_true, if_neg Bool.false_ne_true,
      failBits_setFailBit _ (by omega) hunset]
    bv_omega
  · exact hfailures
  · intro j hj
    rw [if_neg Bool.false_ne_true, getLsbD_setFailBit _ (by omega), Bool.or_eq_true] at hj
    obtain hj | hj := hj
    · exact hlater j hj
    · rw [eq_of_beq hj, hk]
      exact Nat.lt_succ_self _
  · exact hlater

/-- Another chunk follows when one is left and the fail-stop policy does not end the transfer (R190, R207). -/
theorem moreChunks_iff (hk : s.k.toNat < s.nchunks.toNat) : moreChunks s = true ↔
    s.k.toNat + 1 < s.nchunks.toNat ∧ (s.params.xferFailStop = true → s.ack = true) := by
  have hlt : (recordChunk s).k < s.nchunks ↔ s.k.toNat + 1 < s.nchunks.toNat := by
    show s.k + 1 < s.nchunks ↔ _
    bv_omega
  rw [moreChunks, Bool.and_eq_true_iff, decide_eq_true_iff, hlt]
  cases s.params.xferFailStop <;> cases s.ack <;> simp

theorem TransferOk.move (h : TransferOk s) (hq : SequencerOk s) (hm : Move i s t) : TransferOk t := by
  have keeps : ∀ {f : Fsm} {t : State}, s.fsm = f → f.running = true → t.desc = s.desc →
      t.transferRegs = s.transferRegs → TransferOk t :=
    fun hf hr => h.keeps (hf ▸ hr)
  cases hm with
  | reject | linkFails | noResponse | refusedResponse | transferEnds | present =>
    exact transferOk_of_notRunning rfl
  | decoded _ ht => exact transferOk_of_notRunning (by rw [(onAckOf_ends ht).fsm]; rfl)
  | accept hf hv ht =>
    exact transferOk_of_sel (show (i.latch s.portDescriptor).sel ≠ 7 by
      rw [sel_latch, ne_eq, selector_eq_seven, ht]; decide)
  | acceptTransfer page len e hf hv hl hp =>
    subst e
    by_cases h0 : chunkCount len.toNat = 0
    · exact transferOk_of_notRunning (by simp only [if_pos h0]; rfl)
    · exact transferOk_iff.2 fun _ _ => transferUnderway_start
        (d := (Instr.memWrite page len).latch s.portDescriptor) (chunkCount_le hl) h0
  | inject b hc | bitStep b hc | lastBitStep b hc =>
    exact h.keeps (Fsm.running_of_sending hc.sending) rfl rfl
  | lenTaken o hf => unfold prefixTaken; split <;> exact keeps hf rfl rfl rfl
  | trailerTaken o hf => unfold Machine.trailerTaken; split <;> exact keeps hf rfl rfl rfl
  | held o hf => exact h.keeps (Fsm.running_of_sending hf) rfl rfl
  | waits n hf => exact h.keeps (Fsm.running_of_receiving hf) rfl rfl
  | nextChunk hf hm =>
    have hr : s.fsm.running = true := by rw [hf]; rfl
    refine transferOk_iff.2 fun _ h7 => ?_
    have hu := transferOk_iff.1 h hr h7
    have hn : s.nchunks.toNat ≤ 128 := hu.chunks.1.trans_le (chunkCount_le (hq.imageFits hr h7))
    exact hu.recordChunk hn ((moreChunks_iff hu.chunks.2).1 hm).1
  | _ => exact keeps ‹s.fsm = _› rfl rfl rfl

theorem TransferOk.advance (h : TransferOk s) : TransferOk s.advance := { h with }

theorem TransferOk.of_step (h : TransferOk s) (hq : SequencerOk s) (hst : step s = .next t) :
    TransferOk t := by
  obtain ⟨-, rfl⟩ | ⟨-, -, -, rfl⟩ | ⟨i, u, -, -, -, -, hm, rfl⟩ | ⟨-, -, -, -, rfl⟩ |
    ⟨i, u, -, -, -, hm, rfl⟩ | ⟨-, -, -, rfl⟩ := step_cases hst
  · exact (transferOk_of_notRunning rfl).advance
  · exact h.advance
  · have h' : TransferOk s.hostWritesImage := by rw [hostWritesImage_eq]; exact { h with }
    exact (h'.move hq.hostWritesImage hm).advance
  · exact (transferOk_of_notRunning rfl).advance
  · exact (h.move hq hm).advance
  · exact (transferOk_of_notRunning rfl).advance

theorem Inv.of_step (h : Inv s) (hst : step s = .next t) : Inv t :=
  ⟨h.buffers.of_step hst, h.sequencer.of_step hst, h.transfer.of_step h.sequencer hst⟩

end Sys2Proof.Machine
end

section
/-! Progress: where a step answers a next state (43_protocol_sequencer.md R194, 44_transfer_session.md R209). -/
namespace Sys2Proof.Machine

variable {i : Instr} {s t : State}

theorem linkGuard_progress {k : State → Result} (hk : ∃ t, k s = .next t) :
    ∃ t, linkGuard k s = .next t := by
  unfold linkGuard
  split
  · exact ⟨_, rfl⟩
  · exact hk

theorem receive_progress {got : Byte → State → Result} (hg : ∀ b, ∃ t, got b s.takeByte = .next t) :
    ∃ t, receive got s = .next t := by
  unfold receive
  split
  · exact hg _
  · exact ⟨_, rfl⟩

/-- An index that does not pass a payload within the buffer reads a byte of it (20_memory.md R48). -/
theorem txPayloadStep_progress (hp : s.plen.toNat ≤ Config.payloadMax) :
    ∃ t, txPayloadStep s = .next t := by
  unfold txPayloadStep
  split_ifs with hlt hmax h0
  · exact ⟨_, rfl⟩
  · exact absurd (Nat.lt_of_lt_of_le hlt hp) hmax
  · exact ⟨_, rfl⟩
  · exact ⟨_, rfl⟩

theorem gotStatus_progress (b : Byte) (s : State) : ∃ t, gotStatus b s = .next t := by
  unfold gotStatus
  split <;> exact ⟨_, rfl⟩

/-- An index below the response's length is within `RXB` (R188). -/
theorem gotData_progress (b : Byte) (hd : s.idx.toNat < s.dataLen.toNat) : ∃ t, gotData b s = .next t :=
  ⟨_, if_pos (show s.idx.toNat < 255 by have := s.dataLen.isLt; omega)⟩

/-- The operands of the MemWrite that a descriptor selects are the descriptor's. -/
theorem memWrite_of_instr? {d : Descriptor} {page : Byte} {len : BitVec 18}
    (h : d.instr? = some (.memWrite page len)) : d.sel = 7 ∧ page = d.page ∧ len = d.imgLen :=
  ⟨selector_of_instr? h, congrArg Descriptor.page (latch_of_instr? h),
    congrArg Descriptor.imgLen (latch_of_instr? h)⟩

/-- In `MARSHAL` the chunk of a running transfer lies in the image (R201). -/
theorem exec_marshal_progress (hq : SequencerOk s) (hx : TransferOk s) (hf : s.fsm = .marshal)
    (hi : s.desc.instr? = some i) : ∃ t, exec i s = .next t := by
  rw [exec_marshal hf]
  rcases ht : i.isTransfer
  · rw [commandOf_oneExchange ht]
    exact ⟨_, rfl⟩
  · cases i <;> cases ht
    obtain ⟨h7, -, rfl⟩ := memWrite_of_instr? hi
    have hr : s.fsm.running = true := by rw [hf]; rfl
    obtain ⟨hcount, hk⟩ := hx.chunks hr h7
    exact ⟨_, if_pos ((chunk_bounds (hk.trans_eq hcount)).1.trans (hq.imageFits hr h7))⟩

/-- A running command goes on in every state (R194). -/
theorem exec_progress (hq : SequencerOk s) (hx : TransferOk s) (hf : s.fsm ≠ .idle)
    (hi : s.desc.instr? = some i) : ∃ t, exec i s = .next t := by
  cases hs : s.fsm with
  | idle => exact absurd hs hf
  | marshal => exact exec_marshal_progress hq hx hs hi
  | txLen => rw [exec_txLen hs]; exact linkGuard_progress ⟨_, rfl⟩
  | txPayload => rw [exec_txPayload hs]; exact linkGuard_progress (txPayloadStep_progress hq.plenBound)
  | txCrc => rw [exec_txCrc hs]; exact linkGuard_progress ⟨_, rfl⟩
  | rxStatus =>
    rw [exec_rxStatus hs]
    exact linkGuard_progress (receive_progress fun b => gotStatus_progress b _)
  | rxLen => rw [exec_rxLen hs]; exact linkGuard_progress (receive_progress fun _ => ⟨_, rfl⟩)
  | rxData =>
    rw [exec_rxData hs]
    exact linkGuard_progress (receive_progress fun b => gotData_progress b (hq.dataIdx hs))
  | decode => exact ⟨_, exec_decode hs⟩
  | nextChunk => exact ⟨_, exec_nextChunk hs⟩
  | done => exact ⟨_, exec_done hs⟩

/-- A MemWrite that a model admits is set up and not refused (R209). -/
theorem transferSetUp_admitted {page : Byte} {len : BitVec 18} (hl : len.toNat ≤ Config.imageMax)
    (hp : MemWriteAdmitted page len.toNat) (s : State) :
    transferSetUp page len s = .next { s with
      nchunks := BitVec.ofNat 8 (chunkCount len.toNat), curPage := page, k := 0,
      xferAttempts := 0, xferFailures := 0, xferFailMap := 0,
      fsm := if chunkCount len.toNat = 0 then .done else .marshal } := by
  rw [transferSetUp, if_neg (Nat.not_lt.2 hl), if_neg (not_not.2 hp)]

theorem exec_idle_progress (hf : s.fsm = .idle) (hadm : ∀ page len, i = .memWrite page len →
      len.toNat ≤ Config.imageMax ∧ MemWriteAdmitted page len.toNat) : ∃ t, exec i s = .next t := by
  rw [exec_idle hf]
  obtain ⟨c, -, e⟩ | ⟨-, e⟩ := accept_cases i.latch (commandOf i).setUp s.lowerPulse <;> rw [e]
  · exact ⟨_, rfl⟩
  · rcases ht : i.isTransfer
    · rw [commandOf_oneExchange ht]
      exact ⟨_, rfl⟩
    · cases i <;> cases ht
      obtain ⟨hl, hp⟩ := hadm _ _ rfl
      exact ⟨_, transferSetUp_admitted hl hp _⟩

/-- The command on the port is one a model admits. -/
theorem CommandsAdmitted.port (h : CommandsAdmitted s) (hc : s.cmdValid = true) :
    s.portDescriptor.imgLen.toNat ≤ Config.imageMax ∧
      (s.portDescriptor.sel = 7 → MemWriteAdmitted s.portDescriptor.page s.portDescriptor.imgLen.toNat) := by
  unfold State.portDescriptor
  rcases hh : s.host with _ | ⟨c, cs⟩
  · simp [State.cmdValid, hh] at hc
  · exact h c (by rw [hh]; exact List.mem_cons_self)

theorem runPort_progress (h : CommandsAdmitted s) (hf : s.fsm = .idle) (hc : s.cmdValid = true) :
    ∃ t, runPort s.hostWritesImage = .next t := by
  have hf' : s.hostWritesImage.fsm = .idle := by rw [hostWritesImage_eq]; exact hf
  rcases hi : s.hostWritesImage.portDescriptor.instr? with _ | i
  · exact ⟨_, runPort_of_instr?_none hi⟩
  · rw [runPort, hi]
    refine exec_idle_progress hf' fun page len e => ?_
    subst e
    rw [hostWritesImage_portDescriptor] at hi
    obtain ⟨h7, rfl, rfl⟩ := memWrite_of_instr? hi
    obtain ⟨hl, hp⟩ := h.port hc
    exact ⟨hl, hp h7⟩

/-- Only in `DONE` is a descriptor latched that selects no command (R181). -/
theorem runLatched_progress (hq : SequencerOk s) (hx : TransferOk s) (hf : s.fsm ≠ .idle) :
    ∃ t, runLatched s = .next t := by
  unfold runLatched
  rcases hi : s.desc.instr? with _ | i
  · have hdone : s.fsm = .done := by
      have hnot : ¬ s.fsm.running = true := fun hr => by
        have hv := hq.validated hr
        rw [validate_of_instr?_none hi] at hv
        cases hv
      revert hf hnot
      cases s.fsm <;> decide
    exact ⟨_, if_pos hdone⟩
  · exact exec_progress hq hx hf hi

/-- From every state of the invariant, with the commands a model admits, a step is made. -/
theorem Inv.progress (h : Inv s) (hc : CommandsAdmitted s) : ∃ t, step s = .next t := by
  have advances : ∀ {r : Result}, (∃ t, r = .next t) → ∃ t, thenAdvance r = .next t :=
    fun ⟨t, ht⟩ => ⟨t.advance, by rw [ht]; rfl⟩
  unfold step
  split
  · exact ⟨_, rfl⟩
  · refine advances ?_
    unfold cycle
    split_ifs with hf hv
    · exact runPort_progress hc hf hv
    · exact ⟨_, rfl⟩
    · exact runLatched_progress h.sequencer h.transfer hf

/-! ### The host's commands -/

/-- A move takes at most the first command out of the host's hands. -/
theorem Move.host_suffix (h : Move i s t) : t.host <:+ s.host := by
  cases h with
  | reject | accept | acceptTransfer => exact List.tail_suffix s.host
  | lenTaken => unfold prefixTaken; split <;> exact List.suffix_rfl
  | trailerTaken => unfold Machine.trailerTaken; split <;> exact List.suffix_rfl
  | decoded =>
    rw [onAckOf_frame]
    exact List.suffix_rfl
  | _ => exact List.suffix_rfl

theorem step_host_suffix (h : step s = .next t) : t.host <:+ s.host := by
  have e : s.hostWritesImage.host = s.host := by rw [hostWritesImage_eq]
  obtain ⟨-, rfl⟩ | ⟨-, -, -, rfl⟩ | ⟨i, u, -, -, -, -, hm, rfl⟩ | ⟨-, -, -, -, rfl⟩ |
    ⟨i, u, -, -, -, hm, rfl⟩ | ⟨-, -, -, rfl⟩ := step_cases h
  · exact List.suffix_rfl
  · exact List.suffix_rfl
  · exact e ▸ hm.host_suffix
  · exact e ▸ List.tail_suffix s.hostWritesImage.host
  · exact hm.host_suffix
  · exact List.suffix_rfl

theorem CommandsAdmitted.of_step (h : CommandsAdmitted s) (hst : step s = .next t) : CommandsAdmitted t :=
  fun c hc => h c ((step_host_suffix hst).subset hc)

end Sys2Proof.Machine

open Sys2Proof Sys2Proof.Machine

/-- Settles O55: the invariant rules out both faults, `CommandsAdmitted` both refusals, and each is kept by
every step. -/
theorem safeRunNeverStops : Obligations.SafeRunNeverStops := by
  intro s h hc
  obtain ⟨t, ht⟩ := h.progress hc
  exact ⟨t, ht, h.of_step ht, hc.of_step ht⟩
end

section
/-! Where the transition table leads (43_protocol_sequencer.md R194), and that every move leads there. -/
namespace Sys2Proof.Machine

variable {i : Instr} {s t : State} {b : Byte}

/-- A link failure leads to `DONE` from every `TX_*` and `RX_*` state (R192). -/
theorem nextFsm_of_linkErr (hf : s.fsm.sending = true ∨ s.fsm.receiving = true)
    (hl : s.now.linkErr = true) : nextFsm s = .done := by
  unfold nextFsm
  cases hs : s.fsm <;> simp_all [Fsm.sending, Fsm.receiving]

/-- The engine stays where it is until a covered byte is taken (R183, R184). -/
theorem nextFsm_of_covered (hc : Covered s b) (hl : s.now.linkErr = false)
    (ho : s.offerTaken = false) : nextFsm s = s.fsm := by
  cases hc with
  | len hf => simp [nextFsm, hf, hl, ho]
  | payload hf hp hb =>
    have hne : s.idx ≠ s.plen := BitVec.ne_of_lt hp
    simp [nextFsm, hf, hl, hne]

/-- A wait that brings no byte goes on, unless `RX_TIMEOUT` is reached (R193). -/
theorem nextFsm_of_waiting (hf : s.fsm.receiving = true) (hl : s.now.linkErr = false)
    (ho : s.rxOffered = none) : nextFsm s = if s.timeoutReached then .done else s.fsm := by
  unfold nextFsm
  cases hs : s.fsm <;> simp_all [Fsm.receiving]

theorem offerTaken_of_none (ho : s.txOffer = none) : s.offerTaken = false := by
  simp [State.offerTaken, ho]

theorem offerTaken_of_notReady (hr : s.now.txReady = false) : s.offerTaken = false := by
  simp [State.offerTaken, hr]

theorem offerTaken_of_ready {o : Byte} (ho : s.txOffer = some o) (hr : s.now.txReady = true) :
    s.offerTaken = true := by
  simp [State.offerTaken, ho, hr]

theorem SequencerOk.offerTaken_of_absorbing (h : SequencerOk s) (h0 : s.bitcnt ≠ 0) :
    s.offerTaken = false :=
  offerTaken_of_none (Option.not_isSome_iff_eq_none.1 fun ho => h0 (h.offerAfterAbsorb ho))

/-- A command's accept leads where the table says (R181). -/
theorem nextFsm_of_accept (hf : s.fsm = .idle) (hc : s.cmdValid = true)
    (hv : validate s.portDescriptor = none) : nextFsm s =
      if s.portDescriptor.sel = 7 ∧ s.portDescriptor.imgLen = 0 then .done else .marshal := by
  simp [nextFsm, hf, hc, hv]

/-- Every move leads to the state that the table names. -/
theorem Move.fsm_eq_nextFsm (hm : Move i s t) (hq : SequencerOk s) (hx : TransferOk s)
    (hport : s.fsm = .idle → s.cmdValid = true ∧ s.portDescriptor.instr? = some i)
    (hi : s.fsm ≠ .idle → s.desc.instr? = some i) : t.fsm = nextFsm s := by
  have latched : s.fsm = .idle → i.latch s.portDescriptor = s.portDescriptor :=
    fun hf => latch_of_instr? (hport hf).2
  have isTransfer : s.fsm ≠ .idle → (s.desc.sel = 7 ↔ i.isTransfer = true) :=
    fun hf => by rw [selector_of_instr? (hi hf), selector_eq_seven]
  cases hm with
  | reject c hf hv =>
    rw [latched hf] at hv
    simp [nextFsm, hf, (hport hf).1, hv, State.raise]
  | accept hf hv ht =>
    have hsel : s.portDescriptor.sel ≠ 7 := by
      rw [selector_of_instr? (hport hf).2, ne_eq, selector_eq_seven, ht]; decide
    rw [latched hf] at hv
    rw [nextFsm_of_accept hf (hport hf).1 hv, if_neg fun h => hsel h.1]
  | acceptTransfer page len e hf hv hl hp =>
    subst e
    obtain ⟨h7, -, hlen⟩ := memWrite_of_instr? (hport hf).2
    have hzero : chunkCount len.toNat = 0 ↔ s.portDescriptor.sel = 7 ∧ s.portDescriptor.imgLen = 0 := by
      rw [chunkCount_eq_zero, ← hlen, and_iff_right h7, ← BitVec.toNat_inj]
      rfl
    rw [latched hf] at hv
    rw [nextFsm_of_accept hf (hport hf).1 hv]
    exact if_congr hzero rfl rfl
  | marshal hf | marshalChunk _ _ _ hf | present hf => simp [nextFsm, hf, loadPayload, State.presentResult]
  | linkFails hf hl => rw [nextFsm_of_linkErr hf hl]; rfl
  | inject b hc hl h0 ho => rw [nextFsm_of_covered hc hl (offerTaken_of_none ho)]; rfl
  | bitStep b hc hl h0 => rw [nextFsm_of_covered hc hl (hq.offerTaken_of_absorbing h0)]; rfl
  | lastBitStep b hc hl h1 =>
    rw [nextFsm_of_covered hc hl (hq.offerTaken_of_absorbing (by rw [h1]; decide))]; rfl
  | lenTaken o hf hl h0 ho hr =>
    have hidx := hq.lenIdx hf
    by_cases h1 : s.idx.toNat < 1
    · have hne : s.idx ≠ 1#11 := by bv_omega
      rw [prefixTaken_first (s := s.lowerPulse.linkTakes o) h1]
      simp [nextFsm, hf, hl, hne]
    · have heq : s.idx = 1 := by bv_omega
      rw [prefixTaken_last (s := s.lowerPulse.linkTakes o) h1]
      simp [nextFsm, hf, hl, heq, offerTaken_of_ready ho hr]
  | payloadTaken o hf hp hl =>
    have hne : s.idx ≠ s.plen := BitVec.ne_of_lt hp
    simp [nextFsm, hf, hl, hne, Machine.payloadTaken]
  | held o hf hl h0 ho hr =>
    obtain hf | ⟨-, b, hc⟩ := h0
    · simp [nextFsm, hf, hl, offerTaken_of_notReady hr]
    · rw [nextFsm_of_covered hc hl (offerTaken_of_notReady hr)]; rfl
  | payloadEnd hf hl hp h0 =>
    have hle := hq.payloadIdx hf
    have heq : s.idx = s.plen := by bv_omega
    simp [nextFsm, hf, hl, heq, h0]
  | strayBitStep hf hl hp h0 =>
    have hle := hq.payloadIdx hf
    exact absurd (hq.absorbedFirst hf (by bv_omega)) h0
  | trailerOffered hf hl ho => simp [nextFsm, hf, hl, offerTaken_of_none ho]
  | trailerTaken o hf hl ho hr =>
    have hidx := (hq.crcIdx hf).1
    by_cases h3 : s.idx.toNat < 3
    · have hne : s.idx ≠ 3#11 := by bv_omega
      rw [trailerTaken_first (s := s.lowerPulse.linkTakes o) h3]
      simp [nextFsm, hf, hl, hne]
    · have heq : s.idx = 3 := by bv_omega
      rw [trailerTaken_last (s := s.lowerPulse.linkTakes o) h3]
      simp [nextFsm, hf, hl, heq, offerTaken_of_ready ho hr]
  | ackRead b bs hf hl hxs ho hb => simp [nextFsm, hf, hl, ho, hb]
  | nackRead b bs hf hl hxs ho hb =>
    have hne : ¬ b = 1#8 := hb
    simp [nextFsm, hf, hl, ho, hne]
  | lengthRead b bs hf hl hxs ho => simp [nextFsm, hf, hl, ho]
  | dataRead b bs hf hl hxs ho hmax =>
    have hlt := hq.dataIdx hf
    have hlast : s.idx.toNat + 1 < s.dataLen.toNat ↔ ¬ s.idx.toNat + 1 = s.dataLen.toNat := by omega
    simp [nextFsm, hf, hl, ho, hlast]
  | waits n hf hl ho hn => rw [nextFsm_of_waiting hf hl ho, hn]; rfl
  | noResponse n hf hl ho hn => rw [nextFsm_of_waiting hf hl ho, hn]; rfl
  | refusedResponse hf ht | decoded hf ht =>
    have hsel : ¬ s.desc.sel = 7#4 := (isTransfer (by rw [hf]; decide)).not.2 (by rw [ht]; decide)
    simp [nextFsm, hf, hsel, State.raise, (onAckOf_ends ht).fsm]
  | chunkAnswered hf ht =>
    have hsel : s.desc.sel = 7 := (isTransfer (by rw [hf]; decide)).2 ht
    simp [nextFsm, hf, hsel]
  | nextChunk hf hm | transferEnds hf hm =>
    have hr : s.fsm.running = true := by rw [hf]; rfl
    have hk := (hx.chunks hr (hq.chunkOfTransfer hf)).2
    have hmore := moreChunks_iff hk
    rw [hm] at hmore
    simp [nextFsm, hf, ← hmore]

theorem nextFsm_hostWritesImage (hf : s.fsm = .idle) : nextFsm s.hostWritesImage = nextFsm s := by
  have hf' : s.hostWritesImage.fsm = .idle := by rw [hostWritesImage_eq]; exact hf
  have hc : s.hostWritesImage.cmdValid = s.cmdValid := by rw [hostWritesImage_eq]; rfl
  simp only [nextFsm, hf, hf', hc, hostWritesImage_portDescriptor]

/-- Every step without reset leads where the table says. -/
theorem Inv.fsm_eq_nextFsm (h : Inv s) (hr : s.now.rst = false) (hst : step s = .next t) :
    t.fsm = nextFsm s := by
  obtain ⟨hr', -⟩ | ⟨-, hf, hc, rfl⟩ | ⟨i, u, -, hf, hc, hi, hm, rfl⟩ | ⟨-, hf, hc, hi, rfl⟩ |
    ⟨i, u, -, hf, hi, hm, rfl⟩ | ⟨-, hf, -, rfl⟩ := step_cases hst
  · rw [hr] at hr'; cases hr'
  · simp [nextFsm, hf, hc]
  · have hx : TransferOk s.hostWritesImage := by rw [hostWritesImage_eq]; exact { h.transfer with }
    have hf' : s.hostWritesImage.fsm = .idle := by rw [hostWritesImage_eq]; exact hf
    have hc' : s.hostWritesImage.cmdValid = true := by rw [hostWritesImage_eq]; exact hc
    rw [← nextFsm_hostWritesImage hf]
    exact hm.fsm_eq_nextFsm h.sequencer.hostWritesImage hx
      (fun _ => ⟨hc', by rw [hostWritesImage_portDescriptor]; exact hi⟩) fun hne => absurd hf' hne
  · simp [nextFsm, hf, hc, validate_of_instr?_none hi, State.raise]
  · exact hm.fsm_eq_nextFsm h.sequencer h.transfer (fun hf' => absurd hf' hf) fun _ => hi
  · simp [nextFsm, hf, State.presentResult]

end Sys2Proof.Machine

open Sys2Proof Sys2Proof.Machine

/-- Settles O47: a step is made, and by cases on the moves it leads where the table says. -/
theorem onlyListedTransitions : Obligations.OnlyListedTransitions := by
  intro s h hc hr
  obtain ⟨t, ht⟩ := h.progress hc
  exact ⟨t, ht, h.fsm_eq_nextFsm hr ht⟩
end

section
/-! The one step that is made in each `TX_*` and `RX_*` state (43_protocol_sequencer.md R183 to R188, R192,
R193), whatever the command. -/
namespace Sys2Proof.Machine

variable {i : Instr} {s : State} {b o : Byte} {taken : State → State}

/-! ### The link -/

theorem linkGuard_of_linkErr (hl : s.now.linkErr = true) (k : State → Result) :
    linkGuard k s.lowerPulse = .next (failed .transport s) := by
  rw [← raise_lowerPulse]
  exact if_pos hl

theorem linkGuard_of_noErr (hl : s.now.linkErr = false) (k : State → Result) :
    linkGuard k s.lowerPulse = k s.lowerPulse :=
  if_neg (by rw [State.lowerPulse_now, hl]; decide)

/-- In every `TX_*` and `RX_*` state the step is guarded by the link (R192). -/
theorem exec_eq_linkGuard (hf : s.fsm.sending = true ∨ s.fsm.receiving = true) :
    ∃ k, exec i s = linkGuard k s.lowerPulse := by
  cases hs : s.fsm with
  | txLen => exact ⟨_, exec_txLen hs⟩
  | txPayload => exact ⟨_, exec_txPayload hs⟩
  | txCrc => exact ⟨_, exec_txCrc hs⟩
  | rxStatus => exact ⟨_, exec_rxStatus hs⟩
  | rxLen => exact ⟨_, exec_rxLen hs⟩
  | rxData => exact ⟨_, exec_rxData hs⟩
  | _ => simp [hs, Fsm.sending, Fsm.receiving] at hf

/-! ### Sending -/

theorem absorbAndSend_held (b : Byte) (taken : State → State) (h0 : s.bitcnt = 0)
    (ho : s.txOffer = some o) (hr : s.now.txReady = false) : absorbAndSend b taken s = s := by
  simp [absorbAndSend, h0, ho, hr]

theorem sendOnly_offers (b : Byte) (taken : State → State) (ho : s.txOffer = none) :
    sendOnly b taken s = { s with txOffer := some b } := by
  simp [sendOnly, ho]

theorem sendOnly_taken (b : Byte) (taken : State → State) (ho : s.txOffer = some o)
    (hr : s.now.txReady = true) : sendOnly b taken s = taken (s.linkTakes o) := by
  simp [sendOnly, ho, hr]

theorem sendOnly_held (b : Byte) (taken : State → State) (ho : s.txOffer = some o)
    (hr : s.now.txReady = false) : sendOnly b taken s = s := by
  simp [sendOnly, ho, hr]

theorem exec_txLen_absorbs (hl : s.now.linkErr = false) (hf : s.fsm = .txLen) :
    exec i s = .next (absorbAndSend (byteOfHalf s.flen s.idx.toNat) prefixTaken s.lowerPulse) := by
  rw [exec_txLen hf, linkGuard_of_noErr hl]
  rfl

theorem exec_txPayload_absorbs (hl : s.now.linkErr = false) (hf : s.fsm = .txPayload)
    (hp : s.idx < s.plen) (hb : s.idx.toNat < Config.payloadMax) :
    exec i s = .next (absorbAndSend (s.pb.read s.idx.toNat) payloadTaken s.lowerPulse) := by
  have hp' : s.lowerPulse.idx < s.lowerPulse.plen := hp
  have hb' : s.lowerPulse.idx.toNat < Config.payloadMax := hb
  rw [exec_txPayload hf, linkGuard_of_noErr hl, txPayloadStep, if_pos hp', if_pos hb']
  rfl

/-- A covered byte is absorbed and sent. -/
theorem exec_of_covered (hl : s.now.linkErr = false) (hc : Covered s b) :
    ∃ taken, exec i s = .next (absorbAndSend b taken s.lowerPulse) := by
  cases hc with
  | len hf => exact ⟨_, exec_txLen_absorbs hl hf⟩
  | payload hf hp hb => exact ⟨_, exec_txPayload_absorbs hl hf hp hb⟩

theorem exec_txPayload_ends (hl : s.now.linkErr = false) (hf : s.fsm = .txPayload)
    (hp : s.idx = s.plen) (h0 : s.bitcnt = 0) :
    exec i s = .next { s with idx := 0, fsm := .txCrc, chunkEvt := none } := by
  have hp' : ¬ s.lowerPulse.idx < s.lowerPulse.plen := by
    show ¬ s.idx < s.plen
    rw [hp]
    exact BitVec.lt_irrefl _
  have h0' : s.lowerPulse.bitcnt = 0 := h0
  rw [exec_txPayload hf, linkGuard_of_noErr hl, txPayloadStep, if_neg hp', if_pos h0']
  rfl

theorem exec_txCrc_sends (hl : s.now.linkErr = false) (hf : s.fsm = .txCrc) :
    exec i s = .next (sendOnly (byteOfWord s.acc s.idx.toNat) trailerTaken s.lowerPulse) := by
  rw [exec_txCrc hf, linkGuard_of_noErr hl]
  rfl

/-! ### Receiving -/

theorem receive_offered (got : Byte → State → Result) (ho : s.rxOffered = some b) :
    receive got s.lowerPulse = got b s.lowerPulse.takeByte := by
  rw [receive, State.lowerPulse_rxOffered, ho]

theorem receive_waits (got : Byte → State → Result) (ho : s.rxOffered = none) :
    receive got s.lowerPulse = .next s.lowerPulse.waitForByte := by
  rw [receive, State.lowerPulse_rxOffered, ho]

theorem exec_rxStatus_got (hl : s.now.linkErr = false) (hf : s.fsm = .rxStatus)
    (ho : s.rxOffered = some b) : exec i s = gotStatus b s.lowerPulse.takeByte := by
  rw [exec_rxStatus hf, linkGuard_of_noErr hl, receive_offered gotStatus ho]

theorem exec_rxLen_got (hl : s.now.linkErr = false) (hf : s.fsm = .rxLen)
    (ho : s.rxOffered = some b) : exec i s = gotLength b s.lowerPulse.takeByte := by
  rw [exec_rxLen hf, linkGuard_of_noErr hl, receive_offered gotLength ho]

/-- A data byte whose index is below the response's length is stored (R188). -/
theorem exec_rxData_got (hl : s.now.linkErr = false) (hf : s.fsm = .rxData)
    (ho : s.rxOffered = some b) (hd : s.idx.toNat < s.dataLen.toNat) :
    exec i s = .next { s with
      rx := s.rx.tail, rxb := s.rxb.write s.idx.toNat b, idx := s.idx + 1, tmo := 0,
      fsm := if s.idx.toNat + 1 = s.dataLen.toNat then .decode else .rxData, chunkEvt := none } := by
  have hmax : s.lowerPulse.takeByte.idx.toNat < Config.respDataMax := by
    show s.idx.toNat < 255
    have := s.dataLen.isLt
    omega
  have hnext : (if s.idx.toNat + 1 < s.dataLen.toNat then Fsm.rxData else .decode) =
      if s.idx.toNat + 1 = s.dataLen.toNat then .decode else .rxData := by
    by_cases hlast : s.idx.toNat + 1 = s.dataLen.toNat
    · rw [if_neg (by omega), if_pos hlast]
    · rw [if_pos (by omega), if_neg hlast]
  rw [exec_rxData hf, linkGuard_of_noErr hl, receive_offered gotData ho, gotData, if_pos hmax, ← hnext]
  rfl

/-- Without a byte the engine waits, in every `RX_*` state (R193). -/
theorem exec_waits (hl : s.now.linkErr = false) (hf : s.fsm.receiving = true)
    (ho : s.rxOffered = none) : exec i s = .next s.lowerPulse.waitForByte := by
  cases hs : s.fsm with
  | rxStatus => rw [exec_rxStatus hs, linkGuard_of_noErr hl, receive_waits _ ho]
  | rxLen => rw [exec_rxLen hs, linkGuard_of_noErr hl, receive_waits _ ho]
  | rxData => rw [exec_rxData hs, linkGuard_of_noErr hl, receive_waits _ ho]
  | _ => simp [hs, Fsm.receiving] at hf

theorem waitForByte_untimed (hp : s.params.rxTimeout = none) : s.waitForByte = s := by
  rw [State.waitForByte, hp]

theorem waitForByte_noUnit (ht : s.now.timeUnit = false) : s.waitForByte = s := by
  unfold State.waitForByte
  split <;> simp [ht]

/-- A unit that passes is counted, and reaching `RX_TIMEOUT` ends the command (60_exceptions.md R225). -/
theorem waitForByte_unit {T : Nat} (hp : s.params.rxTimeout = some T) (ht : s.now.timeUnit = true) :
    s.waitForByte = if T ≤ s.tmo + 1 then State.raise .noResponse .none { s with tmo := s.tmo + 1 }
      else { s with tmo := s.tmo + 1 } := by
  simp [State.waitForByte, hp, ht]

end Sys2Proof.Machine

open Sys2Proof Sys2Proof.Machine

/-- Settles O29: the guard of the link comes before every other work of the step. -/
theorem linkFailure : Obligations.LinkFailure := by
  intro i s hl hf
  obtain ⟨k, e⟩ := exec_eq_linkGuard (i := i) hf
  rw [e, linkGuard_of_linkErr hl]

/-- Settles O23: the five steps of "absorb and send", with what follows the taking in either state. -/
theorem coveredByteSteps : Obligations.CoveredByteSteps := by
  intro i s b u hl hb
  obtain ⟨taken, e, htaken⟩ : ∃ taken, exec i s = .next (absorbAndSend b taken s.lowerPulse) ∧
      ∀ o, taken (s.lowerPulse.linkTakes o) =
        { u with tx := s.tx ++ [o], txOffer := none, chunkEvt := none } := by
    obtain ⟨hf, rfl, rfl⟩ | ⟨hf, hp, hmax, rfl, rfl⟩ := hb
    · refine ⟨_, exec_txLen_absorbs hl hf, fun o => ?_⟩
      by_cases h1 : s.idx.toNat < 1
      · rw [if_pos h1]
        exact prefixTaken_first (s := s.lowerPulse.linkTakes o) h1
      · rw [if_neg h1]
        exact prefixTaken_last (s := s.lowerPulse.linkTakes o) h1
    · exact ⟨_, exec_txPayload_absorbs hl hf hp hmax, fun o => rfl⟩
  rw [e]
  refine ⟨fun h0 ho => ?_, fun h1 => ?_, fun h1 => ?_, fun o h0 ho hr => ?_, fun o h0 ho hr => ?_⟩
  · rw [absorbAndSend_inject (s := s.lowerPulse) b taken h0 ho]
    rfl
  · have hne0 : s.lowerPulse.bitcnt ≠ 0 := by show s.bitcnt ≠ 0; bv_omega
    have hne1 : s.lowerPulse.bitcnt ≠ 1 := by show s.bitcnt ≠ 1; bv_omega
    rw [absorbAndSend_bitStep b taken hne0 hne1]
    rfl
  · have hlast : s.bitcnt - 1 = 0 := by rw [h1]; rfl
    rw [absorbAndSend_last (s := s.lowerPulse) b taken h1, ← hlast]
    rfl
  · rw [absorbAndSend_taken (s := s.lowerPulse) b taken h0 ho hr, htaken]
  · rw [absorbAndSend_held (s := s.lowerPulse) b taken h0 ho hr]
    rfl

/-- Settles O24: the trailer is sent by `sendOnly`, one offer and one taking for each byte. -/
theorem trailerSteps : Obligations.TrailerSteps := by
  intro i s hl
  refine ⟨fun hf hp h0 => exec_txPayload_ends hl hf hp h0, fun hf ho => ?_, fun o hf ho hr h3 => ?_,
    fun o hf ho hr h3 => ?_⟩ <;> rw [exec_txCrc_sends hl hf]
  · rw [sendOnly_offers (s := s.lowerPulse) _ _ ho, byteOfWord_eq_extract]
    rfl
  · rw [sendOnly_taken (s := s.lowerPulse) _ _ ho hr,
      trailerTaken_first (s := s.lowerPulse.linkTakes o) h3]
    rfl
  · have hlast : ¬ (s.lowerPulse.linkTakes o).idx.toNat < 3 := by show ¬ s.idx.toNat < 3; omega
    rw [sendOnly_taken (s := s.lowerPulse) _ _ ho hr, trailerTaken_last hlast]
    rfl

/-- Settles O25: `gotStatus` splits at `ACK`. -/
theorem statusByteRead : Obligations.StatusByteRead := by
  intro i s b hf hl ho
  rw [exec_rxStatus_got hl hf ho]
  exact ⟨fun hb => if_pos hb, fun hb => if_neg hb⟩

/-- Settles O26: the step is `gotLength` on the state without the byte. -/
theorem lengthByteRead : Obligations.LengthByteRead := fun _ _ _ hf hl ho =>
  exec_rxLen_got hl hf ho

/-- Settles O27: one byte of `RXB` is written, at an index below the response's length. -/
theorem dataByteRead : Obligations.DataByteRead := fun _ _ b hf hl ho hd hwf =>
  ⟨_, exec_rxData_got hl hf ho hd, Memory.read_write_same hwf _ b,
    fun _ ha => Memory.read_write_other b ha⟩

/-- Settles O28: a wait counts the units that pass, and a held byte changes nothing. -/
theorem waitingForTheLink : Obligations.WaitingForTheLink := by
  intro i s hl
  refine ⟨fun hf ho hp => ?_, fun T hf ho hp => ⟨fun ht => ?_, fun ht hlt => ?_, fun ht hle => ?_⟩,
    fun o hf h0 ho hr => ?_⟩
  · rw [exec_waits hl hf ho, waitForByte_untimed (s := s.lowerPulse) hp]
    rfl
  · rw [exec_waits hl hf ho, waitForByte_noUnit (s := s.lowerPulse) ht]
    rfl
  · rw [exec_waits hl hf ho, waitForByte_unit (s := s.lowerPulse) hp ht,
      if_neg (show ¬ T ≤ s.lowerPulse.tmo + 1 from Nat.not_le.2 hlt)]
    rfl
  · rw [exec_waits hl hf ho, waitForByte_unit (s := s.lowerPulse) hp ht,
      if_pos (show T ≤ s.lowerPulse.tmo + 1 from hle)]
    exact congrArg _ (raise_lowerPulse .noResponse { s with tmo := s.tmo + 1 })
  · have held_covered : ∀ b, Covered s b → exec i s = .next { s with chunkEvt := none } := by
      intro b hc
      obtain ⟨taken, e⟩ := exec_of_covered (i := i) hl hc
      rw [e, absorbAndSend_held (s := s.lowerPulse) b taken (h0.resolve_left hc.ne_txCrc) ho hr]
      rfl
    obtain hf | ⟨hf, hp, hmax⟩ | hf := hf
    · exact held_covered _ (.len hf)
    · exact held_covered _ (.payload hf hp hmax)
    · rw [exec_txCrc_sends hl hf, sendOnly_held (s := s.lowerPulse) _ _ ho hr]
      rfl
end

section
/-! `IDLE` and `MARSHAL`: the accept of a descriptor that passes validation, rest, and the payload that is
built (43_protocol_sequencer.md R181, R182, R197). -/
namespace Sys2Proof.Machine

variable {i : Instr} {s : State}

/-- A descriptor that passes validation is set up (R181). -/
theorem exec_idle_of_valid (hf : s.fsm = .idle) (hv : validate (i.latch s.portDescriptor) = none) :
    exec i s = (commandOf i).setUp (acceptDescriptor (i.latch s.portDescriptor) s.lowerPulse) := by
  rw [exec_idle hf]
  obtain ⟨c, hv', -⟩ | ⟨-, e⟩ := accept_cases i.latch (commandOf i).setUp s.lowerPulse
  · cases hv.symm.trans hv'
  · exact e

/-- A descriptor of a command that is one exchange is latched, and nothing of a transfer's report changes. -/
theorem acceptDescriptor_of_sel {d : Descriptor} (h7 : d.sel ≠ 7) (s : State) :
    acceptDescriptor d s.lowerPulse = { s with
      desc := d, busy := true, resValid := false, status := .ok, subcause := .none, ack := false,
      stByte := 0x00, dataLen := 0, host := s.host.tail, chunkEvt := none } := by
  rw [acceptDescriptor, if_neg h7, if_neg h7, if_neg h7]
  rfl

/-- A command that is one exchange goes to `MARSHAL`. -/
theorem exec_idle_oneExchange (hf : s.fsm = .idle) (ht : i.isTransfer = false)
    (hv : validate (i.latch s.portDescriptor) = none) :
    exec i s = .next { s with
      desc := i.latch s.portDescriptor, busy := true, resValid := false, status := .ok,
      subcause := .none, ack := false, stByte := 0x00, dataLen := 0, host := s.host.tail,
      chunkEvt := none, fsm := .marshal } := by
  have h7 : (i.latch s.portDescriptor).sel ≠ 7 := by
    rw [sel_latch, ne_eq, selector_eq_seven, ht]; decide
  rw [exec_idle_of_valid hf hv, commandOf_oneExchange ht, acceptDescriptor_of_sel h7]
  rfl

/-- With no command presented, `IDLE` changes nothing (R197). -/
theorem cycle_of_rest (hf : s.fsm = .idle) (hc : s.cmdValid = false) : cycle s = .next s := by
  simp [cycle, hf, hc]

/-- A payload within `PB` is loaded by the marshalling of it. -/
theorem payloadLoaded_marshalled {p : List Byte} (hwf : Memory.wf s.pb)
    (hp : p.length ≤ Config.payloadMax) : PayloadLoaded p s (marshalled p s) where
  plen := Nat.mod_eq_of_lt (hp.trans_lt (by decide))
  flen := Nat.mod_eq_of_lt ((Nat.add_le_add_right hp 4).trans_lt (by decide))
  bytes := Memory.readList_writeList hwf 0 p
  others j hj := Memory.read_writeList_other p (.inr (by omega))
  crc := ⟨rfl, rfl⟩
  next := ⟨rfl, rfl⟩

end Sys2Proof.Machine

open Sys2Proof Sys2Proof.Machine

/-- Settles O21: an accept latches the descriptor, and then each command's set-up is its own. -/
theorem acceptInIdle : Obligations.AcceptInIdle := by
  refine ⟨fun i s hf ht hv => exec_idle_oneExchange hf ht hv, fun page imgLen s hf hl hp hv => ?_,
    fun page imgLen s hf hv => ?_, fun i s c hf hv => ?_, fun s => cycle_of_rest⟩
  · rw [exec_idle_of_valid hf hv]
    refine (transferSetUp_admitted hl hp _).trans ?_
    simp only [chunkCount_eq_zero]
    rfl
  · rw [exec_idle_of_valid hf hv]
    refine ⟨fun hbig => if_pos hbig, fun hl hpages => ?_⟩
    exact (if_neg (Nat.not_lt.2 hl)).trans (if_pos (Nat.not_le.2 hpages))
  · exact ⟨_, exec_idle_of_validate hf hv, rfl, rfl, rfl, rfl⟩

/-- Settles O22: every command marshals a payload that fits, and what is written to `PB` is read back. -/
theorem marshalledPayloadIsInBuffer : Obligations.MarshalledPayloadIsInBuffer := by
  intro s hwf
  refine ⟨fun p hp => payloadLoaded_marshalled hwf hp, fun i hf ht => ⟨_, sendsPayload_encode ht s hf, ?_⟩,
    fun page imgLen hf hmax hk => ⟨_, exec_marshal_memWrite page hf hmax hk, ?_⟩⟩
  · exact payloadLoaded_marshalled hwf ((length_encode_le ht).trans (by decide))
  · have hlen : (chunkPayload s.curPage (chunkBytes s.img imgLen.toNat s.k.toNat)).length ≤
        Config.payloadMax := by
      rw [length_chunkPayload, length_chunkBytes]
      exact Nat.add_le_add_right (chunkLength_le _ _) 4
    exact { payloadLoaded_marshalled (s := { s with clen := _ }) hwf hlen with }

/-- Settles O46: the step is only the pins' moving on, which in `IDLE` takes the link adapter's inputs. -/
theorem idleDoesNothing : Obligations.IdleDoesNothing := by
  intro s hf hr hc
  have hboundary : s.boundaryKept = if s.now.restored = true then some s.tx.length else s.boundary := by
    simp [State.boundaryKept, hf]
  refine ⟨?_, by rw [State.rxReady, hf]; rfl, by rw [State.cmdReady, hf]; rfl⟩
  rw [step, hr, if_neg Bool.false_ne_true, cycle_of_rest hf hc, thenAdvance, State.advance,
    State.rxKept, if_pos hf, hboundary]
end

section
/-! The result port: when a field of 10_state.md R24 has a value, and which. -/
namespace Sys2Proof.Machine

variable {i : Instr} {s t : State}

theorem resultPort_of_noResult (h : s.resValid = false) : s.resultPort = .nothing := by
  simp [State.resultPort, ResultPort.nothing, State.statusOut, State.subcauseOut, State.ackOut,
    State.stByteOut, State.dataLenOut, State.dataOut, State.versionOut, State.helpCountOut,
    State.chipIdOut, State.rdpRepOut, State.readDataOut, State.reportOut, State.typedReady, h]

/-- An accept clears the last result, whatever becomes of the descriptor (R181). -/
theorem noResult_of_accept (hf : s.fsm = .idle) (h : exec i s = .next t) : t.resValid = false := by
  rw [exec_idle hf] at h
  obtain ⟨c, -, e⟩ | ⟨-, e⟩ := accept_cases i.latch (commandOf i).setUp s.lowerPulse <;> rw [e] at h
  · cases h; rfl
  · rcases ht : i.isTransfer
    · rw [commandOf_oneExchange ht] at h
      cases h; rfl
    · cases i <;> cases ht
      simp only [commandOf, transferSetUp] at h
      split_ifs at h <;> cases h <;> rfl

/-- A response is held after every ending but those inside an exchange and a transfer with no chunk
answered (log 19). -/
theorem responseHeld_iff : s.responseHeld = true ↔
    s.status ≠ .localValidation ∧ s.status ≠ .transport ∧ s.status ≠ .noResponse ∧
      (s.desc.sel = 7 → s.xferAttempts ≠ 0) := by
  unfold State.responseHeld
  cases s.status <;> simp [imp_iff_not_or]

theorem typedReady_iff (hv : s.resValid = true) (sel : BitVec 4) :
    s.typedReady sel = true ↔ s.status = .ok ∧ s.desc.sel = sel := by
  simp [State.typedReady, hv]

/-- A typed result has a value in its own window and none outside it. -/
theorem typedOut_eq {α : Type} (hv : s.resValid = true) (sel : BitVec 4) (v : α) :
    (if s.typedReady sel then some v else none) =
      if s.status = .ok ∧ s.desc.sel = sel then some v else none :=
  if_congr (typedReady_iff hv sel) rfl rfl

theorem noResponse_of_notHeld (h : s.responseHeld = false) :
    s.ackOut = none ∧ s.stByteOut = none ∧ s.dataLenOut = none ∧ s.dataOut = none ∧
      ∀ j, s.rxbOut j = none := by
  simp [State.ackOut, State.stByteOut, State.dataLenOut, State.dataOut, State.rxbOut, h]

theorem response_of_held (hv : s.resValid = true) (h : s.responseHeld = true) :
    s.ackOut = some s.ack ∧ s.stByteOut = some s.stByte ∧ s.dataLenOut = some s.dataLen ∧
      s.dataOut = (if s.ack = true then some (s.rxb.readList 0 s.dataLen.toNat) else none) ∧
      ∀ j, s.rxbOut j = if s.ack = true ∧ j < s.dataLen.toNat then some (s.rxb.read j) else none := by
  simp [State.ackOut, State.stByteOut, State.dataLenOut, State.dataOut, State.rxbOut, hv, h]

end Sys2Proof.Machine

open Sys2Proof Sys2Proof.Machine

/-- Settles O42: `DONE` presents the result, and each field of the port is read in its own window. -/
theorem resultPresented : Obligations.ResultPresented := by
  refine ⟨fun i s hf => exec_done hf, fun s hf hr => ?_, fun s => cycle_of_rest,
    fun s => resultPort_of_noResult,
    fun s hq hf => resultPort_of_noResult (hq.noResult_of_ne_idle hf),
    fun i s t hf h => resultPort_of_noResult (noResult_of_accept hf h), fun s hv => ?_⟩
  · have hni : s.fsm ≠ .idle := by rw [hf]; decide
    rw [step, hr, if_neg Bool.false_ne_true, cycle, if_neg hni, runLatched]
    split
    · rw [exec_done hf]; rfl
    · rw [if_pos hf]; rfl
  · refine ⟨if_pos hv, ?_, fun hend => noResponse_of_notHeld ?_,
      fun h1 h2 h3 h4 => response_of_held hv (responseHeld_iff.2 ⟨h1, h2, h3, h4⟩),
      typedOut_eq hv 1 _, typedOut_eq hv 2 _, typedOut_eq hv 3 _, typedOut_eq hv 4 _,
      typedOut_eq hv 8 _, ?_⟩
    · simp [State.subcauseOut, hv]
    · rw [← Bool.not_eq_true, responseHeld_iff]
      tauto
    · simp [State.reportOut, hv]
end

section
/-! The states `TX_LEN` to `RX_DATA` compute an exchange (43_protocol_sequencer.md R195): with quiet pins, the
frame is sent, and then the response is taken. -/
namespace Sys2Proof.Machine

variable {i : Instr} {s : State} {p : List Byte}

/-- `s` with the frame of `p` sent and its response awaited (R185). -/
def frameSent (p : List Byte) (s : State) : State :=
  { s with fsm := .rxStatus, idx := 0, tmo := 0, acc := crc32 (coveredBytes p), bitcnt := 0,
           txOffer := none, chunkEvt := none, tx := s.tx ++ encodeFrame p }

/-- `s` with the response `r` taken from the receive side, which holds `rest` after it (R186 to R188). -/
def responseTaken (r : Response) (rest : List Byte) (s : State) : State :=
  { s with fsm := .decode, idx := BitVec.ofNat 11 r.data.length, tmo := 0, rx := rest, ack := r.ack,
           stByte := r.stByte, dataLen := BitVec.ofNat 8 r.data.length,
           rxb := s.rxb.writeList 0 r.data, chunkEvt := none }

/-- The payload `p` stands in `PB`, none of its frame is sent, and `TX_LEN` is next (R182). -/
structure ReadyToSend (p : List Byte) (s : State) : Prop where
  fsm : s.fsm = .txLen
  idx : s.idx = 0
  bitcnt : s.bitcnt = 0
  noOffer : s.txOffer = none
  seed : s.acc = 0xFFFFFFFF
  plen : s.plen.toNat = p.length
  flen : s.flen = frameLength p
  bytes : s.pb.readList 0 p.length = p
  fits : p.length ≤ Config.payloadMax

theorem readyToSend_marshalled (hwf : Memory.wf s.pb) (ho : s.txOffer = none)
    (hp : p.length ≤ Config.payloadMax) : ReadyToSend p (marshalled p s) :=
  have h := payloadLoaded_marshalled (s := s) hwf hp
  ⟨rfl, rfl, rfl, ho, rfl, h.plen, rfl, h.bytes, hp⟩

/-! ### The frame -/

/-- The accumulator after the length and the payload is the trailer's value (R122). -/
theorem crcAbsorbAll_covered (p : List Byte) :
    crcAbsorbAll crcParams (crcAbsorbAll crcParams 0xFFFFFFFF (le16 (frameLength p))) p =
      crc32 (coveredBytes p) :=
  (crcAbsorbAll_append crcParams _ _ _).symm

/-- `s` with the length field sent (R183). -/
def lengthSent (s : State) : State :=
  { absorbing s (crcAbsorbAll crcParams s.acc (le16 s.flen)) 0 none with
    fsm := .txPayload, tx := s.tx ++ le16 s.flen }

/-- `s` with the length field and the payload `p` sent (R184). -/
def payloadSent (p : List Byte) (s : State) : State :=
  { s with fsm := .txPayload, idx := s.plen, acc := crc32 (coveredBytes p), bitcnt := 0,
           txOffer := none, chunkEvt := none, tx := s.tx ++ coveredBytes p }

theorem fed_payload (hq : Quiet s) (hi : s.desc.instr? = some i) (h : ReadyToSend p s) :
    Fed [] s (payloadSent p s) := by
  have hidx : (lengthSent s).idx.toNat = 0 := by rw [show (lengthSent s).idx = 0 from h.idx]; rfl
  have hlen : (lengthSent s).idx.toNat + p.length = s.plen.toNat := by rw [hidx, Nat.zero_add, h.plen]
  have hbytes : s.pb.readList (lengthSent s).idx.toNat p.length = p := by rw [hidx, h.bytes]
  have hacc : crcAbsorbAll crcParams (lengthSent s).acc p = crc32 (coveredBytes p) := by
    rw [← crcAbsorbAll_covered, ← h.flen, ← h.seed]
    rfl
  have htx : (lengthSent s).tx ++ p = s.tx ++ coveredBytes p := by
    rw [coveredBytes, ← h.flen, ← List.append_assoc]
    rfl
  have hpulse : (if p = [] then (lengthSent s).chunkEvt else none) = none := ite_self none
  refine (fed_txLen hq h.fsm hi h.bitcnt h.noOffer h.idx).trans ?_
  have sent := fed_txPayload (s := lengthSent s) p hq rfl hi rfl rfl hlen (h.plen.trans_le h.fits) hbytes
  rw [hacc, htx, hpulse] at sent
  exact sent

theorem fed_frame (hq : Quiet s) (hi : s.desc.instr? = some i) (h : ReadyToSend p s) :
    Fed [] s (frameSent p s) := by
  have htx : (payloadSent p s).tx ++ le32 (payloadSent p s).acc = s.tx ++ encodeFrame p :=
    List.append_assoc _ _ _
  have sent := fed_txCrc (i := i) (s := payloadSent p s) hq rfl hi rfl rfl rfl
  rw [htx] at sent
  exact (fed_payload hq hi h).trans sent

/-! ### The response -/

/-- What is taken of the receive side is a refusing status byte, or `ACK`, a length and that many bytes. -/
theorem decodeResponse_eq_some {rx rest : List Byte} {r : Response}
    (h : decodeResponse rx = some (r, rest)) :
    (∃ b, b ≠ ackByte ∧ rx = b :: rest ∧ r = { ack := false, stByte := b, data := [] }) ∨
    (∃ (n : Byte) (data : List Byte), n.toNat = data.length ∧ rx = ackByte :: n :: (data ++ rest) ∧
      r = { ack := true, stByte := ackByte, data := data }) := by
  rcases rx with _ | ⟨b, rx⟩
  · cases h
  · by_cases hb : b = ackByte
    · subst hb
      rcases rx with _ | ⟨n, more⟩
      · cases h
      · by_cases hn : n.toNat ≤ more.length
        · rw [decodeResponse_ackByte_of_le hn] at h
          cases h
          exact .inr ⟨n, more.take n.toNat, by rw [List.length_take, Nat.min_eq_left hn],
            by rw [List.take_append_drop], rfl⟩
        · rw [decodeResponse, if_pos rfl, if_neg hn] at h
          cases h
    · rw [decodeResponse_of_ne_ackByte hb] at h
      cases h
      exact .inl ⟨b, hb, rfl, rfl⟩

theorem exchange_eq_some {rx : List Byte} {x : ExchangeResult} (h : exchange p rx = some x) :
    x.sent = encodeFrame p ∧ decodeResponse rx = some (x.response, x.rest) := by
  unfold exchange at h
  split at h
  · rename_i r rest hd
    cases h
    exact ⟨rfl, hd⟩
  · cases h

/-- With quiet pins a waiting byte is taken in an `RX_*` state. -/
theorem fed_receives {b : Byte} {bs : List Byte} {t : State} (hq : Quiet s)
    (hr : s.fsm.receiving = true) (hx : s.rx = b :: bs) (hi : s.desc.instr? = some i)
    (he : s.now.linkErr = false → s.rxOffered = some b → exec i s = .next t) (ht : Quiet t)
    (hc : t.chunkEvt = none) : Fed [] s t :=
  fed_quiet hq (Fsm.ne_idle_of_running (Fsm.running_of_receiving hr))
    (fun _ h => List.cons_ne_nil _ _ (hx.symm.trans h)) hi
    (he (by rw [State.now_quiet s hq]; rfl) (by rw [rxOffered_quiet hq, hx]; rfl)) ht hc

/-- `s` with `ACK` taken (R186). -/
def ackTaken (s : State) : State :=
  { s with rx := s.rx.tail, stByte := ackByte, tmo := 0, fsm := .rxLen, chunkEvt := none }

/-- `s` with the length byte `n` taken (R187). -/
def lengthTaken (n : Byte) (s : State) : State :=
  { s with rx := s.rx.tail, dataLen := n, ack := true, idx := 0, tmo := 0,
           fsm := if n = 0 then .decode else .rxData, chunkEvt := none }

theorem responseTaken_refusal {b : Byte} {rest : List Byte} (h0 : s.idx = 0) (hx : s.rx = b :: rest) :
    responseTaken { ack := false, stByte := b, data := [] } rest s = { s with
      rx := s.rx.tail, stByte := b, ack := false, dataLen := 0, tmo := 0, fsm := .decode,
      chunkEvt := none } := by
  cases s
  cases h0
  cases hx
  rfl

theorem responseTaken_noData {rest : List Byte} (hx : s.rx = ackByte :: 0 :: rest) :
    responseTaken { ack := true, stByte := ackByte, data := [] } rest s = lengthTaken 0 (ackTaken s) := by
  cases s
  cases hx
  rfl

/-- `RX_LEN` and `RX_DATA` take the rest of an acknowledged response (R187, R188). -/
theorem fed_acknowledged {n : Byte} {data rest : List Byte} (hq : Quiet s)
    (hi : s.desc.instr? = some i) (hn : n.toNat = data.length)
    (hx : s.rx = ackByte :: n :: (data ++ rest)) :
    Fed [] (ackTaken s) (responseTaken { ack := true, stByte := ackByte, data := data } rest s) := by
  have hrx : (ackTaken s).rx = n :: (data ++ rest) := congrArg List.tail hx
  have lengthRead : Fed [] (ackTaken s) (lengthTaken n (ackTaken s)) :=
    fed_receives hq rfl hrx hi (fun hl ho => exec_rxLen_got hl rfl ho) hq rfl
  refine lengthRead.trans ?_
  by_cases hz : n = 0
  · have hnil : data = [] := List.eq_nil_of_length_eq_zero (by rw [← hn, hz]; rfl)
    subst hz hnil
    rw [responseTaken_noData (rest := rest) hx]
    exact .refl _
  · have hne : data ≠ [] := by
      rintro rfl
      exact hz (BitVec.eq_of_toNat_eq hn)
    have hn8 : BitVec.ofNat 8 data.length = n := by rw [← hn, BitVec.ofNat_toNat, BitVec.setWidth_eq]
    have hidx : BitVec.ofNat 11 data.length = n.setWidth 11 := by rw [← hn, BitVec.ofNat_toNat]
    have dataRead := fed_rxData (i := i) (s := lengthTaken n (ackTaken s)) data rest hq (if_neg hz) hi
      ((Nat.zero_add _).trans hn.symm) hne (congrArg List.tail hrx)
    rw [responseTaken, hn8, hidx]
    exact dataRead

/-- `RX_STATUS` and what follows it take one whole response (R186 to R188). -/
theorem fed_response {r : Response} {rest : List Byte} (hq : Quiet s) (hf : s.fsm = .rxStatus)
    (hi : s.desc.instr? = some i) (h0 : s.idx = 0) (h : decodeResponse s.rx = some (r, rest)) :
    Fed [] s (responseTaken r rest s) := by
  have hr : s.fsm.receiving = true := by rw [hf]; rfl
  obtain ⟨b, hb, hx, rfl⟩ | ⟨n, data, hn, hx, rfl⟩ := decodeResponse_eq_some h
  · rw [responseTaken_refusal h0 hx]
    exact fed_receives hq hr hx hi
      (fun hl ho => (exec_rxStatus_got hl hf ho).trans (if_neg hb)) hq rfl
  · have statusRead : Fed [] s (ackTaken s) := fed_receives hq hr hx hi
      (fun hl ho => (exec_rxStatus_got hl hf ho).trans (if_pos rfl)) hq rfl
    exact statusRead.trans (fed_acknowledged hq hi hn hx)

/-- What the registers hold of a response that was taken (R17, R27). -/
structure HoldsResponse (r : Response) (s : State) : Prop where
  ack : s.ack = r.ack
  stByte : s.stByte = r.stByte
  length : s.dataLen.toNat = r.data.length
  data : s.rxb.readList 0 s.dataLen.toNat = r.data

theorem holdsResponse_responseTaken {r : Response} {rx rest : List Byte} (hwf : Memory.wf s.rxb)
    (h : decodeResponse rx = some (r, rest)) : HoldsResponse r (responseTaken r rest s) := by
  have hlt : r.data.length < 256 := by
    obtain ⟨b, -, -, rfl⟩ | ⟨n, data, hn, -, rfl⟩ := decodeResponse_eq_some h
    · exact Nat.zero_lt_succ _
    · exact hn ▸ n.isLt
  have hlen : (responseTaken r rest s).dataLen.toNat = r.data.length := Nat.mod_eq_of_lt hlt
  exact ⟨rfl, rfl, hlen, by rw [hlen]; exact Memory.readList_writeList hwf 0 r.data⟩

/-- The states `TX_LEN` to `RX_DATA` as one run (R195). -/
theorem fed_exchange {r : Response} {rest : List Byte} (hq : Quiet s) (hi : s.desc.instr? = some i)
    (h : ReadyToSend p s) (hd : decodeResponse s.rx = some (r, rest)) :
    Fed [] s (responseTaken r rest (frameSent p s)) :=
  (fed_frame hq hi h).trans (fed_response (s := frameSent p s) hq rfl hi rfl hd)

end Sys2Proof.Machine

open Sys2Proof Sys2Proof.Machine

/-- Settles O56: the run is the frame's and then the response's, which leave every other register alone. -/
theorem statesComputeExchange : Obligations.StatesComputeExchange := by
  intro s i p x hseq hwf hq hi hf hx h0 ho hseed hplen hbytes hexch
  obtain ⟨hsent, hresp⟩ := exchange_eq_some hexch
  have hflen : s.flen = frameLength p := by
    have hthere := (hseq.payloadThere (by rw [hf]; rfl)).2
    have hbound : s.plen.toNat ≤ 1028 := hseq.plenBound
    apply BitVec.eq_of_toNat_eq
    rw [hthere, hplen, frameLength, BitVec.toNat_ofNat, Nat.mod_eq_of_lt (by omega)]
  have hready : ReadyToSend p s :=
    ⟨hf, hx, h0, ho, hseed, hplen, hflen, hbytes, hplen ▸ hseq.plenBound⟩
  have hholds := holdsResponse_responseTaken (s := frameSent p s) hwf hresp
  refine ⟨_, (fed_exchange hq hi hready hresp).reaches, rfl, by rw [hsent]; rfl, rfl, rfl, rfl,
    hholds.length, hholds.data, rfl, rfl, rfl, rfl, hq, rfl, rfl, rfl, rfl, rfl, rfl, rfl, rfl, rfl,
    rfl, rfl⟩
end

section
/-! `DECODE` of a command that is one exchange (43_protocol_sequencer.md R189): the status and the typed
result, for the response that the registers hold. -/
namespace Sys2Proof.Machine

variable {i : Instr} {s : State} {r : Response}

/-- `s` after `DECODE` of command `i` (R189). -/
def decoded (i : Instr) (s : State) : State :=
  if s.ack then onAckOf i s.lowerPulse else State.raise .nack .none s.lowerPulse

theorem decoded_frame (i : Instr) (s : State) :
    decoded i s = s.lowerPulse.withDecoded (decoded i s) := by
  unfold decoded
  split
  · exact onAckOf_frame i s.lowerPulse
  · rfl

/-- `DECODE` ends the command, with no sub-cause. -/
theorem decoded_ends (ht : i.isTransfer = false) : DecodeEnds s.lowerPulse (decoded i s) := by
  unfold decoded
  split
  · exact onAckOf_ends ht
  · exact raise_ends .nack

theorem Memory.take_readList (m : Memory) (a : Nat) {n k : Nat} (h : k ≤ n) :
    (m.readList a n).take k = m.readList a k := by
  obtain ⟨d, rfl⟩ := Nat.exists_eq_add_of_le h
  rw [Memory.readList_add, List.take_left' (Memory.length_readList m a k)]

theorem Memory.getD_readList (m : Memory) {n j : Nat} (h : j < n) (d : Byte) :
    (m.readList 0 n).getD j d = m.read j := by
  have hlen : j < (m.readList 0 n).length := by rwa [Memory.length_readList]
  rw [List.getD_eq_getElem _ _ hlen, Memory.getElem_readList, Nat.zero_add]

/-- A decode that uses `n` data bytes ends with `SHORT_RESPONSE` exactly when there are fewer (R154). -/
theorem needsData_status {n : Nat} {use : State → State} :
    (needsData n use s).status = if s.dataLen.toNat < n then .shortResponse else .ok := by
  unfold needsData
  split <;> rfl

theorem decodeHelp_status :
    (decodeHelp s).status = if 10 < s.dataLen.toNat then .helpOverflow else .ok := by
  unfold decodeHelp
  split <;> rfl

/-- The status of an acknowledged response is its command's rule (42_command_protocol.md R143 to R152). -/
theorem onAckOf_status (ht : i.isTransfer = false) (h : s.dataLen.toNat = r.data.length) :
    (onAckOf i s).status = ackStatus i r.data := by
  cases i with
  | memWrite => cases ht
  | getVersion | getChipId | getRdpStatus => simp only [onAckOf, ackStatus, needsData_status, h]
  | getHelp => simp only [onAckOf, ackStatus, decodeHelp_status, h]
  | _ => rfl

theorem decoded_status (ht : i.isTransfer = false) (h : HoldsResponse r s) :
    (decoded i s).status = exchangeStatus i r := by
  unfold decoded exchangeStatus
  rw [h.ack]
  split
  · exact onAckOf_status (s := s.lowerPulse) ht h.length
  · rfl

theorem needsData_of_ok {n : Nat} {use : State → State} (hok : (needsData n use s).status = .ok) :
    n ≤ s.dataLen.toNat ∧ needsData n use s = (use s).finish := by
  obtain ⟨-, e⟩ | h := needsData_cases n use s
  · rw [e] at hok; cases hok
  · exact h

/-- The typed result of an acknowledged response that is accepted (R143 to R152). -/
theorem onAckOf_typedResult (h : HoldsResponse r s) (hok : (onAckOf i s).status = .ok) :
    TypedResult i r.data (onAckOf i s) := by
  rw [← h.data]
  cases i with
  | getVersion =>
    obtain ⟨hlen, e⟩ := needsData_of_ok hok
    show TypedResult .getVersion _ (needsData 4 takeVersion s)
    rw [e, TypedResult, Memory.take_readList _ _ hlen]
    rfl
  | getHelp =>
    have hfits : s.dataLen.toNat ≤ 10 := by
      by_contra hbig
      rw [onAckOf, decodeHelp_overflow (Nat.not_le.1 hbig)] at hok
      cases hok
    show TypedResult .getHelp _ (decodeHelp s)
    rw [decodeHelp_fits hfits, TypedResult, Memory.length_readList]
    exact (BitVec.toNat_setWidth 4 s.dataLen).trans (Nat.mod_eq_of_lt (by omega))
  | getChipId =>
    obtain ⟨hlen, e⟩ := needsData_of_ok hok
    show TypedResult .getChipId _ (needsData 2 takeChipId s)
    rw [e, TypedResult, Memory.getD_readList _ (by omega), Memory.getD_readList _ (by omega)]
    exact half16_toNat _ _
  | getRdpStatus =>
    obtain ⟨hlen, e⟩ := needsData_of_ok hok
    show TypedResult .getRdpStatus _ (needsData 1 takeRdpStatus s)
    rw [e, TypedResult, Memory.getD_readList _ (by omega)]
    rfl
  | memRead => rfl
  | _ => trivial

theorem decoded_typedResult (h : HoldsResponse r s) (hok : (decoded i s).status = .ok) :
    TypedResult i r.data (decoded i s) := by
  unfold decoded at hok ⊢
  split at hok
  · rename_i hack
    rw [if_pos hack]
    exact onAckOf_typedResult (s := s.lowerPulse) ⟨h.ack, h.stByte, h.length, h.data⟩ hok
  · cases hok

end Sys2Proof.Machine
end

section
/-! A command that is one exchange, from `IDLE` to `IDLE` (43_protocol_sequencer.md R196): first with quiet
pins and the response waiting, then with the response still to arrive. -/
namespace Sys2Proof.Machine

variable {i : Instr} {s t : State} {c : HostCommand} {cs : List HostCommand} {r : Response}
  {rest : List Byte}

/-- `s` after the accept of descriptor `d`, with the image `img` in `IMG` (R181). -/
def accepted (d : Descriptor) (img : Memory) (s : State) : State :=
  { s with img := img, desc := d, busy := true, resValid := false, status := .ok, subcause := .none,
           ack := false, stByte := 0x00, dataLen := 0, host := s.host.tail, chunkEvt := none,
           fsm := .marshal }

theorem fed_accept (hq : Quiet s) (hf : s.fsm = .idle) (hh : s.host = c :: cs)
    (hi : c.desc.instr? = some i) (ht : i.isTransfer = false) (hv : validate c.desc = none) :
    ∃ img, Fed [] s (accepted c.desc img s) := by
  have hnow := State.now_quiet s hq
  have hp : s.portDescriptor = c.desc := by rw [State.portDescriptor, hh]
  have hc : s.cmdValid = true := by rw [State.cmdValid, hnow, hh]; rfl
  have hlatch : i.latch s.hostWritesImage.portDescriptor = c.desc := by
    rw [hostWritesImage_portDescriptor, hp, latch_of_instr? hi]
  have hf' : s.hostWritesImage.fsm = .idle := by rw [hostWritesImage_eq]; exact hf
  refine ⟨s.hostWritesImage.img, .one ?_ (not_awaiting (by rw [hf]; rfl)) rfl⟩
  rw [step_of_port (by rw [hnow]; rfl) hf hc (hp ▸ hi),
    exec_idle_oneExchange hf' ht (by rw [hlatch, hv]), hlatch, hostWritesImage_eq]
  exact congrArg _ (State.advance_quiet (accepted c.desc s.hostWritesImage.img s) hq)

/-- `DECODE` and `DONE` of a command that is one exchange (R189, R191). -/
theorem fed_decode (hq : Quiet s) (hf : s.fsm = .decode) (hi : s.desc.instr? = some i)
    (ht : i.isTransfer = false) : Fed [] s (decoded i s).lowerPulse.presentResult := by
  have hframe := decoded_frame i s
  have hdone : (decoded i s).fsm = .done := (decoded_ends ht).fsm
  have hdesc : (decoded i s).desc.instr? = some i := by rw [hframe]; exact hi
  have hq' : Quiet (decoded i s) := by rw [hframe]; exact hq
  have hpulse : (decoded i s).chunkEvt = none := by rw [hframe]; rfl
  have toDone : Fed [] s (decoded i s) :=
    fed_quiet hq (by rw [hf]; decide) (not_awaiting (by rw [hf]; rfl)) hi
      (exec_decode_oneExchange ht hf) hq' hpulse
  exact toDone.trans (fed_quiet hq' (by rw [hdone]; decide) (not_awaiting (by rw [hdone]; rfl)) hdesc
    (exec_done hdone) hq' rfl)

/-- `t` is `s` after the whole of command `i`, which was descriptor `d`, sent the bytes `sent` and had the
response `r` (R196). -/
structure CommandRan (i : Instr) (d : Descriptor) (sent : List Byte) (r : Response) (s t : State) :
    Prop where
  fsm : t.fsm = .idle
  busy : t.busy = false
  resValid : t.resValid = true
  tx : t.tx = s.tx ++ sent
  host : t.host = s.host.tail
  desc : t.desc = d
  status : t.status = exchangeStatus i r
  subcause : t.subcause = .none
  response : HoldsResponse r t
  typed : t.status = .ok → TypedResult i r.data t
  boundary : t.boundary = s.boundary

/-- A state in `DECODE` that holds the response, after its decode and the presenting of the result. -/
theorem commandRan_presented {u : State} {sent : List Byte} (ht : i.isTransfer = false)
    (hr : HoldsResponse r u) (hsub : u.subcause = .none) (htx : u.tx = s.tx ++ sent)
    (hh : u.host = s.host.tail) (hb : u.boundary = s.boundary) :
    CommandRan i u.desc sent r s (decoded i u).lowerPulse.presentResult := by
  have hframe := decoded_frame i u
  have hr' : HoldsResponse r (decoded i u) := by
    rw [hframe]
    exact ⟨hr.ack, hr.stByte, hr.length, hr.data⟩
  exact {
    fsm := rfl
    busy := rfl
    resValid := rfl
    tx := (congrArg State.tx hframe).trans htx
    host := (congrArg State.host hframe).trans hh
    desc := (congrArg State.desc hframe).trans rfl
    status := decoded_status ht hr
    subcause := (decoded_ends ht).noCause hsub
    response := ⟨hr'.ack, hr'.stByte, hr'.length, hr'.data⟩
    typed := fun hok => by
      have h := decoded_typedResult hr hok
      cases i <;> exact h
    boundary := (congrArg State.boundary hframe).trans hb }

/-- With quiet pins and the whole response waiting, the command runs to its result. -/
theorem fed_oneExchange (hq : Quiet s) (hf : s.fsm = .idle) (ho : s.txOffer = none)
    (hpb : Memory.wf s.pb) (hrxb : Memory.wf s.rxb) (hh : s.host = c :: cs)
    (hi : c.desc.instr? = some i) (ht : i.isTransfer = false) (hv : validate c.desc = none)
    (hd : decodeResponse s.rx = some (r, rest)) :
    ∃ t, Fed [] s t ∧ t.rx = rest ∧ CommandRan i c.desc (encodeFrame (encode i [])) r s t := by
  obtain ⟨img, accept⟩ := fed_accept hq hf hh hi ht hv
  have marshal : Fed [] (accepted c.desc img s) (marshalled (encode i []) (accepted c.desc img s)) :=
    fed_quiet hq (Fsm.ne_idle_of_running rfl) nofun hi (sendsPayload_encode ht _ rfl) hq rfl
  have hready : ReadyToSend (encode i []) (marshalled (encode i []) (accepted c.desc img s)) :=
    readyToSend_marshalled hpb ho ((length_encode_le ht).trans (by decide))
  have exchange := fed_exchange (s := marshalled (encode i []) (accepted c.desc img s)) hq hi hready hd
  have hholds := holdsResponse_responseTaken
    (s := frameSent (encode i []) (marshalled (encode i []) (accepted c.desc img s))) hrxb hd
  have decode := fed_decode (s := responseTaken r rest (frameSent (encode i []) (marshalled (encode i [])
    (accepted c.desc img s)))) hq rfl hi ht
  refine ⟨_, accept.trans (marshal.trans (exchange.trans decode)),
    congrArg State.rx (decoded_frame i _),
    commandRan_presented ht hholds rfl rfl rfl rfl⟩

/-- What still waits on the link, and the pins, are no part of it. -/
theorem CommandRan.of_arrived {d : Descriptor} {sent : List Byte}
    (h : CommandRan i d sent r s.arrived t.arrived) : CommandRan i d sent r s t :=
  { h with
    response := ⟨h.response.ack, h.response.stByte, h.response.length, h.response.data⟩
    typed := fun hok => by
      have h := h.typed hok
      cases i <;> exact h }

end Sys2Proof.Machine

open Sys2Proof Sys2Proof.Machine

/-- Settles O57: the run with the whole response waiting is matched by the one in which it arrives. -/
theorem oneExchangeCommandRuns : Obligations.OneExchangeCommandRuns := by
  intro s c cs i x hinv hcalm hf hh hi ht hv hx
  obtain ⟨hsent, hresp⟩ := exchange_eq_some hx
  have ho : s.txOffer = none := hinv.sequencer.noOffer (by rw [hf]; rfl)
  obtain ⟨u, hfed, hrest, hran⟩ := fed_oneExchange (s := s.arrived) hcalm.quiet_arrived hf ho
    hinv.buffers.pbForm hinv.buffers.rxbForm hh hi ht hv hresp
  obtain ⟨n, t, hrun, htcalm, rfl, -⟩ := hcalm.fed hfed
  have h : CommandRan i c.desc (encodeFrame (encode i [])) x.response s t := hran.of_arrived
  have hhost : t.host = cs := by rw [h.host, hh]; rfl
  have hboundary : TargetAtBoundary s → TargetAtBoundary t := fun hb =>
    hb.sent ((length_encode_le ht).trans (by decide)) h.boundary h.tx
  exact ⟨t, ⟨n, hrun⟩, h.fsm, h.busy, h.resValid, hsent ▸ h.tx, hrest, hhost, h.desc, h.status, h.subcause,
    h.response.ack, h.response.stByte, h.response.length, h.response.data, h.typed, htcalm, hboundary,
    fun hduties hnil => hduties.again hcalm htcalm hf hh hhost (hrest.trans hnil) hboundary⟩
end

section
/-! The chunks of a transfer (44_transfer_session.md R201), and what `NEXT_CHUNK` makes of one (R203). -/
namespace Sys2Proof.Machine

variable {s : State} {n : Nat}

/-- Only the last chunk may be shorter than a whole one (R201). -/
theorem chunkLength_of_more {j : Nat} (h : j + 1 < chunkCount n) : chunkLength n j = Config.chunkMax := by
  unfold chunkCount at h
  unfold chunkLength Config.chunkMax
  omega

/-- The last chunk has what is left of the image (R201). -/
theorem chunkLength_last (n : Nat) :
    chunkLength n (chunkCount n - 1) = n - Config.chunkMax * (chunkCount n - 1) := by
  unfold chunkLength chunkCount Config.chunkMax
  omega

/-- The first `m` chunks are consecutive from the image's first byte (R201). -/
theorem flatten_chunks (img : Memory) (n m : Nat) :
    ((List.range m).map (chunkBytes img n)).flatten = img.readList 0 (min n (Config.chunkMax * m)) := by
  induction m with
  | zero => rw [Nat.mul_zero, Nat.min_zero]; rfl
  | succ m ih =>
    rw [List.range_succ, List.map_append, List.flatten_append, ih, List.map_singleton,
      List.flatten_singleton, chunkBytes]
    by_cases h : Config.chunkMax * m ≤ n
    · have hlen : min n (Config.chunkMax * (m + 1)) = Config.chunkMax * m + chunkLength n m := by
        unfold chunkLength Config.chunkMax at *
        omega
      rw [Nat.min_eq_right h, hlen, Memory.readList_add, Nat.zero_add]
    · have hnone : chunkLength n m = 0 := by
        unfold chunkLength Config.chunkMax at *
        omega
      rw [hnone, Nat.min_eq_left (by omega),
        Nat.min_eq_left (by unfold Config.chunkMax at *; omega)]
      exact List.append_nil _

/-- `NEXT_CHUNK` goes on to `MARSHAL` or ends the transfer (R190). -/
theorem nextChunkStep_of_more (h : moreChunks s = true) :
    nextChunkStep s = { recordChunk s with fsm := .marshal } := if_pos h

theorem nextChunkStep_of_last (h : moreChunks s = false) : nextChunkStep s =
    { recordChunk s with status := transferStatus (recordChunk s).xferFailures, fsm := .done } :=
  if_neg (Bool.eq_false_iff.1 h)

/-- With an index that does not wrap, whatever the number of chunks (R190, R207). -/
theorem moreChunks_of_lt (hk : s.k.toNat < 255) : moreChunks s = true ↔
    s.k.toNat + 1 < s.nchunks.toNat ∧ ¬ (s.params.xferFailStop = true ∧ s.ack = false) := by
  have hlt : (recordChunk s).k < s.nchunks ↔ s.k.toNat + 1 < s.nchunks.toNat := by
    show s.k + 1 < s.nchunks ↔ _
    bv_omega
  rw [moreChunks, Bool.and_eq_true_iff, decide_eq_true_iff, hlt]
  cases s.params.xferFailStop <;> cases s.ack <;> simp

/-- The fail map after a chunk is recorded: bit `k` set when it was refused, every other bit kept (R203). -/
theorem getLsbD_failMap_recordChunk (hk : s.k.toNat < 128) (j : Nat) :
    (recordChunk s).xferFailMap.getLsbD j =
      (s.xferFailMap.getLsbD j || (!s.ack && j == s.k.toNat)) := by
  rw [recordChunk]
  cases s.ack with
  | true => exact (Bool.or_false _).symm
  | false => exact getLsbD_setFailBit s.xferFailMap hk

end Sys2Proof.Machine

open Sys2Proof Sys2Proof.Machine

/-- Settles O54: every move of a running transfer keeps it, and every other ends or starts one. -/
theorem transferInvariant : Obligations.TransferInvariant :=
  fun _ _ hseq htransfer hstep => htransfer.of_step hseq hstep

/-- Settles O41: the chunk is recorded, and then another follows or the transfer ends. -/
theorem nextChunkRule : Obligations.NextChunkRule := by
  intro i s hf hk
  have hmap : ∀ j, j < 128 → (recordChunk s.lowerPulse).xferFailMap.getLsbD j =
      (s.xferFailMap.getLsbD j || (!s.ack && j == s.k.toNat)) :=
    fun j _ => getLsbD_failMap_recordChunk (s := s.lowerPulse) hk j
  have hmore : moreChunks s.lowerPulse = true ↔ s.k.toNat + 1 < s.nchunks.toNat ∧
      ¬ (s.params.xferFailStop = true ∧ s.ack = false) :=
    moreChunks_of_lt (s := s.lowerPulse) (hk.trans (by decide))
  refine ⟨nextChunkStep s.lowerPulse, exec_nextChunk hf, ?_⟩
  rcases hm : moreChunks s.lowerPulse
  · rw [nextChunkStep_of_last hm]
    have hends := mt hmore.2 (Bool.eq_false_iff.1 hm)
    exact ⟨rfl, rfl, hmap, rfl, rfl, rfl, by rw [if_neg hends]; exact ⟨rfl, rfl⟩, rfl⟩
  · rw [nextChunkStep_of_more hm]
    exact ⟨rfl, rfl, hmap, rfl, rfl, rfl, by rw [if_pos (hmore.1 hm)]; exact ⟨rfl, rfl⟩, rfl⟩

/-- Settles O43: the chunks before any index are the image up to there, and the last one ends it. -/
theorem chunksAreTheImage : Obligations.ChunksAreTheImage := by
  intro img n
  refine ⟨rfl, chunkCount_eq_zero.2, fun _ => rfl, fun _ => chunkLength_of_more, fun hn => ?_,
    chunkCount_le, ?_⟩
  · have hlast : chunkCount n - 1 < chunkCount n :=
      Nat.sub_one_lt (mt chunkCount_eq_zero.1 (Nat.ne_of_gt hn))
    exact ⟨chunkLength_last n, (chunk_bounds hlast).2, chunkLength_le n _⟩
  · have hall : n ≤ Config.chunkMax * chunkCount n := by
      unfold Config.chunkMax chunkCount
      omega
    rw [flatten_chunks, Nat.min_eq_left hall]
end

section
/-! One chunk of a transfer, from `MARSHAL` to `NEXT_CHUNK` (44_transfer_session.md R202, R203), and `Transfer()`'s
own account of it (R200). -/
namespace Sys2Proof.Machine

variable {s u : State} {img : Memory} {page : Byte} {len : BitVec 18} {k n left : Nat}
  {r r' : TransferResult}

/-- The chunk event of chunk `k`, with its response `y` (R203). -/
def TransferResult.eventOf (r : TransferResult) (k : Nat) (y : Response) : ChunkEvent :=
  { index := BitVec.ofNat 8 k, page := r.curPage, ok := y.ack }

/-- `r` with the exchange `x` of chunk `k` recorded (R200, R203). -/
def TransferResult.recorded (r : TransferResult) (k : Nat) (x : ExchangeResult) : TransferResult :=
  { sent := r.sent ++ x.sent,
    attempts := r.attempts + 1,
    failures := if x.response.ack then r.failures else r.failures + 1,
    failMap := if x.response.ack then r.failMap else setFailBit r.failMap k,
    curPage := r.curPage + 1,
    events := r.events ++ [r.eventOf k x.response],
    last := some x.response,
    rest := x.rest }

/-- Where another chunk is left, `Transfer()` makes its exchange, records it, and goes on unless the fail-stop
policy ends it (R200, R207). -/
theorem transferLoop_succ {failStop : Bool}
    (h : transferLoop img n failStop (left + 1) k r = some r') :
    ∃ x, exchange (chunkPayload r.curPage (chunkBytes img n k)) r.rest = some x ∧
      (if failStop = true ∧ x.response.ack = false then some (r.recorded k x)
        else transferLoop img n failStop left (k + 1) (r.recorded k x)) = some r' := by
  rw [transferLoop] at h
  split at h
  · cases h
  · rename_i x hx
    change (if failStop && !x.response.ack then some (r.recorded k x)
      else transferLoop img n failStop left (k + 1) (r.recorded k x)) = some r' at h
    exact ⟨x, hx, by simpa using h⟩

/-- The payload that `MARSHAL` builds for the chunk of `u`, of an image of `n` bytes (R202). -/
def payloadOfChunk (n : Nat) (u : State) : List Byte :=
  chunkPayload u.curPage (chunkBytes u.img n u.k.toNat)

theorem length_payloadOfChunk_le (n : Nat) (u : State) :
    (payloadOfChunk n u).length ≤ Config.payloadMax := by
  rw [payloadOfChunk, length_chunkPayload, length_chunkBytes]
  exact Nat.add_le_add_right (chunkLength_le n u.k.toNat) 4

/-- `u` with its chunk marshalled (R202). -/
def chunkMarshalled (n : Nat) (u : State) : State :=
  marshalled (payloadOfChunk n u) { u with clen := BitVec.ofNat 11 (chunkLength n u.k.toNat) }

/-- `u` in `NEXT_CHUNK`, with its chunk's frame sent and the response `y` to it taken (R189, R202). -/
def chunkAnswered (n : Nat) (y : Response) (rest : List Byte) (u : State) : State :=
  { responseTaken y rest (frameSent (payloadOfChunk n u) (chunkMarshalled n u)) with fsm := .nextChunk }

/-- After a chunk's exchange, whatever its outcome (R189). -/
theorem exec_decode_memWrite (page : Byte) (len : BitVec 18) (hf : s.fsm = .decode) :
    exec (.memWrite page len) s = .next { s with fsm := .nextChunk, chunkEvt := none } := exec_decode hf

/-- The exchange of the chunk of a running transfer. -/
theorem fed_chunk {y : Response} {rest : List Byte} (hinv : Inv u) (hq : Quiet u) (hf : u.fsm = .marshal)
    (hi : u.desc.instr? = some (.memWrite page len)) (hd : decodeResponse u.rx = some (y, rest)) :
    Fed [] u (chunkAnswered len.toNat y rest u) := by
  have hr : u.fsm.running = true := by rw [hf]; rfl
  obtain ⟨h7, -, hlen⟩ := memWrite_of_instr? hi
  obtain ⟨hcount, hk⟩ := hinv.transfer.chunks hr h7
  have hin : 1024 * u.k.toNat < len.toNat := by
    rw [hlen]
    unfold chunkCount at hcount
    omega
  have marshal : Fed [] u (chunkMarshalled len.toNat u) :=
    fed_quiet hq (Fsm.ne_idle_of_running hr) (not_awaiting (by rw [hf]; rfl)) hi
      (exec_marshal_memWrite page hf (hlen ▸ hinv.sequencer.imageFits hr h7) hin) hq rfl
  have hready : ReadyToSend (payloadOfChunk len.toNat u) (chunkMarshalled len.toNat u) :=
    readyToSend_marshalled hinv.buffers.pbForm (hinv.sequencer.noOffer (by rw [hf]; rfl))
      (length_payloadOfChunk_le len.toNat u)
  have answered := fed_exchange (s := chunkMarshalled len.toNat u) hq hi hready hd
  have decode : Fed [] (responseTaken y rest (frameSent (payloadOfChunk len.toNat u)
      (chunkMarshalled len.toNat u))) (chunkAnswered len.toNat y rest u) :=
    fed_quiet hq (Fsm.ne_idle_of_running rfl) (not_awaiting rfl) hi (exec_decode_memWrite page len rfl)
      hq rfl
  exact marshal.trans (answered.trans decode)

end Sys2Proof.Machine
end

section
/-! A whole transfer, from `IDLE` to `IDLE` (44_transfer_session.md R200): first with quiet pins and all
responses waiting, then with the responses still to arrive. -/
namespace Sys2Proof.Machine

variable {i : Instr} {s t u : State} {c : HostCommand} {cs : List HostCommand} {d : Descriptor}
  {img : Memory} {page : Byte} {len : BitVec 18} {left : Nat} {r r' : TransferResult} {x : ExchangeResult}

/-! ### What the registers hold after a part of the transfer -/

/-- What the response registers hold after the exchanges of a transfer, `last` being the last one's response:
with no exchange made, what the accept has left in them (R17, R181). -/
def HoldsLast (last : Option Response) (u : State) : Prop :=
  match last with
  | none => u.ack = false ∧ u.stByte = 0x00 ∧ u.dataLen = 0
  | some y => u.ack = y.ack ∧ u.stByte = y.stByte ∧ u.dataLen.toNat = y.data.length ∧
      u.rxb.readList 0 u.dataLen.toNat = y.data

/-- `u` is the state `s`, in which the descriptor `d` was accepted with the image `img`, after the part of its
transfer that `r` reports (R200). -/
structure Transferred (d : Descriptor) (img : Memory) (s : State) (r : TransferResult) (u : State) :
    Prop where
  quiet : Quiet u
  desc : u.desc = d
  img : u.img = img
  host : u.host = s.host.tail
  params : u.params = s.params
  subcause : u.subcause = .none
  nchunks : u.nchunks.toNat = chunkCount d.imgLen.toNat
  tx : u.tx = s.tx ++ r.sent
  rx : u.rx = r.rest
  k : u.k.toNat = r.attempts
  attempts : u.xferAttempts.toNat = r.attempts
  failures : u.xferFailures.toNat = r.failures
  failMap : u.xferFailMap = r.failMap
  curPage : u.curPage = r.curPage
  last : HoldsLast r.last u
  boundary : TargetAtBoundary s → TargetAtBoundary u

/-- The index and the count of failures of a running transfer are below 255, so neither wraps (R212). -/
theorem Inv.transferBounds (h : Inv u) (hr : u.fsm.running = true) (h7 : u.desc.sel = 7) :
    u.k.toNat < 128 ∧ u.xferFailures.toNat ≤ 128 := by
  obtain ⟨hcount, hk⟩ := h.transfer.chunks hr h7
  have hmax := chunkCount_le (h.sequencer.imageFits hr h7)
  exact ⟨by omega, (h.transfer.failures hr h7).trans_le (failBits_le _)⟩

/-- The payload of the next chunk is the one `Transfer()` names (R200, R202). -/
theorem Transferred.payloadOfChunk (h : Transferred d img s r u) (n : Nat) :
    payloadOfChunk n u = chunkPayload r.curPage (chunkBytes img n r.attempts) := by
  rw [Machine.payloadOfChunk, h.curPage, h.img, h.k]

/-- The exchange of a chunk, once recorded, is the one that `Transfer()` has recorded (R203). -/
theorem Transferred.recordChunk (h : Transferred d img s r u) (hinv : Inv u) (hf : u.fsm = .marshal)
    (h7 : u.desc.sel = 7) {n : Nat} (hx : exchange (Machine.payloadOfChunk n u) u.rx = some x) :
    Transferred d img s (r.recorded r.attempts x)
      (recordChunk (chunkAnswered n x.response x.rest u)) := by
  obtain ⟨hsent, hd⟩ := exchange_eq_some hx
  obtain ⟨hk, hfailures⟩ := hinv.transferBounds (by rw [hf]; rfl) h7
  have hnext : ∀ {v : Byte} {m : Nat}, v.toNat = m → m ≤ 128 → (v + 1).toNat = m + 1 := by
    intro v m hv hm
    bv_omega
  have hholds := holdsResponse_responseTaken
    (s := frameSent (Machine.payloadOfChunk n u) (chunkMarshalled n u)) hinv.buffers.rxbForm hd
  exact {
    quiet := h.quiet
    desc := h.desc
    img := h.img
    host := h.host
    params := h.params
    subcause := h.subcause
    nchunks := h.nchunks
    tx := by
      show u.tx ++ encodeFrame (Machine.payloadOfChunk n u) = s.tx ++ (r.sent ++ x.sent)
      rw [h.tx, hsent, List.append_assoc]
    rx := rfl
    k := hnext h.k (h.k ▸ hk.le)
    attempts := hnext h.attempts (h.k ▸ hk.le)
    failures := by
      show (if x.response.ack then u.xferFailures else u.xferFailures + 1).toNat =
        if x.response.ack then r.failures else r.failures + 1
      split
      · exact h.failures
      · exact hnext h.failures (h.failures ▸ hfailures)
    failMap := by
      show (if x.response.ack then u.xferFailMap else setFailBit u.xferFailMap u.k.toNat) =
        if x.response.ack then r.failMap else setFailBit r.failMap r.attempts
      rw [h.failMap, h.k]
    curPage := congrArg (· + 1) h.curPage
    last := ⟨hholds.ack, hholds.stByte, hholds.length, hholds.data⟩
    boundary := fun hb => (h.boundary hb).sent (length_payloadOfChunk_le n u) rfl rfl }

/-! ### The run -/

/-- An invariant that every step keeps holds at the end of a fed run. -/
theorem Inv.of_fed {es : List ChunkEvent} (h : Inv s) (hfed : Fed es s t) : Inv t := by
  obtain ⟨n, hrun, -⟩ := hfed.run
  exact hrun.keeps (fun _ _ hinv hstep => hinv.of_step hstep) h

/-- The step that pulses the chunk event, as a fed run with quiet pins. -/
theorem fed_nextChunk (hq : Quiet s) (hf : s.fsm = .nextChunk) (hi : s.desc.instr? = some i)
    (hp : s.chunkEvt = none) :
    Fed [{ index := s.k, page := s.curPage, ok := s.ack }] s (nextChunkStep s) := by
  have hlow : s.lowerPulse = s := by
    cases s
    cases hp
    rfl
  have hkept : Quiet (nextChunkStep s) ∧ (nextChunkStep s).chunkEvt =
      some { index := s.k, page := s.curPage, ok := s.ack } := by
    unfold nextChunkStep
    split <;> exact ⟨hq, rfl⟩
  have hstep : step s = .next (nextChunkStep s) :=
    step_quiet hq (by rw [hf]; decide) hi ((exec_nextChunk hf).trans (by rw [hlow])) hkept.1
  have hfed := Fed.step hstep (not_awaiting (by rw [hf]; rfl)) (.refl _)
  rw [hkept.2] at hfed
  exact hfed

/-- A count of failures as `NEXT_CHUNK` reads it (R208). -/
theorem transferStatus_of_toNat {v : Byte} {m : Nat} (h : v.toNat = m) :
    transferStatus v = if m = 0 then .ok else .nack := by
  have hzero : v = 0 ↔ m = 0 := by rw [← h]; exact BitVec.toNat_eq
  simp only [transferStatus, hzero]

/-- From `MARSHAL` of a chunk to the next one's, or to the end of the transfer (R190, R203). -/
theorem fed_chunkRecorded (hi : d.instr? = some (.memWrite page len)) (h : Transferred d img s r u)
    (hinv : Inv u) (hf : u.fsm = .marshal)
    (hx : exchange (chunkPayload r.curPage (chunkBytes img len.toNat r.attempts)) r.rest = some x) :
    ∃ v, Fed [r.eventOf r.attempts x.response] u v ∧ Transferred d img s (r.recorded r.attempts x) v ∧
      if r.attempts + 1 < chunkCount len.toNat ∧
          ¬ (s.params.xferFailStop = true ∧ x.response.ack = false)
        then v.fsm = .marshal
        else v.fsm = .done ∧ v.status = if (r.recorded r.attempts x).failures = 0 then .ok else .nack := by
  obtain ⟨h7, -, rfl⟩ := memWrite_of_instr? hi
  have h7' : u.desc.sel = 7 := h.desc ▸ h7
  have hi' : u.desc.instr? = some (.memWrite page d.imgLen) := h.desc ▸ hi
  rw [← h.payloadOfChunk, ← h.rx] at hx
  have hrec := h.recordChunk hinv hf h7' hx
  have hevent : r.eventOf r.attempts x.response =
      { index := u.k, page := u.curPage, ok := x.response.ack } := by
    rw [TransferResult.eventOf, h.curPage, ← h.k, BitVec.ofNat_toNat, BitVec.setWidth_eq]
  have hrun : Fed [r.eventOf r.attempts x.response] u
      (nextChunkStep (chunkAnswered d.imgLen.toNat x.response x.rest u)) := by
    rw [hevent]
    exact (fed_chunk hinv h.quiet hf hi' (exchange_eq_some hx).2).trans
      (fed_nextChunk (s := chunkAnswered d.imgLen.toNat x.response x.rest u) h.quiet rfl hi' rfl)
  have hmore : moreChunks (chunkAnswered d.imgLen.toNat x.response x.rest u) = true ↔
      u.k.toNat + 1 < u.nchunks.toNat ∧
        ¬ (u.params.xferFailStop = true ∧ x.response.ack = false) :=
    moreChunks_of_lt (s := chunkAnswered d.imgLen.toNat x.response x.rest u)
      ((hinv.transferBounds (by rw [hf]; rfl) h7').1.trans (by decide))
  rw [h.k, h.nchunks, h.params] at hmore
  refine ⟨_, hrun, ?_⟩
  rcases hm : moreChunks (chunkAnswered d.imgLen.toNat x.response x.rest u)
  · rw [nextChunkStep_of_last hm, if_neg (mt hmore.2 (Bool.eq_false_iff.1 hm))]
    exact ⟨{ hrec with }, rfl, transferStatus_of_toNat hrec.failures⟩
  · rw [nextChunkStep_of_more hm, if_pos (hmore.1 hm)]
    exact ⟨{ hrec with }, rfl⟩

/-- From `MARSHAL` of any chunk the run does what `Transfer()` has left to do (R200). -/
theorem fed_transferLoop (hi : d.instr? = some (.memWrite page len)) (h : Transferred d img s r u)
    (hinv : Inv u) (hf : u.fsm = .marshal) (hleft : r.attempts + (left + 1) = chunkCount len.toNat)
    (hloop : transferLoop img len.toNat s.params.xferFailStop (left + 1) r.attempts r = some r') :
    ∃ es t, Fed es u t ∧ r'.events = r.events ++ es ∧ Transferred d img s r' t ∧ t.fsm = .done ∧
      t.status = if r'.failures = 0 then .ok else .nack := by
  induction left generalizing r u with
  | zero =>
    obtain ⟨x, hx, hgo⟩ := transferLoop_succ hloop
    obtain ⟨v, hfed, hrec, hnext⟩ := fed_chunkRecorded hi h hinv hf hx
    rw [if_neg (by omega)] at hnext
    have hends : r.recorded r.attempts x = r' := by
      simpa [transferLoop] using hgo
    subst hends
    exact ⟨_, v, hfed, rfl, hrec, hnext⟩
  | succ left ih =>
    obtain ⟨x, hx, hgo⟩ := transferLoop_succ hloop
    obtain ⟨v, hfed, hrec, hnext⟩ := fed_chunkRecorded hi h hinv hf hx
    by_cases hstop : s.params.xferFailStop = true ∧ x.response.ack = false
    · rw [if_neg fun hmore => hmore.2 hstop] at hnext
      rw [if_pos hstop] at hgo
      cases hgo
      exact ⟨_, v, hfed, rfl, hrec, hnext⟩
    · rw [if_pos ⟨by omega, hstop⟩] at hnext
      rw [if_neg hstop] at hgo
      obtain ⟨es, t, hrest, hevents, hdone⟩ := ih hrec (hinv.of_fed hfed) hnext
        (by rw [← hleft]; exact Nat.succ_add_eq_add_succ _ _) hgo
      exact ⟨_, t, hfed.append hrest, by rw [hevents]; exact List.append_assoc _ _ _, hdone⟩

/-! ### The accept and the result -/

/-- `s` after the accept of MemWrite's descriptor `d`, with the image `img` in `IMG` (R181). -/
def transferAccepted (d : Descriptor) (img : Memory) (s : State) : State :=
  { accepted d img s with
    nchunks := BitVec.ofNat 8 (chunkCount d.imgLen.toNat), curPage := d.page, k := 0, xferAttempts := 0,
    xferFailures := 0, xferFailMap := 0, fsm := if d.imgLen.toNat = 0 then .done else .marshal }

/-- What `Transfer()` has done before its first exchange (R200). -/
def TransferResult.start (page : Byte) (rx : List Byte) : TransferResult :=
  { sent := [], attempts := 0, failures := 0, failMap := 0, curPage := page, events := [], last := none,
    rest := rx }

theorem transferred_start (hq : Quiet s) (hl : d.imgLen.toNat ≤ Config.imageMax) :
    Transferred d img s (.start d.page s.rx) (transferAccepted d img s) where
  quiet := hq
  desc := rfl
  img := rfl
  host := rfl
  params := rfl
  subcause := rfl
  nchunks := Nat.mod_eq_of_lt ((chunkCount_le hl).trans_lt (by decide))
  tx := (List.append_nil _).symm
  rx := rfl
  k := rfl
  attempts := rfl
  failures := rfl
  failMap := rfl
  curPage := rfl
  last := ⟨rfl, rfl, rfl⟩
  boundary := id

/-- MemWrite on the port is accepted, and set up where a model admits it (R181, R209). -/
theorem fed_acceptTransfer (hq : Quiet s) (hf : s.fsm = .idle) (hh : s.host = c :: cs)
    (hi : c.desc.instr? = some (.memWrite page len)) (hv : validate c.desc = none)
    (hl : len.toNat ≤ Config.imageMax) (hp : MemWriteAdmitted page len.toNat) :
    Fed [] s (transferAccepted c.desc s.hostWritesImage.img s) := by
  obtain ⟨-, hpage, hlen⟩ := memWrite_of_instr? hi
  have hnow := State.now_quiet s hq
  have hport : s.portDescriptor = c.desc := by rw [State.portDescriptor, hh]
  have hc : s.cmdValid = true := by rw [State.cmdValid, hnow, hh]; rfl
  have hlatch : (Instr.memWrite page len).latch s.hostWritesImage.portDescriptor = c.desc := by
    rw [hostWritesImage_portDescriptor, hport, latch_of_instr? hi]
  have hf' : s.hostWritesImage.fsm = .idle := by rw [hostWritesImage_eq]; exact hf
  obtain ⟨-, acceptTransfer, -⟩ := acceptInIdle
  refine .one ?_ (not_awaiting (by rw [hf]; rfl)) rfl
  rw [step_of_port (by rw [hnow]; rfl) hf hc (hport ▸ hi),
    acceptTransfer page len s.hostWritesImage hf' hl hp (by rw [hlatch, hv]), hlatch, hostWritesImage_eq,
    hpage, hlen]
  exact congrArg _ (State.advance_quiet (transferAccepted c.desc s.hostWritesImage.img s) hq)

/-- With quiet pins and all responses waiting, the transfer runs to `DONE` (R200). -/
theorem fed_transferDone (hinv : Inv s) (hq : Quiet s) (hf : s.fsm = .idle) (hh : s.host = c :: cs)
    (hi : c.desc.instr? = some (.memWrite page len)) (hv : validate c.desc = none)
    (hl : len.toNat ≤ Config.imageMax) (hp : MemWriteAdmitted page len.toNat)
    (hr : transfer s.hostWritesImage.img page len.toNat s.params.xferFailStop s.rx = some r) :
    ∃ t, Fed r.events s t ∧ Transferred c.desc s.hostWritesImage.img s r t ∧ t.fsm = .done ∧
      t.status = if r.failures = 0 then .ok else .nack := by
  obtain ⟨-, rfl, rfl⟩ := memWrite_of_instr? hi
  have accept := fed_acceptTransfer hq hf hh hi hv hl hp
  have hstart := transferred_start (img := s.hostWritesImage.img) (d := c.desc) hq hl
  rw [transfer] at hr
  rcases hn : chunkCount c.desc.imgLen.toNat with _ | left
  · rw [hn, transferLoop] at hr
    cases hr
    exact ⟨_, accept, hstart, if_pos (chunkCount_eq_zero.1 hn), rfl⟩
  · rw [hn] at hr
    have hmarshal : (transferAccepted c.desc s.hostWritesImage.img s).fsm = .marshal :=
      if_neg (mt chunkCount_eq_zero.2 (by rw [hn]; exact Nat.succ_ne_zero left))
    obtain ⟨es, t, hrest, hevents, hdone⟩ := fed_transferLoop hi hstart (hinv.of_fed accept) hmarshal
      ((Nat.zero_add _).trans hn.symm) hr
    rw [hevents]
    exact ⟨t, accept.trans hrest, hdone⟩

/-- `DONE` presents the transfer's result (R191). -/
theorem fed_transfer (hinv : Inv s) (hq : Quiet s) (hf : s.fsm = .idle) (hh : s.host = c :: cs)
    (hi : c.desc.instr? = some (.memWrite page len)) (hv : validate c.desc = none)
    (hl : len.toNat ≤ Config.imageMax) (hp : MemWriteAdmitted page len.toNat)
    (hr : transfer s.hostWritesImage.img page len.toNat s.params.xferFailStop s.rx = some r) :
    ∃ t, Fed r.events s t ∧ Transferred c.desc s.hostWritesImage.img s r t ∧ t.fsm = .idle ∧
      t.busy = false ∧ t.resValid = true ∧ t.status = if r.failures = 0 then .ok else .nack := by
  obtain ⟨u, hfed, h, hdone, hstatus⟩ := fed_transferDone hinv hq hf hh hi hv hl hp hr
  have present : Fed [] u u.lowerPulse.presentResult :=
    fed_quiet h.quiet (by rw [hdone]; decide) (not_awaiting (by rw [hdone]; rfl)) (h.desc ▸ hi)
      (exec_done hdone) h.quiet rfl
  have hwhole := hfed.append present
  rw [List.append_nil] at hwhole
  exact ⟨_, hwhole, { h with }, rfl, rfl, rfl, hstatus⟩

/-! ### With the responses still to arrive -/

/-- The invariant speaks of the engine, and not of what waits on the link or of the pins. -/
theorem Inv.arrived (h : Inv s) : Inv s.arrived :=
  ⟨{ h.buffers with }, { h.sequencer with }, { h.transfer with }⟩

/-- The image that the host writes does not depend on the link. -/
theorem hostWritesImage_img_arrived (s : State) :
    s.arrived.hostWritesImage.img = s.hostWritesImage.img := by
  simp only [State.hostWritesImage, State.arrived, State.given]
  split <;> rfl

end Sys2Proof.Machine

open Sys2Proof Sys2Proof.Machine

/-- Settles O58: the run with all responses waiting is matched by the one in which they arrive. -/
theorem transferRuns : Obligations.TransferRuns := by
  intro s c cs page len r hinv hcalm hf hh hi hv hl hp hr
  rw [← hostWritesImage_img_arrived] at hr
  obtain ⟨v, hfed, h, hidle, hbusy, hvalid, hstatus⟩ :=
    fed_transfer hinv.arrived hcalm.quiet_arrived hf hh hi hv hl hp hr
  obtain ⟨n, t, hrun, htcalm, rfl, hevents⟩ := hcalm.fed hfed
  obtain ⟨-, -, hlen⟩ := memWrite_of_instr? hi
  have hhost : t.host = cs := h.host.trans (congrArg List.tail hh)
  have hincoming : t.incoming = r.rest := h.rx
  have hboundary : TargetAtBoundary s → TargetAtBoundary t := h.boundary
  exact ⟨n, t, hrun, hevents, hidle, hbusy, hvalid, h.tx, hincoming, hhost, h.desc, hstatus, h.attempts,
    h.failures, h.failMap, h.curPage, h.subcause, h.k, hlen ▸ h.nchunks, h.last, htcalm, hboundary,
    fun hduties hnil => hduties.again hcalm htcalm hf hh hhost (hincoming.trans hnil) hboundary⟩
end

section
/-! The pins of a step: what of `exec` looks at them, and where (60_exceptions.md R230). -/
namespace Sys2Proof.Machine

variable {i : Instr} {s : State} {q : Stim} {f taken : State → State}

/-- An update of the state that looks at no pin. -/
def IgnoresPins (f : State → State) : Prop :=
  ∀ (q : Stim) (s : State), f (s.withPins q) = (f s).withPins q

/-- A step that looks at no pin. -/
def StepIgnoresPins (k : State → Result) : Prop :=
  ∀ (q : Stim) (s : State), k (s.withPins q) = onNext (State.withPins q) (k s)

/-! ### The updates and steps that look at no pin -/

theorem ignoresPins_prefixTaken : IgnoresPins prefixTaken := by
  intro q s
  rw [prefixTaken, prefixTaken, apply_ite (State.withPins q)]
  rfl

theorem ignoresPins_trailerTaken : IgnoresPins trailerTaken := by
  intro q s
  rw [trailerTaken, trailerTaken, apply_ite (State.withPins q)]
  rfl

theorem IgnoresPins.needsData {n : Nat} {use : State → State} (h : IgnoresPins use) :
    IgnoresPins (needsData n use) := by
  intro q s
  rw [Machine.needsData, Machine.needsData, apply_ite (State.withPins q), h]
  rfl

theorem ignoresPins_onAckOf (i : Instr) : IgnoresPins (onAckOf i) := by
  cases i with
  | getVersion | getChipId | getRdpStatus => exact IgnoresPins.needsData fun _ _ => rfl
  | getHelp =>
    intro q s
    rw [onAckOf, decodeHelp, decodeHelp, apply_ite (State.withPins q)]
    rfl
  | _ => exact fun _ _ => rfl

theorem ignoresPins_decode (i : Instr) : IgnoresPins (commandOf i).decode := by
  rcases ht : i.isTransfer
  · rw [commandOf_oneExchange ht]
    intro q s
    change decodeWith _ _ = (decodeWith _ _).withPins q
    rw [decodeWith, decodeWith, apply_ite (State.withPins q), ignoresPins_onAckOf]
    rfl
  · cases i <;> cases ht
    exact fun _ _ => rfl

theorem ignoresPins_nextChunkStep : IgnoresPins nextChunkStep := by
  intro q s
  rw [nextChunkStep, nextChunkStep, apply_ite (State.withPins q)]
  rfl

theorem stepIgnoresPins_setUp (i : Instr) : StepIgnoresPins (commandOf i).setUp := by
  cases i with
  | memWrite page len =>
    intro q s
    change transferSetUp page len _ = onNext _ (transferSetUp page len s)
    unfold transferSetUp
    split
    · rfl
    · split <;> rfl
  | _ => exact fun _ _ => rfl

theorem stepIgnoresPins_marshal (i : Instr) : StepIgnoresPins (commandOf i).marshal := by
  cases i with
  | memWrite page len =>
    intro q s
    change marshalChunk len _ = onNext _ (marshalChunk len s)
    simp only [marshalChunk, apply_ite (onNext (State.withPins q))]
    rfl
  | _ => exact fun _ _ => rfl

theorem stepIgnoresPins_gotStatus (b : Byte) : StepIgnoresPins (gotStatus b) := by
  intro q s
  rw [gotStatus, gotStatus, apply_ite (onNext (State.withPins q))]
  rfl

theorem stepIgnoresPins_gotData (b : Byte) : StepIgnoresPins (gotData b) := by
  intro q s
  rw [gotData, gotData, apply_ite (onNext (State.withPins q))]
  rfl

/-! ### The steps of the link, on pins that agree on what each looks at -/

theorem linkGuard_withPins {k : State → Result} (hl : s.now.linkErr = q.linkErr)
    (hk : k (s.withPins q).lowerPulse = onNext (State.withPins q) (k s.lowerPulse)) :
    linkGuard k (s.withPins q).lowerPulse = onNext (State.withPins q) (linkGuard k s.lowerPulse) := by
  rcases he : s.now.linkErr
  · rw [linkGuard_of_noErr he, linkGuard_of_noErr (s := s.withPins q) (hl.symm.trans he), hk]
  · rw [linkGuard_of_linkErr he, linkGuard_of_linkErr (s := s.withPins q) (hl.symm.trans he)]
    rfl

theorem absorbAndSend_withPins (b : Byte) (ht : IgnoresPins taken) (hx : s.now.txReady = q.txReady) :
    absorbAndSend b taken (s.withPins q) = (absorbAndSend b taken s).withPins q := by
  obtain ⟨h0, ho, e⟩ | ⟨h0, h1, e⟩ | ⟨h1, e⟩ | ⟨o, h0, ho, hr, e⟩ | ⟨o, h0, ho, hr, e⟩ :=
    absorbAndSend_cases b taken s <;> rw [e]
  · exact absorbAndSend_inject (s := s.withPins q) b taken h0 ho
  · exact absorbAndSend_bitStep (s := s.withPins q) b taken h0 h1
  · exact absorbAndSend_last (s := s.withPins q) b taken h1
  · rw [absorbAndSend_taken (s := s.withPins q) b taken h0 ho (hx.symm.trans hr), ← ht]
    rfl
  · exact absorbAndSend_held (s := s.withPins q) b taken h0 ho (hx.symm.trans hr)

theorem sendOnly_withPins (b : Byte) (ht : IgnoresPins taken) (hx : s.now.txReady = q.txReady) :
    sendOnly b taken (s.withPins q) = (sendOnly b taken s).withPins q := by
  obtain ⟨ho, e⟩ | ⟨o, ho, hr, e⟩ | ⟨o, ho, hr, e⟩ := sendOnly_cases b taken s <;> rw [e]
  · exact sendOnly_offers (s := s.withPins q) b taken ho
  · rw [sendOnly_taken (s := s.withPins q) b taken ho (hx.symm.trans hr), ← ht]
    rfl
  · exact sendOnly_held (s := s.withPins q) b taken ho (hx.symm.trans hr)

theorem txPayloadStep_withPins (hx : s.now.txReady = q.txReady) :
    txPayloadStep (s.withPins q) = onNext (State.withPins q) (txPayloadStep s) := by
  have covered : Host.Outcome.next (absorbAndSend (s.pb.read s.idx.toNat) payloadTaken (s.withPins q)) =
      onNext (State.withPins q) (.next (absorbAndSend (s.pb.read s.idx.toNat) payloadTaken s)) :=
    congrArg _ (absorbAndSend_withPins _ (fun _ _ => rfl) hx)
  simp only [txPayloadStep, apply_ite (onNext (State.withPins q)), ← covered]
  rfl

theorem waitForByte_withPins (ht : s.now.timeUnit = q.timeUnit) :
    (s.withPins q).waitForByte = s.waitForByte.withPins q := by
  have hq : (s.withPins q).now.timeUnit = s.now.timeUnit := ht.symm
  rcases hp : s.params.rxTimeout with _ | T
  · rw [waitForByte_untimed hp, waitForByte_untimed (s := s.withPins q) hp]
  · rcases hu : s.now.timeUnit
    · rw [waitForByte_noUnit hu, waitForByte_noUnit (hq.trans hu)]
    · rw [waitForByte_unit hp hu, waitForByte_unit (s := s.withPins q) hp (hq.trans hu),
        apply_ite (State.withPins q)]
      rfl

theorem receive_withPins {got : Byte → State → Result} (hg : ∀ b, StepIgnoresPins (got b))
    (ho : s.now.rxOffer = q.rxOffer) (ht : s.now.timeUnit = q.timeUnit) :
    receive got (s.withPins q).lowerPulse = onNext (State.withPins q) (receive got s.lowerPulse) := by
  have e : (s.withPins q).rxOffered = s.rxOffered := by
    rw [State.rxOffered, State.rxOffered, ho]
    rfl
  rcases hr : s.rxOffered with _ | b
  · rw [receive_waits got hr, receive_waits got (e.trans hr)]
    exact congrArg _ (waitForByte_withPins (s := s.lowerPulse) ht)
  · rw [receive_offered got hr, receive_offered got (e.trans hr)]
    exact hg b q s.lowerPulse.takeByte

/-! ### A command's step -/

/-- A descriptor is accepted or rejected whatever the pins are. -/
theorem exec_idle_withPins (q : Stim) (hf : s.fsm = .idle) :
    exec i (s.withPins q) = onNext (State.withPins q) (exec i s) := by
  rcases hv : validate (i.latch s.portDescriptor) with _ | c
  · rw [exec_idle_of_valid hf hv, exec_idle_of_valid (s := s.withPins q) hf hv]
    exact stepIgnoresPins_setUp i q (acceptDescriptor (i.latch s.portDescriptor) s.lowerPulse)
  · rw [exec_idle_of_validate hf hv, exec_idle_of_validate (s := s.withPins q) hf hv]
    rfl

/-- Pins that agree with the step's own, on the inputs its state looks at, give the same next state. -/
theorem exec_withPins (h : samePins s.fsm s.now q) :
    exec i (s.withPins q) = onNext (State.withPins q) (exec i s) := by
  obtain ⟨hs, hr⟩ := h
  rcases hf : s.fsm <;> rw [hf] at hs hr
  case idle => exact exec_idle_withPins q hf
  case marshal =>
    rw [exec_marshal hf, exec_marshal (s := s.withPins q) hf]
    exact stepIgnoresPins_marshal i q s.lowerPulse
  case txLen =>
    obtain ⟨hx, hl⟩ := hs rfl
    rw [exec_txLen hf, exec_txLen (s := s.withPins q) hf]
    exact linkGuard_withPins hl
      (congrArg _ (absorbAndSend_withPins (s := s.lowerPulse) _ ignoresPins_prefixTaken hx))
  case txPayload =>
    obtain ⟨hx, hl⟩ := hs rfl
    rw [exec_txPayload hf, exec_txPayload (s := s.withPins q) hf]
    exact linkGuard_withPins hl (txPayloadStep_withPins (s := s.lowerPulse) hx)
  case txCrc =>
    obtain ⟨hx, hl⟩ := hs rfl
    rw [exec_txCrc hf, exec_txCrc (s := s.withPins q) hf]
    exact linkGuard_withPins hl
      (congrArg _ (sendOnly_withPins (s := s.lowerPulse) _ ignoresPins_trailerTaken hx))
  case rxStatus =>
    obtain ⟨ho, hl, ht⟩ := hr rfl
    rw [exec_rxStatus hf, exec_rxStatus (s := s.withPins q) hf]
    exact linkGuard_withPins hl (receive_withPins stepIgnoresPins_gotStatus ho ht)
  case rxLen =>
    obtain ⟨ho, hl, ht⟩ := hr rfl
    rw [exec_rxLen hf, exec_rxLen (s := s.withPins q) hf]
    exact linkGuard_withPins hl (receive_withPins (fun _ _ _ => rfl) ho ht)
  case rxData =>
    obtain ⟨ho, hl, ht⟩ := hr rfl
    rw [exec_rxData hf, exec_rxData (s := s.withPins q) hf]
    exact linkGuard_withPins hl (receive_withPins stepIgnoresPins_gotData ho ht)
  case decode =>
    rw [exec_decode hf, exec_decode (s := s.withPins q) hf]
    exact congrArg _ (ignoresPins_decode i q s.lowerPulse)
  case nextChunk =>
    rw [exec_nextChunk hf, exec_nextChunk (s := s.withPins q) hf]
    exact congrArg _ (ignoresPins_nextChunkStep q s.lowerPulse)
  case done =>
    rw [exec_done hf, exec_done (s := s.withPins q) hf]
    rfl

end Sys2Proof.Machine

open Sys2Proof Sys2Proof.Machine

/-- Settles O30: only the steps of the link look at pins, each at those of its own state. -/
theorem inputsLookedAtOnlyWhereNamed : Obligations.InputsLookedAtOnlyWhereNamed := by
  intro i s t p q h he
  exact (exec_withPins (s := s.withPins p) h).trans (congrArg _ he)
end

section
/-! What a command leaves unchanged, register by register, by cases on the moves (60_exceptions.md R233;
10_state.md sections 2 and 5 to 7). -/
namespace Sys2Proof.Machine

variable {i : Instr} {s t : State}

theorem prefixTaken_frame (s : State) :
    prefixTaken s = { s with idx := (prefixTaken s).idx, fsm := (prefixTaken s).fsm } := by
  unfold prefixTaken
  split <;> rfl

theorem trailerTaken_frame (s : State) : trailerTaken s =
    { s with idx := (trailerTaken s).idx, tmo := (trailerTaken s).tmo, fsm := (trailerTaken s).fsm } := by
  unfold trailerTaken
  split <;> rfl

theorem Move.img (h : Move i s t) : t.img = s.img := by
  cases h with
  | lenTaken => rw [prefixTaken_frame]; rfl
  | trailerTaken => rw [trailerTaken_frame]; rfl
  | decoded => rw [onAckOf_frame]; rfl
  | _ => rfl

/-- The target's boundary is lost only with the two endings that break an exchange off (log 22). -/
theorem Move.boundary (h : Move i s t) : t.boundary = s.boundary ∨
    t.boundary = none ∧ (t.status = .transport ∨ t.status = .noResponse) := by
  cases h with
  | linkFails => exact .inr ⟨rfl, .inl rfl⟩
  | noResponse => exact .inr ⟨rfl, .inr rfl⟩
  | lenTaken => rw [prefixTaken_frame]; exact .inl rfl
  | trailerTaken => rw [trailerTaken_frame]; exact .inl rfl
  | decoded => rw [onAckOf_frame]; exact .inl rfl
  | _ => exact .inl rfl

/-- The port is looked at only at an accept (R181). -/
theorem Move.desc_host (h : Move i s t) (hn : s.fsm ≠ .idle) : t.desc = s.desc ∧ t.host = s.host := by
  cases h with
  | reject _ hf | accept hf | acceptTransfer _ _ _ hf => exact absurd hf hn
  | lenTaken => rw [prefixTaken_frame]; exact ⟨rfl, rfl⟩
  | trailerTaken => rw [trailerTaken_frame]; exact ⟨rfl, rfl⟩
  | decoded => rw [onAckOf_frame]; exact ⟨rfl, rfl⟩
  | _ => exact ⟨rfl, rfl⟩

/-- Each typed result is written only by the `DECODE` of its own command (R143 to R146). -/
structure TypedFrame (i : Instr) (s t : State) : Prop where
  version : ¬ (s.fsm = .decode ∧ i = .getVersion) → t.verVendor = s.verVendor ∧
    t.verMajor = s.verMajor ∧ t.verMinor = s.verMinor ∧ t.verPatch = s.verPatch
  helpCount : ¬ (s.fsm = .decode ∧ i = .getHelp) → t.helpCount = s.helpCount
  chipId : ¬ (s.fsm = .decode ∧ i = .getChipId) → t.chipId = s.chipId
  rdpRep : ¬ (s.fsm = .decode ∧ i = .getRdpStatus) → t.rdpRep = s.rdpRep

theorem needsData_typedFrame {n : Nat} {use : State → State}
    (h : TypedFrame i s (use s.lowerPulse).finish) : TypedFrame i s (needsData n use s.lowerPulse) := by
  obtain ⟨-, e⟩ | ⟨-, e⟩ := needsData_cases n use s.lowerPulse <;> rw [e]
  · exact ⟨fun _ => ⟨rfl, rfl, rfl, rfl⟩, fun _ => rfl, fun _ => rfl, fun _ => rfl⟩
  · exact h

theorem onAckOf_typedFrame (hf : s.fsm = .decode) : TypedFrame i s (onAckOf i s.lowerPulse) := by
  cases i with
  | getVersion =>
    exact needsData_typedFrame ⟨fun h => absurd ⟨hf, rfl⟩ h, fun _ => rfl, fun _ => rfl, fun _ => rfl⟩
  | getHelp =>
    rw [onAckOf, decodeHelp]
    split <;>
      exact ⟨fun _ => ⟨rfl, rfl, rfl, rfl⟩, fun h => absurd ⟨hf, rfl⟩ h, fun _ => rfl, fun _ => rfl⟩
  | getChipId =>
    exact needsData_typedFrame
      ⟨fun _ => ⟨rfl, rfl, rfl, rfl⟩, fun _ => rfl, fun h => absurd ⟨hf, rfl⟩ h, fun _ => rfl⟩
  | getRdpStatus =>
    exact needsData_typedFrame
      ⟨fun _ => ⟨rfl, rfl, rfl, rfl⟩, fun _ => rfl, fun _ => rfl, fun h => absurd ⟨hf, rfl⟩ h⟩
  | _ => exact ⟨fun _ => ⟨rfl, rfl, rfl, rfl⟩, fun _ => rfl, fun _ => rfl, fun _ => rfl⟩

theorem Move.typedFrame (h : Move i s t) : TypedFrame i s t := by
  cases h with
  | decoded hf => exact onAckOf_typedFrame hf
  | lenTaken =>
    rw [prefixTaken_frame]
    exact ⟨fun _ => ⟨rfl, rfl, rfl, rfl⟩, fun _ => rfl, fun _ => rfl, fun _ => rfl⟩
  | trailerTaken =>
    rw [trailerTaken_frame]
    exact ⟨fun _ => ⟨rfl, rfl, rfl, rfl⟩, fun _ => rfl, fun _ => rfl, fun _ => rfl⟩
  | _ => exact ⟨fun _ => ⟨rfl, rfl, rfl, rfl⟩, fun _ => rfl, fun _ => rfl, fun _ => rfl⟩

/-- The number of chunks is written only at MemWrite's accept (R20). -/
theorem Move.nchunks (h : Move i s t) (hn : ¬ (s.fsm = .idle ∧ i.isTransfer = true)) :
    t.nchunks = s.nchunks := by
  cases h with
  | acceptTransfer _ _ hi hf => exact absurd ⟨hf, hi ▸ rfl⟩ hn
  | lenTaken => rw [prefixTaken_frame]; rfl
  | trailerTaken => rw [trailerTaken_frame]; rfl
  | decoded => rw [onAckOf_frame]; rfl
  | _ => rfl

theorem latch_sel_ne_seven (ht : ¬ i.isTransfer = true) (d : Descriptor) : (i.latch d).sel ≠ 7 := by
  rw [sel_latch, ne_eq, selector_eq_seven]
  exact ht

/-- The page, the chunk index and the report are written only at MemWrite's accept and in `NEXT_CHUNK`
(R19 to R21). -/
theorem Move.report (h : Move i s t)
    (hn : ¬ (s.fsm = .idle ∧ i.isTransfer = true ∨ s.fsm = .nextChunk)) :
    t.curPage = s.curPage ∧ t.k = s.k ∧ t.xferAttempts = s.xferAttempts ∧
      t.xferFailures = s.xferFailures ∧ t.xferFailMap = s.xferFailMap := by
  cases h with
  | reject _ hf | accept hf =>
    rw [acceptDescriptor_of_sel (latch_sel_ne_seven (fun ht => hn (.inl ⟨hf, ht⟩)) _)]
    exact ⟨rfl, rfl, rfl, rfl, rfl⟩
  | acceptTransfer _ _ hi hf => exact absurd (.inl ⟨hf, hi ▸ rfl⟩) hn
  | nextChunk hf | transferEnds hf => exact absurd (.inr hf) hn
  | lenTaken => rw [prefixTaken_frame]; exact ⟨rfl, rfl, rfl, rfl, rfl⟩
  | trailerTaken => rw [trailerTaken_frame]; exact ⟨rfl, rfl, rfl, rfl, rfl⟩
  | decoded => rw [onAckOf_frame]; exact ⟨rfl, rfl, rfl, rfl, rfl⟩
  | _ => exact ⟨rfl, rfl, rfl, rfl, rfl⟩

/-- A chunk's length is written only when it is marshalled (R202). -/
theorem Move.clen (h : Move i s t) (hn : ¬ (s.fsm = .marshal ∧ i.isTransfer = true)) :
    t.clen = s.clen := by
  cases h with
  | marshalChunk _ _ hi hf => exact absurd ⟨hf, hi ▸ rfl⟩ hn
  | lenTaken => rw [prefixTaken_frame]; rfl
  | trailerTaken => rw [trailerTaken_frame]; rfl
  | decoded => rw [onAckOf_frame]; rfl
  | _ => rfl

/-- `PB` and the two lengths are written only in `MARSHAL` (R14, R26). -/
theorem Move.payload (h : Move i s t) (hn : s.fsm ≠ .marshal) :
    t.pb = s.pb ∧ t.plen = s.plen ∧ t.flen = s.flen := by
  cases h with
  | marshal hf | marshalChunk _ _ _ hf => exact absurd hf hn
  | lenTaken => rw [prefixTaken_frame]; exact ⟨rfl, rfl, rfl⟩
  | trailerTaken => rw [trailerTaken_frame]; exact ⟨rfl, rfl, rfl⟩
  | decoded => rw [onAckOf_frame]; exact ⟨rfl, rfl, rfl⟩
  | _ => exact ⟨rfl, rfl, rfl⟩

/-- `RXB` is left alone, or one byte is written to it at `idx`, in `RX_DATA` (R27, R188). -/
theorem Move.rxb (h : Move i s t) :
    t.rxb = s.rxb ∨ s.fsm = .rxData ∧ ∃ b, t.rxb = s.rxb.write s.idx.toNat b := by
  cases h with
  | dataRead b _ hf => exact .inr ⟨hf, b, rfl⟩
  | lenTaken => rw [prefixTaken_frame]; exact .inl rfl
  | trailerTaken => rw [trailerTaken_frame]; exact .inl rfl
  | decoded => rw [onAckOf_frame]; exact .inl rfl
  | _ => exact .inl rfl

end Sys2Proof.Machine

open Sys2Proof Sys2Proof.Machine

/-- Settles O49, by cases on the moves of `exec`, one register at a time. -/
theorem commandFrame : Obligations.CommandFrame := by
  intro i s t he
  have h := exec_move he
  obtain ⟨hscript, hrest, hparams, -⟩ := h.keepsPins
  obtain ⟨hversion, hhelp, hchip, hrdp⟩ := h.typedFrame
  refine ⟨h.img, hparams, hscript, hrest, h.boundary, h.desc_host, hversion, hhelp, hchip, hrdp,
    h.nchunks, h.report, h.clen, h.payload, fun hn => ?_, fun a ha => ?_⟩
  · exact h.rxb.resolve_right fun hd => hn hd.1
  · obtain e | ⟨-, b, e⟩ := h.rxb <;> rw [e]
    exact Memory.read_write_other b ha
end

section
/-! Runs that do not end: an engine whose byte never comes or is never taken (60_exceptions.md R235). -/
namespace Sys2Proof.Machine

variable {i : Instr} {s u : State}

/-- Where every state that meets `P` steps to one that meets `P`, there are runs of every length, and `P`
holds at their ends. -/
theorem Run.forever {P : State → Prop} (hP : ∀ u, P u → ∃ v, step u = .next v ∧ P v) (hs : P s) (n : Nat) :
    (∃ t, Run n s t) ∧ ∀ t, Run n s t → P t := by
  constructor
  · induction n generalizing s with
    | zero => exact ⟨s, rfl⟩
    | succ n ih =>
      obtain ⟨v, hv, hPv⟩ := hP s hs
      obtain ⟨t, ht⟩ := ih hPv
      exact ⟨t, v, hv, ht⟩
  · refine fun t ht => ht.keeps (fun u w hu hw => ?_) hs
    obtain ⟨v, hv, hPv⟩ := hP u hu
    cases hv.symm.trans hw
    exact hPv

theorem now_of_script_nil (hs : s.script = []) : s.now = s.restPins := by
  rw [State.now, hs]
  rfl

/-- While a command is run, moving on past the script's end only adds what arrives. -/
theorem advance_of_script_nil (hs : s.script = []) (hf : s.fsm ≠ .idle) :
    s.advance = { s with rx := s.rx ++ s.restPins.arrive } := by
  have htail : s.script.tail = s.script := by rw [hs]; rfl
  rw [State.advance, State.rxKept, if_neg hf, State.boundaryKept, if_neg fun h => hf h.1, htail,
    now_of_script_nil hs]

/-- A step in which the running command waits, past the script's end: only bytes arrive. -/
theorem step_of_exec_lowerPulse (hs : s.script = []) (hr : s.restPins.rst = false) (hf : s.fsm ≠ .idle)
    (hi : s.desc.instr? = some i) (he : exec i s = .next s.lowerPulse) :
    step s = .next { s.lowerPulse with rx := s.rx ++ s.restPins.arrive } := by
  rw [step_of_latched (by rw [now_of_script_nil hs, hr]) hf hi, he]
  exact congrArg _ (advance_of_script_nil (s := s.lowerPulse) hs hf)

/-- `u` is `s` after a wait: the pulse may be down, and bytes have come to the receive side if any arrive. -/
def Waited (s u : State) : Prop :=
  ∃ e bs, (s.restPins.arrive = [] → bs = []) ∧ u = { s with chunkEvt := e, rx := s.rx ++ bs }

/-- An engine that waits in every state that waiting leads to has a run of every length, all of it waiting. -/
theorem run_waits (hs : s.script = []) (hr : s.restPins.rst = false) (hf : s.fsm ≠ .idle)
    (hi : s.desc.instr? = some i) (he : ∀ u, Waited s u → exec i u = .next u.lowerPulse) (n : Nat) :
    (∃ t, Run n s t) ∧ ∀ t, Run n s t → Waited s t := by
  have hstart : Waited s s := ⟨s.chunkEvt, [], fun _ => rfl, by rw [List.append_nil]⟩
  refine Run.forever (fun u hu => ?_) hstart n
  have hx := he u hu
  obtain ⟨e, bs, hbs, rfl⟩ := hu
  refine ⟨_, step_of_exec_lowerPulse hs hr hf hi hx, none, bs ++ s.restPins.arrive, fun ha => ?_, ?_⟩
  · rw [hbs ha, ha, List.append_nil]
  · rw [← List.append_assoc]
    rfl

/-- With no byte waiting or arriving, and no `RX_TIMEOUT`, an `RX_*` state waits (R193). -/
theorem Waited.exec_of_noByte (h : Waited s u) (hl : u.now.linkErr = false)
    (hf : s.fsm.receiving = true) (hx : s.rx = []) (ha : s.restPins.arrive = [])
    (hp : s.params.rxTimeout = none) : exec i u = .next u.lowerPulse := by
  obtain ⟨e, bs, hbs, rfl⟩ := h
  have hrx : s.rx ++ bs = [] := by rw [hx, hbs ha, List.append_nil]
  obtain ⟨hwait, -, -⟩ := waitingForTheLink i _ hl
  refine hwait hf ?_ hp
  rw [State.rxOffered, hrx]
  exact ite_self _

/-- A byte on offer is one of the frame's, in a `TX_*` state (10_state.md R30). -/
theorem SequencerOk.offer_place (h : SequencerOk s) (ho : s.txOffer.isSome = true) :
    s.fsm = .txLen ∨ s.fsm = .txPayload ∧ s.idx < s.plen ∧ s.idx.toNat < Config.payloadMax ∨
      s.fsm = .txCrc := by
  have hs := h.offerWhileSending ho
  cases hf : s.fsm with
  | txLen => exact .inl rfl
  | txPayload =>
    have hlt := h.offerInPayload hf ho
    exact .inr (.inl ⟨rfl, hlt, hlt.trans_le h.plenBound⟩)
  | txCrc => exact .inr (.inr rfl)
  | _ => rw [hf] at hs; cases hs

/-- A byte on offer that the link does not take is held (R193). -/
theorem Waited.exec_of_offer {o : Byte} (h : Waited s u) (hq : SequencerOk s) (hl : u.now.linkErr = false)
    (ho : s.txOffer = some o) (hr : u.now.txReady = false) : exec i u = .next u.lowerPulse := by
  have hsome : s.txOffer.isSome = true := by rw [ho]; rfl
  obtain ⟨e, bs, -, rfl⟩ := h
  obtain ⟨-, -, hheld⟩ := waitingForTheLink i _ hl
  exact hheld o (hq.offer_place hsome) (.inr (hq.offerAfterAbsorb hsome)) ho hr

end Sys2Proof.Machine

open Sys2Proof Sys2Proof.Machine

/-- Settles O59: either wait changes nothing of the engine but the pulse, so it is repeated without end. -/
theorem waitsForEver : Obligations.WaitsForEver := by
  intro s i hq hs hr hl hi
  have hnow : ∀ u, Waited s u → u.now = s.restPins := by
    rintro _ ⟨e, bs, -, rfl⟩
    exact now_of_script_nil hs
  refine ⟨fun hf hx ha hp n => ?_, fun o ho hx n => ?_⟩
  · have hni := Fsm.ne_idle_of_running (Fsm.running_of_receiving hf)
    obtain ⟨hex, hall⟩ := run_waits hs hr hni hi
      (fun u hu => hu.exec_of_noByte (by rw [hnow u hu, hl]) hf hx ha hp) n
    refine ⟨hex, fun t ht => ?_⟩
    obtain ⟨e, bs, hbs, rfl⟩ := hall t ht
    have hrx : s.rx ++ bs = [] := by rw [hx, hbs ha, List.append_nil]
    exact ⟨rfl, hq.busy_of_ne_idle hni, hq.noResult_of_ne_idle hni, rfl, hrx⟩
  · have hni := Fsm.ne_idle_of_running (Fsm.running_of_sending (hq.offerWhileSending (by rw [ho]; rfl)))
    obtain ⟨hex, hall⟩ := run_waits hs hr hni hi
      (fun u hu => hu.exec_of_offer hq (by rw [hnow u hu, hl]) ho (by rw [hnow u hu, hx])) n
    refine ⟨hex, fun t ht => ?_⟩
    obtain ⟨e, bs, -, rfl⟩ := hall t ht
    exact ⟨rfl, hq.busy_of_ne_idle hni, hq.noResult_of_ne_idle hni, ho, rfl, bs, rfl⟩
end

section
/-! The step with `rst = 1`: what the pins' moving on adds to the reset registers (log 22). -/
namespace Sys2Proof.Machine

variable {s : State}

/-- With `rst = 1` the engine's cycle is not made (R250). -/
theorem step_of_rst (hr : s.now.rst = true) : step s = .next s.resetEngine.advance := if_pos hr

/-- A reset leaves the engine in `IDLE`, so the link adapter's input says what the receive side holds. -/
theorem State.resetEngine_rxKept (s : State) : s.resetEngine.rxKept = s.now.rxHolds.getD s.rx := if_pos rfl

/-- A broken-off exchange leaves the target's place unknown, but a target restored in the same step is at a
boundary. -/
theorem State.resetEngine_boundaryKept (s : State) :
    s.resetEngine.boundaryKept =
      if s.now.restored = true then some s.tx.length
      else if s.fsm.sending = true ∨ s.fsm.receiving = true then none else s.boundary := by
  have hidle : s.resetEngine.fsm = .idle := rfl
  have hnow : s.resetEngine.now = s.now := rfl
  simp only [State.boundaryKept, hidle, hnow, true_and, State.resetEngine_tx, State.resetEngine_boundary,
    Bool.or_eq_true]

end Sys2Proof.Machine

open Sys2Proof Sys2Proof.Machine

/-- Settles O45: the registers and outputs are those of `State.reset`, which the pins' moving on keeps; the
receive side and the target's place are what it makes of them in `IDLE`. -/
theorem resetFromAnyState : Obligations.ResetFromAnyState := by
  intro s hr
  have hrx : s.resetEngine.advance.rx = s.now.rxHolds.getD s.rx ++ s.now.arrive :=
    congrArg (· ++ s.now.arrive) s.resetEngine_rxKept
  exact ⟨s.resetEngine.advance, step_of_rst hr,
    rfl, rfl, rfl, rfl, rfl, rfl, rfl, rfl, rfl, rfl, rfl, rfl, rfl, rfl, rfl, rfl, rfl, rfl, rfl, rfl, rfl,
    rfl, rfl, rfl, rfl,
    rfl, rfl, hrx, rfl, rfl, s.resetEngine_boundaryKept⟩
end

section
/-! Payloads encoded again: encoding undoes decoding, format by format. -/
namespace Sys2Proof.Machine

/-- `d` is read at the front of `bs` and loses nothing of it: what `d` encodes to, then its rest, is `bs`,
and `d` holds a well-formed command with the raw bytes it carries. -/
def FrontOf (bs : List Byte) (d : Decoded) : Prop :=
  encode d.instr d.chunk ++ d.rest = bs ∧ d.instr.wf = true ∧ d.instr.carries d.chunk = true

variable {op : Byte} {fields data chunk rest : List Byte} {d : Decoded}

theorem splitRaw_eq_some {n : Nat} (h : splitRaw n data = some (chunk, rest)) :
    chunk.length = n ∧ chunk ++ rest = data := by
  rw [splitRaw_eq, Option.ite_none_right_eq_some, Option.some.injEq, Prod.mk.injEq] at h
  obtain ⟨hn, rfl, rfl⟩ := h
  exact ⟨List.length_take_of_le hn, List.take_append_drop n data⟩

/-- Format `W` (R78): the 18 bits of the operand hold the 16-bit chunk length, which counts the raw bytes. -/
theorem frontOf_memWrite {page lo hi : Byte} (hmax : (half16 lo hi).toNat ≤ Config.chunkMax)
    (h : splitRaw (half16 lo hi).toNat data = some (chunk, rest)) :
    FrontOf (0x16 :: page :: lo :: hi :: data)
      { instr := .memWrite page (BitVec.ofNat 18 (half16 lo hi).toNat), chunk := chunk, rest := rest } := by
  obtain ⟨hlen, happ⟩ := splitRaw_eq_some h
  have hnum : (BitVec.ofNat 18 (half16 lo hi).toNat).toNat = (half16 lo hi).toNat := by
    rw [BitVec.toNat_ofNat]; omega
  have hhalf : (BitVec.ofNat 18 (half16 lo hi).toNat).setWidth 16 = half16 lo hi := by
    apply BitVec.eq_of_toNat_eq
    rw [BitVec.toNat_setWidth, hnum, Nat.mod_eq_of_lt (half16 lo hi).isLt]
  refine ⟨?_, ?_, ?_⟩
  · simp only [encode, hhalf, le16_half16, List.cons_append, List.nil_append, happ]
  · simp only [Config.chunkMax] at hmax
    simp only [Instr.wf, hnum, Config.imageMax, decide_eq_true_eq]
    omega
  · simp only [Instr.carries, hnum, hlen, hmax, beq_self_eq_true, decide_true, Bool.and_self]

/-- Format `AL` (R79): the address field and the length field are each sent as they are read. -/
theorem frontOf_memRead (f0 f1 f2 f3 l0 l1 l2 l3 : Byte) (rest : List Byte) :
    FrontOf (0x17 :: f0 :: f1 :: f2 :: f3 :: l0 :: l1 :: l2 :: l3 :: rest)
      { instr := .memRead 4 (addrOfField f0 f1 f2 f3) (word32 l0 l1 l2 l3), chunk := [], rest := rest } := by
  refine ⟨?_, rfl, rfl⟩
  simp only [encode, addrField_addrOfField, le32_word32, List.cons_append, List.nil_append]

/-- What `decodeFields` reads is at the front of the payload: one case for each opcode, as R85 lists them. -/
theorem frontOf_of_decodeFields (h : decodeFields op fields = .ok d) : FrontOf (op :: fields) d := by
  have hop : BitVec.ofNat 8 op.toNat = op := by rw [BitVec.ofNat_toNat, BitVec.setWidth_eq]
  rw [← hop]
  unfold decodeFields at h
  generalize op.toNat = n at h
  split at h
  -- Format `N`: the opcode alone.
  case h_1 | h_2 | h_3 | h_4 => cases h; exact ⟨rfl, rfl, rfl⟩
  -- GoToAddress, EraseFlash and JumpToApp: every field byte is an operand's own.
  case h_5 | h_6 | h_9 =>
    split at h <;> cases h
    exact ⟨rfl, rfl, rfl⟩
  -- MemWrite.
  case h_7 =>
    split at h
    next page lo hi data =>
      dsimp only at h
      split_ifs at h with hmax
      split at h <;> cases h
      next hraw => exact frontOf_memWrite hmax hraw
    next => cases h
  -- MemRead.
  case h_8 =>
    split at h <;> cases h
    exact frontOf_memRead ..
  -- ChangeRdpLevel: the byte is the one of the level it is read as (R80, R152).
  case h_10 =>
    split at h
    next b rest =>
      split_ifs at h with hdisable henable <;> cases h
      · subst hdisable; exact ⟨rfl, rfl, rfl⟩
      · subst henable; exact ⟨rfl, rfl, rfl⟩
    next => cases h
  case h_11 => cases h

/-- A byte sequence that is one payload is what is read at its front, with nothing after it (R72). -/
theorem decodeFront_of_decode {bs : List Byte} {i : Instr} (h : decode bs = .ok (i, chunk)) :
    decodeFront bs = .ok { instr := i, chunk := chunk, rest := [] } := by
  unfold decode at h
  split at h
  next => cases h
  next d hd =>
    obtain ⟨j, c, rest⟩ := d
    cases rest with
    | nil => cases h; exact hd
    | cons b bs => cases h

end Sys2Proof.Machine

open Sys2Proof Sys2Proof.Machine

/-- Settles O12: format by format for what is read at the front, after which nothing is left. -/
theorem encodeOfDecode : Obligations.EncodeOfDecode := by
  intro bs i chunk h
  have hfront := decodeFront_of_decode h
  cases bs with
  | nil => cases hfront
  | cons op fields =>
    obtain ⟨henc, hwf, hcarries⟩ := frontOf_of_decodeFields hfront
    exact ⟨(List.append_nil _).symm.trans henc, hwf, hcarries⟩
end
